-- ==== Sys2Proof/Word.lean ====
section
/-!
DEFINITION. Words, bytes and the plain data the machine's registers and memory are made of:
the 64-bit cell (10_state R30), the eight-cell register file, the six status flags (R40) and memory as a
list of cells in canonical form. What reads and writes them is in Machine/Ops.lean.
-/
namespace Sys2Proof

/-- A 64-bit register cell, address or instruction pointer (10_state R30, R38; 00_scope R8). -/
abbrev Word := BitVec 64

/-- One byte of memory or of an instruction (00_scope R17). -/
abbrev Byte := BitVec 8

/-- A 4-bit register index of an operand descriptor (10_state R31). -/
abbrev RegIdx := BitVec 4

/-- The number of a cell inside one register file (0 to 7). -/
abbrev CellIdx := BitVec 3

/-- A file of eight 64-bit cells: D0 to D7, A0 to A7 or CR0 to CR7 (10_state R32, R33, R37). -/
structure Bank where
  r0 : Word
  r1 : Word
  r2 : Word
  r3 : Word
  r4 : Word
  r5 : Word
  r6 : Word
  r7 : Word
deriving DecidableEq, Repr, Inhabited

/-- The three register files (10_state R32, R33, R37). `a.r7` is SP (R34). -/
structure Regs where
  d : Bank
  a : Bank
  cr : Bank
deriving DecidableEq, Repr, Inhabited

/-- The status flags: carry, overflow, zero, negative, extend, halt (10_state R40). -/
structure Flags where
  c : Bool
  v : Bool
  z : Bool
  n : Bool
  x : Bool
  h : Bool
deriving DecidableEq, Repr, Inhabited

/-- Memory contents: the bytes that differ from 0, by address (20_memory R80).
An address that is not listed reads 0 (DESIGN CHOICE, unsafe: notes/assumptions/3.md). -/
abbrev Memory := List Host.Cell

end Sys2Proof
end

