-- ==== Sys2Proof/Syntax.lean ====
section
/-!
DEFINITION. The instructions as syntax: operand sizes, operands, and one constructor of `Instr` per row of
spec/opcode_table.json, with the classes and formats of 30_encoding R121
and the operand roles of R133 (which class has which role is in Decode.lean).
-/
namespace Sys2Proof

/-- Operand sizes (30_encoding R126). -/
inductive Size where
  | byte
  | word
  | dword
  | long
deriving DecidableEq, Repr, Inhabited

/-- `bytes(s)` of 00_scope R18. -/
def Size.bytes : Size → Nat
  | .byte => 1
  | .word => 2
  | .dword => 4
  | .long => 8

/-- `w(s)`, the width in bits (00_scope R18). -/
def Size.width (s : Size) : Nat := 8 * s.bytes

/-- An operand descriptor with its payload (20_memory R91). `nib` is the register nibble that Immediate and
Absolute modes ignore (30_encoding R124); it is kept so that no bit of an encoding is dropped (DESIGN CHOICE,
safe: notes/assumptions/18.md). A base of RegisterRelative is an address register, and its shift is 0 to 7, by type
(20_memory R97). -/
inductive Operand where
  /-- Immediate: the payload value, before any extension (20_memory R92). -/
  | imm (nib : RegIdx) (value : Word)
  /-- Absolute: memory at the payload address (R93). -/
  | abs (nib : RegIdx) (addr : Word)
  /-- Register: D0 to D7 or A0 to A7 (R94). -/
  | reg (r : RegIdx)
  /-- Register with the control-register flag: CR0 to CR7 (R95). -/
  | creg (n : CellIdx)
  /-- Indirect: memory at the address a register holds (R96). -/
  | ind (r : RegIdx)
  /-- RegisterRelative: memory at `A[base] + (R[idx] << sh)` (R97). -/
  | rel (base : CellIdx) (idx : RegIdx) (sh : BitVec 3)
deriving DecidableEq, Repr, Inhabited

/-- Classes of format Z (30_encoding R121). -/
inductive ZClass where
  | brk | nop | ret | rti
deriving DecidableEq, Repr, Inhabited

/-- Classes of format U. -/
inductive UClass where
  | sys | call | push | pop | beq | bne | bcs | bcc | bvs | bvc
deriving DecidableEq, Repr, Inhabited

/-- Classes of format B. -/
inductive BClass where
  | lsr | lsl | asr | asl | mov | add | sub | mul | div | cmp | lea
deriving DecidableEq, Repr, Inhabited

/-- The opcode class, which decides the format (30_encoding R120, R121). -/
inductive OpClass where
  | z (c : ZClass)
  | u (c : UClass)
  | b (c : BClass)
deriving DecidableEq, Repr, Inhabited

/-- Operand roles (30_encoding R133): R, W, RW, CNT, OFF, OFF8, AW and EA. -/
inductive Role where
  | read | write | readWrite | count | offset | offset8 | addrReg | effAddr
deriving DecidableEq, Repr, Inhabited

/-- The instructions, one constructor per row of spec/opcode_table.json (30_encoding R131).
`sz` is the size field of byte 1; format Z ignores it (R134), and it is kept
all the same (notes/assumptions/18.md). `d` is the operand of byte 2, `s` that of byte 3. -/
inductive Instr where
  | brk (sz : Size)
  | nop (sz : Size)
  | ret (sz : Size)
  | rti (sz : Size)
  | sys (sz : Size) (d : Operand)
  | call (sz : Size) (d : Operand)
  | lsr (sz : Size) (d : Operand) (s : Operand)
  | lsl (sz : Size) (d : Operand) (s : Operand)
  | asr (sz : Size) (d : Operand) (s : Operand)
  | asl (sz : Size) (d : Operand) (s : Operand)
  | mov (sz : Size) (d : Operand) (s : Operand)
  | add (sz : Size) (d : Operand) (s : Operand)
  | sub (sz : Size) (d : Operand) (s : Operand)
  | mul (sz : Size) (d : Operand) (s : Operand)
  | div (sz : Size) (d : Operand) (s : Operand)
  | cmp (sz : Size) (d : Operand) (s : Operand)
  | lea (sz : Size) (d : Operand) (s : Operand)
  | push (sz : Size) (d : Operand)
  | pop (sz : Size) (d : Operand)
  | beq (sz : Size) (d : Operand)
  | bne (sz : Size) (d : Operand)
  | bcs (sz : Size) (d : Operand)
  | bcc (sz : Size) (d : Operand)
  | bvs (sz : Size) (d : Operand)
  | bvc (sz : Size) (d : Operand)
  /-- An extension instruction: its opcode byte and the handle of the extension's decoded instruction
  (43_system_ext R343). -/
  | ext (op : Byte) (handle : Nat)
deriving DecidableEq, Repr, Inhabited

/-- An instruction seen through its format: class, size field and operands. -/
inductive Parts where
  | z (c : ZClass) (sz : Size)
  | u (c : UClass) (sz : Size) (d : Operand)
  | b (c : BClass) (sz : Size) (d : Operand) (s : Operand)
  | x (op : Byte) (handle : Nat)
deriving DecidableEq, Repr, Inhabited

/-- The format view of each instruction (30_encoding R131). -/
def Instr.parts : Instr → Parts
  | .brk sz => .z .brk sz
  | .nop sz => .z .nop sz
  | .ret sz => .z .ret sz
  | .rti sz => .z .rti sz
  | .sys sz d => .u .sys sz d
  | .call sz d => .u .call sz d
  | .lsr sz d s => .b .lsr sz d s
  | .lsl sz d s => .b .lsl sz d s
  | .asr sz d s => .b .asr sz d s
  | .asl sz d s => .b .asl sz d s
  | .mov sz d s => .b .mov sz d s
  | .add sz d s => .b .add sz d s
  | .sub sz d s => .b .sub sz d s
  | .mul sz d s => .b .mul sz d s
  | .div sz d s => .b .div sz d s
  | .cmp sz d s => .b .cmp sz d s
  | .lea sz d s => .b .lea sz d s
  | .push sz d => .u .push sz d
  | .pop sz d => .u .pop sz d
  | .beq sz d => .u .beq sz d
  | .bne sz d => .u .bne sz d
  | .bcs sz d => .u .bcs sz d
  | .bcc sz d => .u .bcc sz d
  | .bvs sz d => .u .bvs sz d
  | .bvc sz d => .u .bvc sz d
  | .ext op handle => .x op handle

/-- The instruction of a format view; the inverse of `Instr.parts`. -/
def Parts.instr : Parts → Instr
  | .z .brk sz => .brk sz
  | .z .nop sz => .nop sz
  | .z .ret sz => .ret sz
  | .z .rti sz => .rti sz
  | .u .sys sz d => .sys sz d
  | .u .call sz d => .call sz d
  | .u .push sz d => .push sz d
  | .u .pop sz d => .pop sz d
  | .u .beq sz d => .beq sz d
  | .u .bne sz d => .bne sz d
  | .u .bcs sz d => .bcs sz d
  | .u .bcc sz d => .bcc sz d
  | .u .bvs sz d => .bvs sz d
  | .u .bvc sz d => .bvc sz d
  | .b .lsr sz d s => .lsr sz d s
  | .b .lsl sz d s => .lsl sz d s
  | .b .asr sz d s => .asr sz d s
  | .b .asl sz d s => .asl sz d s
  | .b .mov sz d s => .mov sz d s
  | .b .add sz d s => .add sz d s
  | .b .sub sz d s => .sub sz d s
  | .b .mul sz d s => .mul sz d s
  | .b .div sz d s => .div sz d s
  | .b .cmp sz d s => .cmp sz d s
  | .b .lea sz d s => .lea sz d s
  | .x op handle => .ext op handle

/-- An operand descriptor before its payload is read: the mode with its register field (30_encoding R124). -/
inductive Descriptor where
  | imm (nib : RegIdx)
  | abs (nib : RegIdx)
  | reg (r : RegIdx)
  | creg (n : CellIdx)
  | ind (r : RegIdx)
  | rel (base : CellIdx)
deriving DecidableEq, Repr, Inhabited

/-- The descriptor of an operand. -/
def Operand.desc : Operand → Descriptor
  | .imm nib _ => .imm nib
  | .abs nib _ => .abs nib
  | .reg r => .reg r
  | .creg n => .creg n
  | .ind r => .ind r
  | .rel base _ _ => .rel base

end Sys2Proof
end

