-- ==== Sys2Proof/Config.lean ====
section
/-!
DEFINITION. What an implementation and its host fix: the parameters of 00_scope R9, the exception ids
(60_exceptions R410), and the host's registries SYSCALLS and EXTENSIONS (10_state R57) with the effects a syscall
callback (43_system_ext R331) and an extension executor (R345) may have. A registry entry is plain data. A host
transition that is not written out is an opaque constant of `Config`, so nothing about it can be proved but the
contract's limits.
-/
namespace Sys2Proof

/-- The parameters `MEM_SIZE`, `VT_BASE`, `NUM_IRQ` and `EXT_RANGE` (00_scope R9). They stand in State, so
statements hold for every value (notes/assumptions/1.md). -/
structure Params where
  memSize : Nat
  vtBase : Word
  numIrq : Nat
  extRange : List Byte
deriving DecidableEq, Repr, Inhabited

/-- The reference values of 00_scope R9. -/
def Params.reference : Params where
  memSize := 0x10000
  vtBase := 0
  numIrq := 8
  extRange := [0xF0, 0xF1, 0xF2, 0xF3, 0xF4, 0xF5, 0xF6, 0xF7, 0xF8, 0xF9, 0xFA, 0xFB, 0xFC, 0xFD, 0xFE, 0xFF]

/-- The four synchronous exceptions (60_exceptions R410). -/
inductive ExcId where
  | invalidInstruction
  | memoryOutOfBounds
  | divisionByZero
  | unknownSyscall
deriving DecidableEq, Repr, Inhabited

/-- What a syscall callback reads: every register, IP, the flags and memory (43_system_ext R331). That it sees MEM_SIZE,
which bounds that memory, is the model's (DESIGN CHOICE, safe: notes/assumptions/7.md). -/
structure CoreView where
  regs : Regs
  ip : Word
  flags : Flags
  mem : Memory
  memSize : Nat
deriving DecidableEq, Repr, Inhabited

/-- What an extension executor is called with beside its handle: the register file and memory (43_system_ext R345).
It reads no flag: the readers of 10_state R42 do not list it. That it sees MEM_SIZE, which bounds that memory, is the
model's (DESIGN CHOICE, safe: notes/assumptions/9.md). -/
structure ExecutorView where
  regs : Regs
  mem : Memory
  memSize : Nat
deriving DecidableEq, Repr, Inhabited

/-- One write that a callback or an executor may make: D, A, CR, any of the flags C V Z N X (none keeps a flag), or
memory through the memory port (43_system_ext R331, R345). There is no write of IP, H, the ISR state or the pending
exception. -/
inductive CoreWrite where
  | setReg (r : RegIdx) (value : Word)
  | setCr (n : CellIdx) (value : Word)
  | setFlags (c v z n x : Option Bool)
  | store (addr : Word) (sz : Size) (value : Word)
deriving DecidableEq, Repr, Inhabited

/-- Operations of the interrupt and exception control port (60_exceptions R420 to R422), with the ids as the
host gives them. -/
inductive PortOp where
  | raiseInterrupt (line : Nat)
  | enableInterrupt (line : Nat)
  | enableException (id : Nat)
deriving DecidableEq, Repr, Inhabited

/-- What a syscall callback may do (43_system_ext R331). -/
inductive CallbackAction where
  | write (w : CoreWrite)
  | port (p : PortOp)
deriving DecidableEq, Repr, Inhabited

/-- A registered callback: a written-out list of actions, or host transition number `k`. -/
inductive Callback where
  | script (acts : List CallbackAction)
  | host (k : Nat)
deriving DecidableEq, Repr, Inhabited

/-- What an extension executor returns: `ok` with its writes, or `fault(e)` (43_system_ext R345). -/
inductive ExtOutcome where
  | ok (writes : List CoreWrite)
  | fault (e : ExcId)
deriving DecidableEq, Repr, Inhabited

/-- A registered executor: a written-out outcome, or host transition number `k`. -/
inductive ExtExecutor where
  | script (o : ExtOutcome)
  | host (k : Nat)
deriving DecidableEq, Repr, Inhabited

/-- An extension decoder as a finite decision tree (43_system_ext R344): at each node it fetches the byte at
`start + off` and goes on by whether it equals `key`; a leaf reports finished or failed. Its bytes-consumed count is the
highest offset it fetched plus 1, plus `skip`, so that `n >= 1` and it reads only bytes `start .. start+n-1`.
Every terminating total decoder of bytes is such a tree (DESIGN CHOICE, notes/assumptions/8.md). -/
inductive ExtDecoder where
  | done (skip : Nat) (handle : Nat)
  | failed (skip : Nat)
  | fetch (off : Nat) (key : Byte) (same other : ExtDecoder)
deriving DecidableEq, Repr, Inhabited

/-- A decoder instance in progress (10_state R56): the rest of the tree, and the bytes reached so far. -/
structure ExtInstance where
  rest : ExtDecoder
  reached : Nat
deriving DecidableEq, Repr, Inhabited

/-- An entry of SYSCALLS (43_system_ext R332). -/
structure SyscallEntry where
  id : Word
  name : String
  callback : Callback
deriving DecidableEq, Repr, Inhabited

/-- An entry of EXTENSIONS: the opcode byte and the triple of decoder, definition and executor
(43_system_ext R340). -/
structure ExtEntry where
  opcode : Byte
  decoder : ExtDecoder
  definition : String
  executor : ExtExecutor
deriving DecidableEq, Repr, Inhabited

/-- Host transition `k` of a syscall callback: what it does, from the number of host transitions invoked so far and
what it sees (43_system_ext R331). No body: nothing can be proved of it (DESIGN CHOICE, safe:
notes/assumptions/7.md). -/
opaque Config.callback : Nat → Nat → CoreView → List CallbackAction

/-- Host transition `k` of an extension executor, from the number of host transitions invoked so far, the decoded
handle and what else it is called with (43_system_ext R345). No body (DESIGN CHOICE, safe: notes/assumptions/9.md). -/
opaque Config.executor : Nat → Nat → Nat → ExecutorView → ExtOutcome

end Sys2Proof
end

