-- ==== Sys2Proof/Decode.lean ====
section
/-!
DEFINITION. The decoder and, after it, the encoder, from the encoding tables of 30_encoding.md: opcode map R131,
operand roles R133, byte 1 R122, descriptor bytes R124, payloads R127 to R129, the decode algorithm R150 and R151, the
decoder state machine R160 to R165. Decoding is total on any bytes and rejects by name with the number of bytes
consumed, the failing one included.
-/
namespace Sys2Proof

/-! ### Big-endian byte strings (20_memory R81, 30_encoding R140, R141) -/

/-- The low `8n` bits of `v` as `n` bytes, most significant first. -/
def toBE : Nat → Nat → List Byte
  | 0, _ => []
  | n + 1, v => BitVec.ofNat 8 (v / 256 ^ n) :: toBE n v

/-- The number that a list of bytes spells, most significant first. -/
def fromBE : List Byte → Nat
  | [] => 0
  | b :: bs => b.toNat * 256 ^ bs.length + fromBE bs

/-! ### Opcode map, roles and descriptor tables -/

/-- Byte 0 of each class: the reference OPCODE_MAP (30_encoding R131; notes/assumptions/2.md). -/
def opcodeByte : OpClass → Byte
  | .z .brk => 0x00
  | .z .nop => 0x01
  | .z .ret => 0x02
  | .z .rti => 0x03
  | .u .sys => 0x04
  | .u .call => 0x08
  | .b .lsr => 0x10
  | .b .lsl => 0x11
  | .b .asr => 0x12
  | .b .asl => 0x13
  | .b .mov => 0x20
  | .b .add => 0x21
  | .b .sub => 0x22
  | .b .mul => 0x23
  | .b .div => 0x24
  | .b .cmp => 0x25
  | .b .lea => 0x26
  | .u .push => 0x30
  | .u .pop => 0x31
  | .u .beq => 0x40
  | .u .bne => 0x41
  | .u .bcs => 0x42
  | .u .bcc => 0x43
  | .u .bvs => 0x44
  | .u .bvc => 0x45

/-- Every class of 30_encoding R131. -/
def opClasses : List OpClass :=
  [.z .brk, .z .nop, .z .ret, .z .rti, .u .sys, .u .call, .b .lsr, .b .lsl, .b .asr, .b .asl, .b .mov, .b .add,
   .b .sub, .b .mul, .b .div, .b .cmp, .b .lea, .u .push, .u .pop, .u .beq, .u .bne, .u .bcs, .u .bcc, .u .bvs,
   .u .bvc]

/-- The class of an opcode byte, if it is one (30_encoding R131). -/
def opClassOf (op : Byte) : Option OpClass := opClasses.find? (fun c => opcodeByte c == op)

/-- Role of the one operand of a format U class (30_encoding R131). -/
def unaryRole : UClass → Role
  | .sys => .read
  | .call => .offset
  | .push => .read
  | .pop => .write
  | .beq | .bne | .bcs | .bcc | .bvs | .bvc => .offset8

/-- Role of the destination (byte 2) of a format B class (30_encoding R131). -/
def dstRole : BClass → Role
  | .lsr | .lsl | .asr | .asl | .add | .sub | .mul | .div => .readWrite
  | .mov => .write
  | .cmp => .read
  | .lea => .addrReg

/-- Role of the source (byte 3) of a format B class (30_encoding R131). -/
def srcRole : BClass → Role
  | .lsr | .lsl | .asr | .asl => .count
  | .mov | .add | .sub | .mul | .div | .cmp => .read
  | .lea => .effAddr

/-- The modes each role admits (30_encoding R133); a control register counts as Register mode, and which class may
name one at all is R123. LEA's destination must be an address register. -/
def roleAdmits : Role → Descriptor → Bool
  | .read, _ => true
  | .write, .imm _ => false
  | .write, _ => true
  | .readWrite, .imm _ => false
  | .readWrite, _ => true
  | .count, .imm _ => true
  | .count, .reg _ => true
  | .count, .creg _ => true
  | .count, _ => false
  | .offset, .imm _ => true
  | .offset, _ => false
  | .offset8, .imm _ => true
  | .offset8, _ => false
  | .addrReg, .reg r => decide (8 ≤ r.toNat)
  | .addrReg, _ => false
  | .effAddr, .reg _ => false
  | .effAddr, .creg _ => false
  | .effAddr, _ => true

/-- Payload bytes of a descriptor at a size (30_encoding R128). -/
def payloadLength (sz : Size) : Descriptor → Nat
  | .imm _ => sz.bytes
  | .abs _ => 8
  | .reg _ => 0
  | .creg _ => 0
  | .ind _ => 0
  | .rel _ => 1

/-- Size code of byte 1 bits 1:0 (30_encoding R126). -/
def sizeCode : Size → BitVec 2
  | .byte => 0
  | .word => 1
  | .dword => 2
  | .long => 3

/-- The size a code names (30_encoding R126). -/
def sizeOf2 (code : BitVec 2) : Size :=
  match code.toNat with
  | 0 => .byte
  | 1 => .word
  | 2 => .dword
  | _ => .long

/-- Cell number `r - 8` of an index that names an address or control register (10_state R31, R37). -/
def upperCell (r : RegIdx) : CellIdx := r.setWidth 3

/-- The register index `8 + n` of cell `n` of the address registers (10_state R31). -/
def upperIndex (n : CellIdx) : RegIdx := 1#1 ++ n

/-- The descriptor a descriptor byte spells, `cr` being the control-register flag of its operand: mode codes R125,
R151 steps 1, 2 and 4. None where those refuse it. -/
def descriptorOf (b : Byte) (cr : Bool) : Option Descriptor :=
  let r : RegIdx := b.extractLsb' 4 4
  let mode : BitVec 4 := b.extractLsb' 0 4
  if cr then
    if mode = 3 ∧ 8 ≤ r.toNat then some (.creg (upperCell r)) else none
  else
    match mode.toNat with
    | 1 => some (.imm r)
    | 2 => some (.abs r)
    | 3 => some (.reg r)
    | 4 => some (.ind r)
    | 5 => if 8 ≤ r.toNat then some (.rel (upperCell r)) else none
    | _ => none

/-- `check(desc, role, crflag)` of 30_encoding R151. -/
def checkDescriptor (b : Byte) (role : Role) (cr : Bool) : Option Descriptor :=
  match descriptorOf b cr with
  | some d => if roleAdmits role d then some d else none
  | none => none

/-! ### The decoder -/

/-- Reasons a decode fails (30_encoding R135). -/
inductive DecodeReason where
  | unknownOpcode
  | unknownExtension
  | reservedBits
  | invalidAddressing
  | extensionDecodeFailed
  | memoryOutOfBounds
deriving DecidableEq, Repr, Inhabited

/-- A failed decode: its reason and `k`, the bytes consumed with the failing one (30_encoding R150). -/
structure DecodeError where
  reason : DecodeReason
  consumed : Nat
deriving DecidableEq, Repr, Inhabited

/-- A finished decode: the instruction, its length, and the extension instance that decoded it, if one did
(30_encoding R150, R163). -/
structure Decoded where
  instr : Instr
  length : Nat
  inst : Option ExtInstance
deriving DecidableEq, Repr, Inhabited

/-- `Fetch8(start + k)` as a function of `k`; none outside memory (00_scope R19, 20_memory R84). -/
abbrev Fetch := Nat → Option Byte

/-- `next()` of 30_encoding R150 at position `k`: a fetch that faults still counts its byte. -/
def fetchNext (f : Fetch) (k : Nat) : Except DecodeError Byte :=
  match f k with
  | some b => .ok b
  | none => .error ⟨.memoryOutOfBounds, k + 1⟩

/-- `n` calls of `next()` from position `k`. -/
def fetchMany (f : Fetch) : Nat → Nat → Except DecodeError (List Byte)
  | _, 0 => .ok []
  | k, n + 1 => do
    let b ← fetchNext f k
    let bs ← fetchMany f (k + 1) n
    pure (b :: bs)

/-- `payload(desc)` of 30_encoding R150, from position `k`. -/
def decodePayload (f : Fetch) (sz : Size) (d : Descriptor) (k : Nat) : Except DecodeError Operand :=
  match d with
  | .imm nib => do
    let bs ← fetchMany f k sz.bytes
    pure (.imm nib (BitVec.ofNat 64 (fromBE bs)))
  | .abs nib => do
    let bs ← fetchMany f k 8
    pure (.abs nib (BitVec.ofNat 64 (fromBE bs)))
  | .reg r => pure (.reg r)
  | .creg n => pure (.creg n)
  | .ind r => pure (.ind r)
  | .rel base => do
    let xb ← fetchNext f k
    if xb.getLsbD 3 then .error ⟨.invalidAddressing, k + 1⟩
    else pure (.rel base (xb.extractLsb' 4 4) (xb.extractLsb' 0 3))

/-- `next()` at position `k` and `check` of the descriptor byte it reads (30_encoding R150, R151). -/
def decodeDescriptor (f : Fetch) (k : Nat) (role : Role) (cr : Bool) : Except DecodeError Descriptor := do
  let b ← fetchNext f k
  match checkDescriptor b role cr with
  | some d => pure d
  | none => .error ⟨.invalidAddressing, k + 1⟩

/-- Format Z: nothing after byte 1; the size is read and ignored (30_encoding R121, R134). -/
def decodeZ (c : ZClass) (sz : Size) : Except DecodeError Decoded :=
  pure ⟨(Parts.z c sz).instr, 2, none⟩

/-- Format U after byte 1: the descriptor byte and its payload; an OFF8 operand demands size code 0
(30_encoding R121, R133, R150). -/
def decodeU (f : Fetch) (c : UClass) (sz : Size) : Except DecodeError Decoded :=
  if unaryRole c = .offset8 ∧ sz ≠ .byte then .error ⟨.invalidAddressing, 2⟩
  else do
    let dd ← decodeDescriptor f 2 (unaryRole c) false
    let d ← decodePayload f sz dd 3
    pure ⟨(Parts.u c sz d).instr, 3 + payloadLength sz dd, none⟩

/-- Format B after byte 1: both descriptor bytes, then the destination's payload, then the source's
(30_encoding R121, R127, R150). -/
def decodeB (f : Fetch) (c : BClass) (sz : Size) (dcr scr : Bool) : Except DecodeError Decoded := do
  let dd ← decodeDescriptor f 2 (dstRole c) dcr
  let sd ← decodeDescriptor f 3 (srcRole c) scr
  let d ← decodePayload f sz dd 4
  let s ← decodePayload f sz sd (4 + payloadLength sz dd)
  pure ⟨(Parts.b c sz d s).instr, 4 + payloadLength sz dd + payloadLength sz sd, none⟩

/-- The decode of a base instruction of class `c`, from byte 1 on (30_encoding R122, R123, R150). -/
def decodeBase (f : Fetch) (c : OpClass) : Except DecodeError Decoded := do
  let b1 ← fetchNext f 1
  let dcr := b1.getLsbD 7
  let scr := b1.getLsbD 6
  let sz := sizeOf2 (b1.extractLsb' 0 2)
  if b1.extractLsb' 2 4 ≠ 0 then .error ⟨.reservedBits, 2⟩
  else if (dcr || scr) = true ∧ c ≠ .b .mov then .error ⟨.invalidAddressing, 2⟩
  else
    match c with
    | .z c => decodeZ c sz
    | .u c => decodeU f c sz
    | .b c => decodeB f c sz dcr scr

/-- The extension decoder run to its end: fetch, compare, go on; `reached` is the highest offset fetched plus 1
(30_encoding R163, R165). A fetch outside memory ends with that offset plus 1 consumed. Bytes that a leaf counts and
nothing fetched are not checked against memory (DESIGN CHOICE, unsafe: notes/assumptions/24.md). -/
def runExt (f : Fetch) (op : Byte) : ExtDecoder → Nat → Except DecodeError Decoded
  | .done skip handle, reached => .ok ⟨.ext op handle, reached + skip, some ⟨.done skip handle, reached⟩⟩
  | .failed skip, reached => .error ⟨.extensionDecodeFailed, reached + skip⟩
  | .fetch off key same other, reached =>
    match f off with
    | none => .error ⟨.memoryOutOfBounds, off + 1⟩
    | some b =>
      if b = key then runExt f op same (max reached (off + 1)) else runExt f op other (max reached (off + 1))

/-- The registry entry of an opcode byte, if any (43_system_ext R340, R342). -/
def findExtension (exts : List ExtEntry) (op : Byte) : Option ExtEntry := exts.find? (fun e => e.opcode == op)

/-- The whole decode of one instruction (30_encoding R150): byte 0 in EXT_RANGE goes to the registered extension,
any other byte to its class. -/
def decode (extRange : List Byte) (exts : List ExtEntry) (f : Fetch) : Except DecodeError Decoded := do
  let op ← fetchNext f 0
  if extRange.contains op then
    match findExtension exts op with
    | none => .error ⟨.unknownExtension, 1⟩
    | some e => runExt f op e.decoder 1
  else
    match opClassOf op with
    | none => .error ⟨.unknownOpcode, 1⟩
    | some c => decodeBase f c

/-! ### The decoder state machine, tick by tick -/

/-- The decoder's states (30_encoding R160), with what each holds. -/
inductive DecoderState where
  | idle
  | extension (op : Byte) (inst : ExtInstance)
  | finished (d : Decoded)
deriving DecidableEq, Repr, Inhabited

/-- One tick of a running extension instance (30_encoding R163). -/
def tickExtension (f : Fetch) (op : Byte) (i : ExtInstance) : Except DecodeError DecoderState :=
  match i.rest with
  | .done skip handle => .ok (.finished ⟨.ext op handle, i.reached + skip, some i⟩)
  | .failed skip => .error ⟨.extensionDecodeFailed, i.reached + skip⟩
  | .fetch off key same other =>
    match f off with
    | none => .error ⟨.memoryOutOfBounds, off + 1⟩
    | some b => .ok (.extension op ⟨if b = key then same else other, max i.reached (off + 1)⟩)

/-- One tick of the decoder (30_encoding R161 to R163). -/
def tickDecoder (extRange : List Byte) (exts : List ExtEntry) (f : Fetch) :
    DecoderState → Except DecodeError DecoderState
  | .idle => do
    let op ← fetchNext f 0
    if extRange.contains op then
      match findExtension exts op with
      | none => .error ⟨.unknownExtension, 1⟩
      | some e => .ok (.extension op ⟨e.decoder, 1⟩)
    else
      match opClassOf op with
      | none => .error ⟨.unknownOpcode, 1⟩
      | some c => do
        let d ← decodeBase f c
        pure (.finished d)
  | .extension op i => tickExtension f op i
  | .finished d => .ok (.finished d)

/-- `n` ticks, stopping at a failure (30_encoding R164). -/
def tickMany (extRange : List Byte) (exts : List ExtEntry) (f : Fetch) :
    Nat → DecoderState → Except DecodeError DecoderState
  | 0, st => .ok st
  | n + 1, st => do
    let st' ← tickDecoder extRange exts f st
    tickMany extRange exts f n st'

/-! ### The encoder -/

/-- Byte 1 (30_encoding R122). -/
def sizeFlagsByte (sz : Size) (dcr scr : Bool) : Byte :=
  BitVec.ofBool dcr ++ BitVec.ofBool scr ++ 0#4 ++ sizeCode sz

/-- Whether a descriptor names a control register (30_encoding R123). -/
def isControl : Descriptor → Bool
  | .creg _ => true
  | _ => false

/-- Descriptor byte: register nibble high, mode nibble low (30_encoding R124, R125). -/
def descriptorByte : Descriptor → Byte
  | .imm nib => nib ++ 1#4
  | .abs nib => nib ++ 2#4
  | .reg r => r ++ 3#4
  | .creg n => upperIndex n ++ 3#4
  | .ind r => r ++ 4#4
  | .rel base => upperIndex base ++ 5#4

/-- The index and shift byte of RegisterRelative (30_encoding R129). -/
def indexShiftByte (idx : RegIdx) (sh : BitVec 3) : Byte := idx ++ 0#1 ++ sh

/-- Payload of an operand (30_encoding R128). -/
def payloadBytes (sz : Size) : Operand → List Byte
  | .imm _ v => toBE sz.bytes v.toNat
  | .abs _ a => toBE 8 a.toNat
  | .reg _ => []
  | .creg _ => []
  | .ind _ => []
  | .rel _ idx sh => [indexShiftByte idx sh]

/-- The bytes of an instruction (30_encoding R121, R127). Of an extension instruction only byte 0 is the base
ISA's; the rest is the extension's own (R165; notes/assumptions/17.md). -/
def encode (i : Instr) : List Byte :=
  match i.parts with
  | .z c sz => [opcodeByte (.z c), sizeFlagsByte sz false false]
  | .u c sz d => opcodeByte (.u c) :: sizeFlagsByte sz false false :: descriptorByte d.desc :: payloadBytes sz d
  | .b c sz d s =>
    opcodeByte (.b c) :: sizeFlagsByte sz (isControl d.desc) (isControl s.desc) :: descriptorByte d.desc ::
      descriptorByte s.desc :: (payloadBytes sz d ++ payloadBytes sz s)
  | .x op _ => [op]

/-! ### Words numbered as spec/opcode_table.json numbers them -/

/-- The longest base instruction (30_encoding R130). -/
def maxLength : Nat := 20

/-- The bytes of an instruction whose bits are `w`, bit 0 the least significant of byte 0, every bit from `nbits`
on being 0, up to the longest instruction. -/
def tableBytes (nbits w : Nat) : List Byte :=
  (List.range maxLength).map (fun k => BitVec.ofNat 8 ((w % 2 ^ nbits) / 256 ^ k))

/-- A one-byte extension with no effect, registered for an opcode byte that has no entry, so that a bare extension
byte can be decoded and run (notes/assumptions/5.md). -/
def bareExtension (op : Byte) : ExtEntry := ⟨op, .done 0 0, "bare", .script (.ok [])⟩

/-- The registry with an entry for `op` if `op` is in EXT_RANGE and has none. -/
def withBareExtension (extRange : List Byte) (exts : List ExtEntry) (op : Byte) : List ExtEntry :=
  if extRange.contains op ∧ findExtension exts op = none then bareExtension op :: exts else exts

/-- The instruction the decoder reads from the bits `w`, at the reference parameters. -/
def decodeTableWord (nbits w : Nat) : Option Instr :=
  let bs := tableBytes nbits w
  let exts := withBareExtension Params.reference.extRange [] (BitVec.ofNat 8 (w % 2 ^ nbits))
  match decode Params.reference.extRange exts (fun k => bs[k]?) with
  | .ok d => some d.instr
  | .error _ => none

end Sys2Proof
end

