-- ==== Sys2Proof/WellFormed.lean ====
section
/-!
DEFINITION. Well-formed instructions: the checks of 30_encoding R133, R134 and R135 on the syntax. The tables of roles
are those of Decode.lean.
-/
namespace Sys2Proof

/-- An Immediate value fits the operand size: `imm < 2^w(s)` (20_memory R92). -/
def Operand.fits (sz : Size) : Operand → Bool
  | .imm _ v => decide (v.toNat < 2 ^ sz.width)
  | _ => true

/-- An operand of a given role in a class that may (`cr`) or may not name control registers
(30_encoding R123, R133). -/
def Operand.wf (sz : Size) (role : Role) (cr : Bool) (o : Operand) : Bool :=
  roleAdmits role o.desc && o.fits sz && (cr || !isControl o.desc)

/-- Well-formedness through the format view. An OFF8 operand demands size Byte (R133). An extension instruction is
the extension's own (43_system_ext R343). -/
def Parts.wf : Parts → Bool
  | .z _ _ => true
  | .u c sz d => d.wf sz (unaryRole c) false && (unaryRole c != .offset8 || sz == .byte)
  | .b c sz d s => d.wf sz (dstRole c) (c == .mov) && s.wf sz (srcRole c) (c == .mov)
  | .x _ _ => true

/-- The check on instructions. -/
def Instr.wf (i : Instr) : Bool := i.parts.wf

/-- An instruction of the base set, not of an extension. -/
def Instr.isBase : Instr → Bool
  | .ext _ _ => false
  | _ => true

end Sys2Proof
end

