-- ==== Sys2Proof/Machine/State.lean ====
section
/-!
DEFINITION. The machine's state as plain data: every piece of 10_state R62, the parameters of 00_scope R9 and the step
result of R61; the reasons a step can stop; the state after reset (70_reset_and_hazards R480). What each field is, and its
reset value, is listed in INVENTORY.md.
-/
namespace Sys2Proof.Machine

/-- ISR state (10_state R50). -/
inductive Isr where
  | idle
  | executing
deriving DecidableEq, Repr, Inhabited

/-- Decoder state (10_state R55). -/
inductive DState where
  | idle
  | extension
  | finished
deriving DecidableEq, Repr, Inhabited

/-- Fault reasons of a failing step (60_exceptions R411). -/
inductive Reason where
  | unknownOpcode
  | unknownExtension
  | reservedBits
  | invalidAddressing
  | extensionDecodeFailed
  | memoryOutOfBounds
  | divisionByZero
  | unknownSyscall
  | extensionFault (e : ExcId)
  | trapEntryFault
deriving DecidableEq, Repr, Inhabited

/-- What `Step` returns (10_state R61, 00_scope R11). -/
inductive StepResult where
  | ok
  | fail (r : Reason)
deriving DecidableEq, Repr, Inhabited

/-- Exception enable bits, one per exception id (10_state R53). -/
structure ExcMask where
  invalidInstruction : Bool
  memoryOutOfBounds : Bool
  divisionByZero : Bool
  unknownSyscall : Bool
deriving DecidableEq, Repr, Inhabited

/-- The decoded-instruction record (10_state R60): the instruction stands for class, size, descriptors and, for an
extension instruction, the extension's handle; the snapshot is of the registers before execution. -/
structure DecodedRecord where
  instr : Instr
  startIp : Word
  endIp : Word
  regs : Regs
  flags : Flags
  isr : Isr
deriving DecidableEq, Repr, Inhabited

/-- The whole state of the core, its memory and its configuration. -/
structure State where
  /-- D0 to D7, A0 to A7, CR0 to CR7 (10_state R32, R33, R37). -/
  regs : Regs
  /-- The instruction pointer (R38). -/
  ip : Word
  /-- C, V, Z, N, X, H (R40). -/
  flags : Flags
  /-- ISR state (R50). -/
  isr : Isr
  /-- Pending bit of each interrupt line, line 0 first (R51). -/
  irqPending : List Bool
  /-- Enable bit of each interrupt line, line 0 first (R52). -/
  irqEnabled : List Bool
  /-- Exception enable bits (R53). -/
  excEnabled : ExcMask
  /-- The pending exception (R54). -/
  excPending : Option ExcId
  /-- Decoder state (R55). -/
  dstate : DState
  /-- Extension decoder instance (R56). -/
  extInstance : Option ExtInstance
  /-- The decoded-instruction record (R60). -/
  record : Option DecodedRecord
  /-- The result of the last step (R61). -/
  result : StepResult
  /-- Memory contents (20_memory R80). -/
  mem : Memory
  /-- MEM_SIZE, VT_BASE, NUM_IRQ, EXT_RANGE (00_scope R9). -/
  cfg : Params
  /-- SYSCALLS (R57). -/
  syscalls : List SyscallEntry
  /-- EXTENSIONS (R57). -/
  extensions : List ExtEntry
  /-- The model's own: how many host transitions have been invoked (notes/assumptions/7.md). -/
  hostCalls : Nat
deriving DecidableEq, Repr, Inhabited

/-- Reasons the model stops where the spec gives no effect. -/
inductive Fault where
  /-- Raised by a meaning handed an operand that decode refuses, where the spec says "unreachable: refused at decode"
  (20_memory R100). No step raises it, since decode gives well-formed instructions only. Safe. -/
  | illFormedOperand
deriving DecidableEq, Repr, Inhabited

/-- Reasons a meaning refuses. -/
inductive Refusal where
  /-- Raised by an arm of `exec` whose instruction has no meaning yet; no arm raises it now. Safe. -/
  | notModelled (mnemonic : String)
deriving DecidableEq, Repr, Inhabited

/-! ### Reset -/

/-- Eight cells of 0. -/
def zeroBank : Bank := ⟨0, 0, 0, 0, 0, 0, 0, 0⟩

/-- `Reset()` of 70_reset_and_hazards R480, as a transaction on any state: memory, the parameters and the
registries stay. The step result has no reset value in the spec: `ok` (DESIGN CHOICE, unsafe: notes/assumptions/6.md). -/
def State.afterReset (s : State) : State where
  regs := ⟨zeroBank, zeroBank, zeroBank⟩
  ip := 0
  flags := ⟨false, false, false, false, false, false⟩
  isr := .idle
  irqPending := List.replicate s.cfg.numIrq false
  irqEnabled := List.replicate s.cfg.numIrq false
  excEnabled := ⟨false, false, false, false⟩
  excPending := none
  dstate := .idle
  extInstance := none
  record := none
  result := .ok
  mem := s.mem
  cfg := s.cfg
  syscalls := s.syscalls
  extensions := s.extensions
  hostCalls := s.hostCalls

/-- The newly constructed core of 70_reset_and_hazards R482, at the reference parameters: the state `Reset` gives,
empty registries, and no memory until `InitMemory`. -/
def State.powerUp : State where
  regs := ⟨zeroBank, zeroBank, zeroBank⟩
  ip := 0
  flags := ⟨false, false, false, false, false, false⟩
  isr := .idle
  irqPending := List.replicate Params.reference.numIrq false
  irqEnabled := List.replicate Params.reference.numIrq false
  excEnabled := ⟨false, false, false, false⟩
  excPending := none
  dstate := .idle
  extInstance := none
  record := none
  result := .ok
  mem := []
  cfg := { Params.reference with memSize := 0 }
  syscalls := []
  extensions := []
  hostCalls := 0

/-- The machine right after reset: the power-up core given the reference memory of 0x10000 bytes, all zero, and
then `Reset` (notes/assumptions/4.md). -/
def State.reset : State := ({ State.powerUp with cfg := Params.reference }).afterReset

/-! ### Named updates -/

/-- Replace the register files. -/
def State.withRegs (s : State) (r : Regs) : State := { s with regs := r }

/-- Replace IP; the redirect multiplexer's one write (60_exceptions R403). -/
def State.withIp (s : State) (v : Word) : State := { s with ip := v }

/-- Replace the flags. -/
def State.withFlags (s : State) (f : Flags) : State := { s with flags := f }

/-- Replace the memory contents. -/
def State.withMem (s : State) (m : Memory) : State := { s with mem := m }

/-- Replace the ISR state. -/
def State.withIsr (s : State) (i : Isr) : State := { s with isr := i }

/-- Replace the pending exception. -/
def State.withExcPending (s : State) (e : Option ExcId) : State := { s with excPending := e }

/-- Replace the exception enables. -/
def State.withExcEnabled (s : State) (m : ExcMask) : State := { s with excEnabled := m }

/-- Replace the interrupt pending bits. -/
def State.withIrqPending (s : State) (l : List Bool) : State := { s with irqPending := l }

/-- Replace the interrupt enable bits. -/
def State.withIrqEnabled (s : State) (l : List Bool) : State := { s with irqEnabled := l }

/-- Replace the step result. -/
def State.withResult (s : State) (r : StepResult) : State := { s with result := r }

/-- Replace the decoder state and its extension instance. -/
def State.withDecoder (s : State) (d : DState) (i : Option ExtInstance) : State :=
  { s with dstate := d, extInstance := i }

/-- Replace the decoded-instruction record. -/
def State.withRecord (s : State) (r : Option DecodedRecord) : State := { s with record := r }

/-- Count one more host transition. -/
def State.countHostCall (s : State) : State := { s with hostCalls := s.hostCalls + 1 }

end Sys2Proof.Machine
end

