-- ==== Sys2Proof/Machine/Ops.lean ====
section
/-!
DEFINITION. The named operations over registers, memory, stack and controller that the meanings share: the register
file arbiter (10_state R31 to R37), memory access (20_memory R81 to R84), the stack (41_stack_call_lea R240), the status word
(10_state R43), fault routing (60_exceptions R413), trap entry (R430) and the return from it (43_system_ext R335), the step
boundary (R400 to R402, R426), the interrupt port (R420 to R423) and host transitions (43_system_ext R331, R345).
-/
namespace Sys2Proof.Machine

/-! ### The register file arbiter -/

/-- Read cell `i` of a register file. -/
def bankGet (b : Bank) (i : CellIdx) : Word :=
  match i.toNat with
  | 0 => b.r0
  | 1 => b.r1
  | 2 => b.r2
  | 3 => b.r3
  | 4 => b.r4
  | 5 => b.r5
  | 6 => b.r6
  | _ => b.r7

/-- Write cell `i` of a register file. -/
def bankSet (b : Bank) (i : CellIdx) (v : Word) : Bank :=
  match i.toNat with
  | 0 => { b with r0 := v }
  | 1 => { b with r1 := v }
  | 2 => { b with r2 := v }
  | 3 => { b with r3 := v }
  | 4 => { b with r4 := v }
  | 5 => { b with r5 := v }
  | 6 => { b with r6 := v }
  | _ => { b with r7 := v }

/-- `R[r]`, all 64 bits: D0 to D7 for 0 to 7, A0 to A7 for 8 to 15 (10_state R31). -/
def getReg (s : State) (r : RegIdx) : Word :=
  if r.toNat < 8 then bankGet s.regs.d (upperCell r) else bankGet s.regs.a (upperCell r)

/-- Write all 64 bits of `R[r]` (10_state R31). -/
def setReg (s : State) (r : RegIdx) (v : Word) : State :=
  if r.toNat < 8 then s.withRegs { s.regs with d := bankSet s.regs.d (upperCell r) v }
  else s.withRegs { s.regs with a := bankSet s.regs.a (upperCell r) v }

/-- `CR[n]` (10_state R37). -/
def getCr (s : State) (n : CellIdx) : Word := bankGet s.regs.cr n

/-- Write all 64 bits of `CR[n]` (10_state R37). -/
def setCr (s : State) (n : CellIdx) (v : Word) : State := s.withRegs { s.regs with cr := bankSet s.regs.cr n v }

/-- `A[n]` (10_state R33). -/
def getAddr (s : State) (n : CellIdx) : Word := bankGet s.regs.a n

/-- SP, which is A7 (10_state R34). -/
def getSp (s : State) : Word := bankGet s.regs.a 7#3

/-- Write SP (10_state R34). -/
def setSp (s : State) (v : Word) : State := s.withRegs { s.regs with a := bankSet s.regs.a 7#3 v }

/-- `view_s(v)`: the low `w(s)` bits (00_scope R18, 10_state R30, R35). -/
def viewOf (sz : Size) (v : Nat) : Nat := v % 2 ^ sz.width

/-- The cell after a write at size `sz`: `old[63:w] ++ v[w-1:0]` (10_state R36). -/
def mergeView (sz : Size) (old : Word) (v : Nat) : Word :=
  BitVec.ofNat 64 (old.toNat / 2 ^ sz.width * 2 ^ sz.width + viewOf sz v)

/-! ### Memory -/

/-- The byte at an address; 0 where nothing is listed (notes/assumptions/3.md). -/
def memRead : Memory → Nat → Byte
  | [], _ => 0#8
  | (k, b) :: m, a => if a < k then 0#8 else if a = k then b else memRead m a

/-- Write one byte, keeping addresses rising and no byte 0 listed. -/
def memWrite : Memory → Nat → Byte → Memory
  | [], a, v => if v = 0#8 then [] else [(a, v)]
  | (k, b) :: m, a, v =>
    if a < k then (if v = 0#8 then (k, b) :: m else (a, v) :: (k, b) :: m)
    else if a = k then (if v = 0#8 then m else (a, v) :: m)
    else (k, b) :: memWrite m a v

/-- Every listed address is at least `lo`, addresses rise strictly, and no listed byte is 0. -/
def memCanonicalFrom : Nat → Memory → Bool
  | _, [] => true
  | lo, (k, b) :: m => decide (lo ≤ k) && b != 0#8 && memCanonicalFrom (k + 1) m

/-- The canonical form of memory: equal contents are equal lists. -/
def Memory.wf (m : Memory) : Bool := memCanonicalFrom 0 m

/-- The `n` bytes from address `a` up. -/
def memReadBytes (m : Memory) : Nat → Nat → List Byte
  | _, 0 => []
  | a, n + 1 => memRead m a :: memReadBytes m (a + 1) n

/-- Store bytes from address `a` up. -/
def memWriteBytes (m : Memory) : Nat → List Byte → Memory
  | _, [] => m
  | a, b :: bs => memWriteBytes (memWrite m a b) (a + 1) bs

/-- `MemRead(a, n)` where it is in bounds: big-endian (20_memory R81). -/
def memReadN (m : Memory) (a n : Nat) : Nat := fromBE (memReadBytes m a n)

/-- `MemWrite(a, n, v)` where it is in bounds: big-endian (20_memory R81). -/
def memWriteN (m : Memory) (a n v : Nat) : Memory := memWriteBytes m a (toBE n v)

/-- The bounds check, on unbounded integers (20_memory R84). -/
def inBounds (s : State) (a n : Nat) : Bool := decide (a + n ≤ s.cfg.memSize)

/-! ### Ends of an execute phase -/

/-- How an execute phase may end without completing: it raises a fault reason of 60_exceptions R411, or the model
stops. -/
inductive Abort where
  | raise (r : Reason)
  | stop (f : Fault)
deriving DecidableEq, Repr, Inhabited

/-- `MemRead(a, n)`, or `raise MemoryOutOfBounds` (00_scope R19, 20_memory R84). -/
def readMem (s : State) (a : Word) (n : Nat) : Except Abort Nat :=
  if inBounds s a.toNat n then .ok (memReadN s.mem a.toNat n) else .error (.raise .memoryOutOfBounds)

/-- `MemWrite(a, n, v)`, or `raise MemoryOutOfBounds` with no byte written (00_scope R19, 20_memory R84). -/
def writeMem (s : State) (a : Word) (n v : Nat) : Except Abort State :=
  if inBounds s a.toNat n then .ok (s.withMem (memWriteN s.mem a.toNat n v)) else .error (.raise .memoryOutOfBounds)

/-- `push64(v)` (41_stack_call_lea R240). -/
def push64 (s : State) (v : Nat) : Except Abort State := do
  let sp := getSp s - 8#64
  let s' ← writeMem s sp 8 v
  pure (setSp s' sp)

/-- `pop64()`: the value and the state with SP moved (41_stack_call_lea R240). -/
def pop64 (s : State) : Except Abort (Nat × State) := do
  let v ← readMem s (getSp s) 8
  pure (v, setSp s (getSp s + 8#64))

/-! ### Exceptions: ids, routing -/

/-- Exception id (60_exceptions R410). -/
def excNumber : ExcId → Nat
  | .invalidInstruction => 0
  | .memoryOutOfBounds => 1
  | .divisionByZero => 2
  | .unknownSyscall => 3

/-- The exception a number names (60_exceptions R410, R422). -/
def excOfNumber : Nat → Option ExcId
  | 0 => some .invalidInstruction
  | 1 => some .memoryOutOfBounds
  | 2 => some .divisionByZero
  | 3 => some .unknownSyscall
  | _ => none

/-- The enable bit of an exception (10_state R53). -/
def excIsEnabled (m : ExcMask) : ExcId → Bool
  | .invalidInstruction => m.invalidInstruction
  | .memoryOutOfBounds => m.memoryOutOfBounds
  | .divisionByZero => m.divisionByZero
  | .unknownSyscall => m.unknownSyscall

/-- Set the enable bit of an exception (60_exceptions R422). -/
def excEnable (m : ExcMask) : ExcId → ExcMask
  | .invalidInstruction => { m with invalidInstruction := true }
  | .memoryOutOfBounds => { m with memoryOutOfBounds := true }
  | .divisionByZero => { m with divisionByZero := true }
  | .unknownSyscall => { m with unknownSyscall := true }

/-- The exception a fault reason raises, if any (60_exceptions R411). -/
def reasonExc : Reason → Option ExcId
  | .unknownOpcode => some .invalidInstruction
  | .unknownExtension => some .invalidInstruction
  | .reservedBits => some .invalidInstruction
  | .invalidAddressing => some .invalidInstruction
  | .extensionDecodeFailed => some .invalidInstruction
  | .memoryOutOfBounds => some .memoryOutOfBounds
  | .divisionByZero => some .divisionByZero
  | .unknownSyscall => some .unknownSyscall
  | .extensionFault e => some e
  | .trapEntryFault => none

/-- `Route(reason)` and the failing result (60_exceptions R412, R413): the exception becomes pending when its line
is enabled; nothing else changes. -/
def route (s : State) (r : Reason) : State :=
  let s := s.withResult (.fail r)
  match reasonExc r with
  | some e => if excIsEnabled s.excEnabled e then s.withExcPending (some e) else s
  | none => s

/-- The end of an instruction's execute phase: its effect whole, or none of it and the fault routed
(40_move_arith R199, 60_exceptions R413). `s` is the state the phase began in, with IP at `end`. -/
def finish (s : State) : Except Abort State → Host.Outcome State Fault Refusal
  | .ok t => .next t
  | .error (.raise r) => .next (route s r)
  | .error (.stop f) => .fault f

/-! ### Trap entry and return -/

/-- The status word (10_state R43): bit 0 C, 1 V, 2 Z, 3 N, 4 X, 5 H, the rest 0. -/
def statusWord (f : Flags) : Nat :=
  f.c.toNat + 2 * f.v.toNat + 4 * f.z.toNat + 8 * f.n.toNat + 16 * f.x.toNat + 32 * f.h.toNat

/-- The flags RTI restores from a saved status word; H is kept (10_state R43, 43_system_ext R335). -/
def restoreFlags (f : Flags) (st : Nat) : Flags where
  c := st.testBit 0
  v := st.testBit 1
  z := st.testBit 2
  n := st.testBit 3
  x := st.testBit 4
  h := f.h

/-- Vector-table slot of an exception (60_exceptions R410). -/
def excSlot (e : ExcId) : Nat := 2 + excNumber e

/-- Vector-table slot of an interrupt line: `IRQ_SLOT0 + l` (60_exceptions R415). -/
def irqSlot (line : Nat) : Nat := 8 + line

/-- Address of a vector-table slot (60_exceptions R415, R430). -/
def vectorAddr (s : State) (slot : Nat) : Word := s.cfg.vtBase + BitVec.ofNat 64 (8 * slot)

/-- `TrapEntry(slot)` (60_exceptions R430): taking an exception or an interrupt. IP and the status word go to the
stack, IP to the vector's target, the ISR state to Executing; none on a trap-entry fault (R434). -/
def trapEntry (s : State) (slot : Nat) : Option State :=
  let va := vectorAddr s slot
  let sp1 := getSp s - 8#64
  let sp2 := getSp s - 16#64
  if inBounds s va.toNat 8 && inBounds s sp2.toNat 16 then
    let target := memReadN s.mem va.toNat 8
    let m1 := memWriteN s.mem sp1.toNat 8 s.ip.toNat
    let m2 := memWriteN m1 sp2.toNat 8 (statusWord s.flags)
    some (((setSp (s.withMem m2) sp2).withIp (BitVec.ofNat 64 target)).withIsr .executing)
  else none

/-- The return from a trap (43_system_ext R335): pop the status word, then the return IP; H stays; the ISR state
becomes Idle. -/
def trapReturn (s : State) : Except Abort State :=
  let sp := getSp s
  if inBounds s sp.toNat 16 then
    let st := memReadN s.mem sp.toNat 8
    let ip := memReadN s.mem (sp + 8#64).toNat 8
    .ok ((((setSp s (sp + 16#64)).withFlags (restoreFlags s.flags st)).withIp (BitVec.ofNat 64 ip)).withIsr .idle)
  else .error (.raise .memoryOutOfBounds)

/-! ### The step boundary -/

/-- The least line that is both pending and enabled (60_exceptions R402). -/
def firstEligible : List Bool → List Bool → Option Nat
  | p :: ps, e :: es => if p && e then some 0 else (firstEligible ps es).map (· + 1)
  | _, _ => none

/-- How the step boundary ends: the step goes on to its fetch, or a trap-entry fault has halted the core. -/
inductive Boundary where
  | go (s : State)
  | halted (s : State)
deriving DecidableEq, Repr, Inhabited

/-- A trap-entry fault halts the core: H set, the step failed, nothing else (60_exceptions R434). -/
def haltOnTrapFault (s : State) : State :=
  (s.withFlags { s.flags with h := true }).withResult (.fail .trapEntryFault)

/-- Phase 1 of a step: the pending exception first, whatever the ISR state; else the least eligible line when it is
Idle; at most one trap (60_exceptions R400 to R402, R426, R431). -/
def stepBoundary (s : State) : Boundary :=
  match s.excPending with
  | some e =>
    let s := s.withExcPending none
    match trapEntry s (excSlot e) with
    | some t => .go t
    | none => .halted (haltOnTrapFault s)
  | none =>
    match s.isr with
    | .executing => .go s
    | .idle =>
      match firstEligible s.irqPending s.irqEnabled with
      | none => .go s
      | some l =>
        match trapEntry s (irqSlot l) with
        | some t => .go (t.withIrqPending (t.irqPending.set l false))
        | none => .halted (haltOnTrapFault s)

/-! ### The interrupt and exception control port -/

/-- `RaiseInterrupt(l)`; none when rejected (60_exceptions R420, R423). -/
def raiseLine (s : State) (l : Nat) : Option State :=
  if l < s.cfg.numIrq then some (s.withIrqPending (s.irqPending.set l true)) else none

/-- `EnableInterrupt(l)`; none when rejected (60_exceptions R421, R423). -/
def enableLine (s : State) (l : Nat) : Option State :=
  if l < s.cfg.numIrq then some (s.withIrqEnabled (s.irqEnabled.set l true)) else none

/-- `EnableException(e)`; none when rejected (60_exceptions R422, R423). -/
def enableExc (s : State) (e : Nat) : Option State :=
  match excOfNumber e with
  | some id => some (s.withExcEnabled (excEnable s.excEnabled id))
  | none => none

/-- One operation of the port; a rejected one changes nothing (60_exceptions R423). -/
def applyPortOp (s : State) (p : PortOp) : State :=
  match p with
  | .raiseInterrupt l => (raiseLine s l).getD s
  | .enableInterrupt l => (enableLine s l).getD s
  | .enableException e => (enableExc s e).getD s

/-! ### Host transitions -/

/-- What a syscall callback reads (43_system_ext R331). -/
def coreView (s : State) : CoreView := ⟨s.regs, s.ip, s.flags, s.mem, s.cfg.memSize⟩

/-- What an extension executor is called with beside its handle: no IP and no flag (43_system_ext R345, 10_state
R42). -/
def executorView (s : State) : ExecutorView := ⟨s.regs, s.mem, s.cfg.memSize⟩

/-- The flags with those given replaced; H is kept (43_system_ext R331, R345). -/
def replaceFlags (f : Flags) (c v z n x : Option Bool) : Flags :=
  ⟨c.getD f.c, v.getD f.v, z.getD f.z, n.getD f.n, x.getD f.x, f.h⟩

/-- One write of a callback or executor (43_system_ext R331, R345). A store out of bounds writes no byte: the port
answers OOB (00_scope R10; notes/assumptions/20.md). -/
def applyWrite (s : State) (w : CoreWrite) : State :=
  match w with
  | .setReg r v => setReg s r v
  | .setCr n v => setCr s n v
  | .setFlags c v z n x => s.withFlags (replaceFlags s.flags c v z n x)
  | .store a sz v => if inBounds s a.toNat sz.bytes then s.withMem (memWriteN s.mem a.toNat sz.bytes v.toNat) else s

/-- One action of a callback (43_system_ext R331). -/
def applyAction (s : State) (a : CallbackAction) : State :=
  match a with
  | .write w => applyWrite s w
  | .port p => applyPortOp s p

/-- What a registered callback does at a state: its script, or the host transition's answer. -/
def callbackActions (cb : Callback) (s : State) : List CallbackAction :=
  match cb with
  | .script acts => acts
  | .host k => Config.callback k s.hostCalls (coreView s)

/-- Invoke a callback once, synchronously (43_system_ext R330, R331). -/
def runCallback (cb : Callback) (s : State) : State :=
  (callbackActions cb s).foldl applyAction s.countHostCall

/-- What a registered executor returns for a handle at a state (43_system_ext R345). -/
def executorOutcome (ex : ExtExecutor) (handle : Nat) (s : State) : ExtOutcome :=
  match ex with
  | .script o => o
  | .host k => Config.executor k s.hostCalls handle (executorView s)

/-- The syscall registered under an id (43_system_ext R330). -/
def findSyscall (tbl : List SyscallEntry) (id : Nat) : Option SyscallEntry := tbl.find? (fun e => e.id.toNat == id)

end Sys2Proof.Machine
end

