-- ==== Sys2Proof/Machine/Cycle.lean ====
section
/-!
DEFINITION. The parts of a step around the execute phase (60_exceptions R400): the fetch of instruction bytes
(30_encoding R150, 20_memory R108), the decode at IP, what a finished and a failed decode leave, and the halted step.
-/
namespace Sys2Proof.Machine

/-- `Fetch8(IP + k)`, the address modulo 2^64; none outside memory (00_scope R19, 20_memory R84, 10_state R38). -/
def fetchByte (s : State) (k : Nat) : Option Byte :=
  let a := (s.ip + BitVec.ofNat 64 k).toNat
  if inBounds s a 1 then some (memRead s.mem a) else none

/-- `Decode(IP)` (60_exceptions R400 phase 2, 30_encoding R150). -/
def decodeAt (s : State) : Except DecodeError Decoded := decode s.cfg.extRange s.extensions (fetchByte s)

/-- The fault reason of a failed decode (60_exceptions R411). -/
def decodeReason : DecodeReason → Reason
  | .unknownOpcode => .unknownOpcode
  | .unknownExtension => .unknownExtension
  | .reservedBits => .reservedBits
  | .invalidAddressing => .invalidAddressing
  | .extensionDecodeFailed => .extensionDecodeFailed
  | .memoryOutOfBounds => .memoryOutOfBounds

/-- After a finished decode: IP at `end`, decoder Finished, the record written (30_encoding R150, 10_state R60;
notes/assumptions/13.md and 14.md). -/
def afterDecode (s : State) (d : Decoded) : State :=
  let endIp := s.ip + BitVec.ofNat 64 d.length
  ((s.withIp endIp).withDecoder .finished d.inst).withRecord (some ⟨d.instr, s.ip, endIp, s.regs, s.flags, s.isr⟩)

/-- After a failed decode: IP past every byte consumed, decoder Idle, the fault routed (30_encoding R150,
60_exceptions R413). -/
def decodeFailed (s : State) (e : DecodeError) : State :=
  route ((s.withIp (s.ip + BitVec.ofNat 64 e.consumed)).withDecoder .idle none) (decodeReason e.reason)

/-- A step begins with the result `ok`, which only a fault changes (60_exceptions R400). While halted it is the
whole step: nothing of the machine changes, and the step reports success (R400 phase 0). -/
def beginStep (s : State) : State := s.withResult .ok

/-- Store bytes from IP up, those that lie in memory. -/
def storeAtIp (s : State) (bs : List Byte) : State :=
  s.withMem (memWriteBytes s.mem s.ip.toNat (bs.take (s.cfg.memSize - s.ip.toNat)))

end Sys2Proof.Machine
end

