-- ==== Sys2Proof/Machine/Operands.lean ====
section
/-!
DEFINITION. The addressing resolver (20_memory R91 to R100): an operand's location and effective address, computed
from the pre-state (00_scope R20), and reading and writing a location at a size.
-/
namespace Sys2Proof.Machine

/-- Where an operand lives (20_memory R91). -/
inductive Loc where
  | imm (v : Nat)
  | reg (r : RegIdx)
  | creg (n : CellIdx)
  | mem (a : Word)
deriving DecidableEq, Repr, Inhabited

/-- `A[base] + (R[idx] << sh)`, modulo 2^64 (20_memory R97). -/
def relAddr (s : State) (base : CellIdx) (idx : RegIdx) (sh : BitVec 3) : Word :=
  getAddr s base + (getReg s idx <<< sh.toNat)

/-- `EA(desc)`; none for Immediate and Register (20_memory R98). -/
def effAddr (s : State) : Operand → Option Word
  | .imm _ _ => none
  | .abs _ a => some a
  | .reg _ => none
  | .creg _ => none
  | .ind r => some (getReg s r)
  | .rel base idx sh => some (relAddr s base idx sh)

/-- The location of an operand, from the pre-state (20_memory R91, 00_scope R20). -/
def resolve (s : State) : Operand → Loc
  | .imm _ v => .imm v.toNat
  | .abs _ a => .mem a
  | .reg r => .reg r
  | .creg n => .creg n
  | .ind r => .mem (getReg s r)
  | .rel base idx sh => .mem (relAddr s base idx sh)

/-- `ReadOperand` (20_memory R99): a `w(s)`-bit value. -/
def readLoc (s : State) (sz : Size) : Loc → Except Abort Nat
  | .imm v => .ok (viewOf sz v)
  | .reg r => .ok (viewOf sz (getReg s r).toNat)
  | .creg n => .ok (viewOf sz (getCr s n).toNat)
  | .mem a => readMem s a sz.bytes

/-- `WriteOperand` (20_memory R100): stores `view_s(v)`. An Immediate is unreachable: decode refuses it. -/
def writeLoc (s : State) (sz : Size) (loc : Loc) (v : Nat) : Except Abort State :=
  match loc with
  | .imm _ => .error (.stop .illFormedOperand)
  | .reg r => .ok (setReg s r (mergeView sz (getReg s r) v))
  | .creg n => .ok (setCr s n (mergeView sz (getCr s n) v))
  | .mem a => writeMem s a sz.bytes v

/-- The address LEA computes: the literal for Immediate and Absolute, the EA for Indirect and RegisterRelative; none
for Register (41_stack_call_lea R260). -/
def leaAddr (s : State) (sz : Size) : Operand → Option Word
  | .imm _ v => some (BitVec.ofNat 64 (viewOf sz v.toNat))
  | .abs _ a => some a
  | .reg _ => none
  | .creg _ => none
  | .ind r => some (getReg s r)
  | .rel base idx sh => some (relAddr s base idx sh)

/-- `sext_w(s)(imm)` of an offset operand; none unless it is an Immediate (30_encoding R133, R140). -/
def offsetOf (sz : Size) : Operand → Option Word
  | .imm _ v => some ((v.setWidth sz.width).signExtend 64)
  | _ => none

end Sys2Proof.Machine
end

