-- ==== Sys2Proof/Machine/Branch.lean ====
section
/-!
DEFINITION. The conditional branches BEQ, BNE, BCS, BCC, BVS and BVC (42_shift_branch R290 to R296).
-/
namespace Sys2Proof.Machine

/-- A branch: IP becomes `end + sext_8(imm)` when the condition holds and stays at `end` when not
(42_shift_branch R290). -/
def branchIf (cond : Bool) (d : Operand) (st : State) : Except Abort State :=
  match offsetOf .byte d with
  | none => .error (.stop .illFormedOperand)
  | some off => .ok (if cond then st.withIp (st.ip + off) else st)

/-- BEQ: taken when Z = 1 (42_shift_branch R291). -/
def execBeq (_ : Size) (d : Operand) (st : State) : Host.Outcome State Fault Refusal :=
  finish st (branchIf st.flags.z d st)

/-- BNE: taken when Z = 0 (42_shift_branch R292). -/
def execBne (_ : Size) (d : Operand) (st : State) : Host.Outcome State Fault Refusal :=
  finish st (branchIf (!st.flags.z) d st)

/-- BCS: taken when C = 1 (42_shift_branch R293). -/
def execBcs (_ : Size) (d : Operand) (st : State) : Host.Outcome State Fault Refusal :=
  finish st (branchIf st.flags.c d st)

/-- BCC: taken when C = 0 (42_shift_branch R294). -/
def execBcc (_ : Size) (d : Operand) (st : State) : Host.Outcome State Fault Refusal :=
  finish st (branchIf (!st.flags.c) d st)

/-- BVS: taken when V = 1 (42_shift_branch R295). -/
def execBvs (_ : Size) (d : Operand) (st : State) : Host.Outcome State Fault Refusal :=
  finish st (branchIf st.flags.v d st)

/-- BVC: taken when V = 0 (42_shift_branch R296). -/
def execBvc (_ : Size) (d : Operand) (st : State) : Host.Outcome State Fault Refusal :=
  finish st (branchIf (!st.flags.v) d st)

end Sys2Proof.Machine
end

