-- ==== Sys2Proof/Machine/Flags.lean ====
section
/-!
DEFINITION. Results and flags of the arithmetic and shift instructions, on exact integers (40_move_arith R198 to R236,
42_shift_branch R278 to R283). `w` is the operand width in bits; operands are unsigned and below `2^w`.
-/
namespace Sys2Proof.Machine

/-- A result with the five flags an arithmetic instruction writes (10_state R41). -/
structure AluOut where
  value : Nat
  c : Bool
  v : Bool
  z : Bool
  n : Bool
  x : Bool
deriving DecidableEq, Repr, Inhabited

/-- `Zf(r)` (40_move_arith R198). -/
def zeroFlag (r : Nat) : Bool := r == 0

/-- The sign bit `r[w-1]` (40_move_arith R198). -/
def signBit (w r : Nat) : Bool := r.testBit (w - 1)

/-- A result with carry and overflow; Z and N from the result, X mirrors C (40_move_arith R198, R210). -/
def aluOut (w r : Nat) (c v : Bool) : AluOut := ⟨r, c, v, zeroFlag r, signBit w r, c⟩

/-- ADD (40_move_arith R210). -/
def aluAdd (w a b : Nat) : AluOut :=
  let full := a + b
  let r := full % 2 ^ w
  aluOut w r (decide (2 ^ w ≤ full)) (signBit w a == signBit w b && signBit w r != signBit w a)

/-- SUB and CMP (40_move_arith R215, R230); C is the borrow. -/
def aluSub (w a b : Nat) : AluOut :=
  let r := (((a : Int) - (b : Int)) % (2 ^ w : Int)).toNat
  aluOut w r (decide (a < b)) (signBit w a != signBit w b && signBit w r != signBit w a)

/-- MUL (40_move_arith R220). -/
def aluMul (w a b : Nat) : AluOut :=
  let full := a * b
  let tooBig := decide (2 ^ w ≤ full)
  aluOut w (full % 2 ^ w) tooBig tooBig

/-- DIV by a divisor that is not 0 (40_move_arith R225). -/
def aluDiv (w a b : Nat) : AluOut := aluOut w (a / b) false false

/-- `signed_w(a)` (00_scope R18). -/
def signedOf (w a : Nat) : Int := if signBit w a then (a : Int) - (2 ^ w : Int) else (a : Int)

/-- LSR (42_shift_branch R280). -/
def aluLsr (w a n : Nat) : AluOut :=
  let r := if w ≤ n then 0 else a / 2 ^ n
  let c := if n = 0 then false else if n ≤ w then a.testBit (n - 1) else false
  aluOut w r c false

/-- The carry of a left shift (42_shift_branch R281, R283). -/
def leftCarry (w a n : Nat) : Bool := if n = 0 then false else if n ≤ w then a.testBit (w - n) else false

/-- The result of a left shift (42_shift_branch R281, R283). -/
def leftResult (w a n : Nat) : Nat := if w ≤ n then 0 else a * 2 ^ n % 2 ^ w

/-- LSL (42_shift_branch R281). -/
def aluLsl (w a n : Nat) : AluOut := aluOut w (leftResult w a n) (leftCarry w a n) false

/-- ASR (42_shift_branch R282). -/
def aluAsr (w a n : Nat) : AluOut :=
  let r := if w ≤ n then (if signBit w a then 2 ^ w - 1 else 0)
    else ((signedOf w a / (2 ^ n : Int)) % (2 ^ w : Int)).toNat
  let c := if n = 0 then false else if n ≤ w then a.testBit (n - 1) else signBit w a
  aluOut w r c false

/-- The overflow of ASL: the sign bit changed during the shift, that is, the top `n + 1` bits are not all equal, or
for `n >= w` the value is not 0 (42_shift_branch R283). -/
def aslOverflow (w a n : Nat) : Bool :=
  if n = 0 then false
  else if n < w then
    let top := a / 2 ^ (w - 1 - n)
    !(top == 0 || top == 2 ^ (n + 1) - 1)
  else a != 0

/-- ASL (42_shift_branch R283). -/
def aluAsl (w a n : Nat) : AluOut := aluOut w (leftResult w a n) (leftCarry w a n) (aslOverflow w a n)

/-- The flags after an arithmetic or shift instruction: C, V, Z, N and X written, H kept (10_state R41). -/
def arithFlags (f : Flags) (o : AluOut) : Flags := ⟨o.c, o.v, o.z, o.n, o.x, f.h⟩

/-- The flags after MOV: Z and N from the copied value, the rest kept (40_move_arith R200). -/
def moveFlags (f : Flags) (w r : Nat) : Flags := { f with z := zeroFlag r, n := signBit w r }

end Sys2Proof.Machine
end

