-- ==== Sys2Proof/Machine/MoveArith.lean ====
section
/-!
DEFINITION. MOV, ADD, SUB, MUL, DIV and CMP (40_move_arith R197 to R236). `sz` is the operand size, `d` the destination,
`s` the source; `st` is the state after decode, with IP at `end`.
-/
namespace Sys2Proof.Machine

/-- The shape shared by every instruction that reads its destination and its source, computes, writes the destination
and the flags: reads first, in that order, then the writes (40_move_arith R199, 20_memory R101, 60_exceptions R427). -/
def readModifyWrite (op : Nat → Nat → Nat → Except Abort AluOut) (sz : Size) (d s : Operand) (st : State) :
    Except Abort State := do
  let a ← readLoc st sz (resolve st d)
  let b ← readLoc st sz (resolve st s)
  let o ← op sz.width a b
  let t ← writeLoc st sz (resolve st d) o.value
  pure (t.withFlags (arithFlags st.flags o))

/-- DIV's operation: a divisor of 0 raises DivisionByZero (40_move_arith R225). -/
def divide (w a b : Nat) : Except Abort AluOut :=
  if b = 0 then .error (.raise .divisionByZero) else .ok (aluDiv w a b)

/-- MOV (40_move_arith R200). -/
def execMov (sz : Size) (d s : Operand) (st : State) : Host.Outcome State Fault Refusal :=
  finish st (do
    let v ← readLoc st sz (resolve st s)
    let t ← writeLoc st sz (resolve st d) v
    pure (t.withFlags (moveFlags st.flags sz.width v)))

/-- ADD (40_move_arith R210). -/
def execAdd (sz : Size) (d s : Operand) (st : State) : Host.Outcome State Fault Refusal :=
  finish st (readModifyWrite (fun w a b => .ok (aluAdd w a b)) sz d s st)

/-- SUB (40_move_arith R215). -/
def execSub (sz : Size) (d s : Operand) (st : State) : Host.Outcome State Fault Refusal :=
  finish st (readModifyWrite (fun w a b => .ok (aluSub w a b)) sz d s st)

/-- MUL (40_move_arith R220). -/
def execMul (sz : Size) (d s : Operand) (st : State) : Host.Outcome State Fault Refusal :=
  finish st (readModifyWrite (fun w a b => .ok (aluMul w a b)) sz d s st)

/-- DIV (40_move_arith R225). -/
def execDiv (sz : Size) (d s : Operand) (st : State) : Host.Outcome State Fault Refusal :=
  finish st (readModifyWrite divide sz d s st)

/-- CMP: SUB's flags, nothing written (40_move_arith R230). -/
def execCmp (sz : Size) (d s : Operand) (st : State) : Host.Outcome State Fault Refusal :=
  finish st (do
    let a ← readLoc st sz (resolve st d)
    let b ← readLoc st sz (resolve st s)
    pure (st.withFlags (arithFlags st.flags (aluSub sz.width a b))))

end Sys2Proof.Machine
end

