-- ==== Sys2Proof/Machine/Shift.lean ====
section
/-!
DEFINITION. LSR, LSL, ASR and ASL (42_shift_branch R278 to R283). The count is the source operand's whole `w`-bit view,
not reduced.
-/
namespace Sys2Proof.Machine

/-- LSR (42_shift_branch R280). -/
def execLsr (sz : Size) (d s : Operand) (st : State) : Host.Outcome State Fault Refusal :=
  finish st (readModifyWrite (fun w a n => .ok (aluLsr w a n)) sz d s st)

/-- LSL (42_shift_branch R281). -/
def execLsl (sz : Size) (d s : Operand) (st : State) : Host.Outcome State Fault Refusal :=
  finish st (readModifyWrite (fun w a n => .ok (aluLsl w a n)) sz d s st)

/-- ASR (42_shift_branch R282). -/
def execAsr (sz : Size) (d s : Operand) (st : State) : Host.Outcome State Fault Refusal :=
  finish st (readModifyWrite (fun w a n => .ok (aluAsr w a n)) sz d s st)

/-- ASL (42_shift_branch R283). -/
def execAsl (sz : Size) (d s : Operand) (st : State) : Host.Outcome State Fault Refusal :=
  finish st (readModifyWrite (fun w a n => .ok (aluAsl w a n)) sz d s st)

end Sys2Proof.Machine
end

