-- ==== Sys2Proof/Machine/Stack.lean ====
section
/-!
DEFINITION. PUSH, POP, CALL, RET and LEA (41_stack_call_lea R240 to R260). `st` is the state after decode, so that
`st.ip` is the instruction's `end`.
-/
namespace Sys2Proof.Machine

/-- PUSH (41_stack_call_lea R241): the value is read before SP moves. -/
def execPush (sz : Size) (d : Operand) (st : State) : Host.Outcome State Fault Refusal :=
  finish st (do
    let v ← readLoc st sz (resolve st d)
    push64 st v)

/-- POP (41_stack_call_lea R245): the destination's address is from the pre-state, and it is written after SP. -/
def execPop (sz : Size) (d : Operand) (st : State) : Host.Outcome State Fault Refusal :=
  finish st (do
    let p ← pop64 st
    writeLoc p.2 sz (resolve st d) p.1)

/-- CALL (41_stack_call_lea R250). -/
def execCall (sz : Size) (d : Operand) (st : State) : Host.Outcome State Fault Refusal :=
  finish st (match offsetOf sz d with
    | none => .error (.stop .illFormedOperand)
    | some off => do
      let t ← push64 st st.ip.toNat
      pure (t.withIp (st.ip + off)))

/-- RET (41_stack_call_lea R255). -/
def execRet (_ : Size) (st : State) : Host.Outcome State Fault Refusal :=
  finish st (do
    let p ← pop64 st
    pure (p.2.withIp (BitVec.ofNat 64 p.1)))

/-- LEA (41_stack_call_lea R260): all 64 bits of the destination, and no memory access. -/
def execLea (sz : Size) (d s : Operand) (st : State) : Host.Outcome State Fault Refusal :=
  finish st (match d, leaAddr st sz s with
    | .reg r, some a => .ok (setReg st r a)
    | _, _ => .error (.stop .illFormedOperand))

end Sys2Proof.Machine
end

