-- ==== Sys2Proof/Machine/System.lean ====
section
/-!
DEFINITION. BRK, NOP, SYS, RTI (43_system_ext R320 to R335) and the execute phase of an extension instruction
(R345).
-/
namespace Sys2Proof.Machine

/-- BRK: set H (43_system_ext R320). -/
def execBrk (_ : Size) (st : State) : Host.Outcome State Fault Refusal :=
  finish st (.ok (st.withFlags { st.flags with h := true }))

/-- NOP: nothing; IP is at `end` already (43_system_ext R325). -/
def execNop (_ : Size) (st : State) : Host.Outcome State Fault Refusal :=
  finish st (.ok st)

/-- SYS: invoke the callback registered under the operand's value, or raise UnknownSyscall (43_system_ext R330). -/
def execSys (sz : Size) (d : Operand) (st : State) : Host.Outcome State Fault Refusal :=
  finish st (do
    let id ← readLoc st sz (resolve st d)
    match findSyscall st.syscalls id with
    | none => .error (.raise .unknownSyscall)
    | some e => pure (runCallback e.callback st))

/-- RTI: return from a trap (43_system_ext R335). -/
def execRti (_ : Size) (st : State) : Host.Outcome State Fault Refusal :=
  finish st (trapReturn st)

/-- An extension instruction: the registered executor's writes, or its fault with no other effect (43_system_ext R345).
A byte with no entry, which decode never gives, raises UnknownExtension (notes/assumptions/12.md). -/
def execExt (op : Byte) (handle : Nat) (st : State) : Host.Outcome State Fault Refusal :=
  match findExtension st.extensions op with
  | none => .next (route st .unknownExtension)
  | some e =>
    match executorOutcome e.executor handle st with
    | .ok writes => .next (writes.foldl applyWrite st.countHostCall)
    | .fault x => .next (route st.countHostCall (.extensionFault x))

end Sys2Proof.Machine
end

