-- ==== Sys2Proof/Machine/Dispatch.lean ====
section
/-!
DEFINITION. The dispatcher: one arm per constructor of `Instr` (40_move_arith R197).
-/
namespace Sys2Proof.Machine

def exec (i : Instr) (s : State) : Host.Outcome State Fault Refusal :=
  match i with
  | .brk sz => Sys2Proof.Machine.execBrk sz s
  | .nop sz => Sys2Proof.Machine.execNop sz s
  | .ret sz => Sys2Proof.Machine.execRet sz s
  | .rti sz => Sys2Proof.Machine.execRti sz s
  | .sys sz d => Sys2Proof.Machine.execSys sz d s
  | .call sz d => Sys2Proof.Machine.execCall sz d s
  | .lsr sz d src => Sys2Proof.Machine.execLsr sz d src s
  | .lsl sz d src => Sys2Proof.Machine.execLsl sz d src s
  | .asr sz d src => Sys2Proof.Machine.execAsr sz d src s
  | .asl sz d src => Sys2Proof.Machine.execAsl sz d src s
  | .mov sz d src => Sys2Proof.Machine.execMov sz d src s
  | .add sz d src => Sys2Proof.Machine.execAdd sz d src s
  | .sub sz d src => Sys2Proof.Machine.execSub sz d src s
  | .mul sz d src => Sys2Proof.Machine.execMul sz d src s
  | .div sz d src => Sys2Proof.Machine.execDiv sz d src s
  | .cmp sz d src => Sys2Proof.Machine.execCmp sz d src s
  | .lea sz d src => Sys2Proof.Machine.execLea sz d src s
  | .push sz d => Sys2Proof.Machine.execPush sz d s
  | .pop sz d => Sys2Proof.Machine.execPop sz d s
  | .beq sz d => Sys2Proof.Machine.execBeq sz d s
  | .bne sz d => Sys2Proof.Machine.execBne sz d s
  | .bcs sz d => Sys2Proof.Machine.execBcs sz d s
  | .bcc sz d => Sys2Proof.Machine.execBcc sz d s
  | .bvs sz d => Sys2Proof.Machine.execBvs sz d s
  | .bvc sz d => Sys2Proof.Machine.execBvc sz d s
  | .ext op handle => Sys2Proof.Machine.execExt op handle s

end Sys2Proof.Machine
end

