-- ==== Sys2Proof/Machine/Step.lean ====
section
/-!
DEFINITION. One step of the core (60_exceptions R400): halted, step boundary, decode, execute.
-/
namespace Sys2Proof.Machine

/-- Phases 2 and 3: decode at IP, then execute (60_exceptions R400). -/
def fetchAndExecute (s : State) : Host.Outcome State Fault Refusal :=
  match decodeAt s with
  | .error e => .next (decodeFailed s e)
  | .ok d => exec d.instr (afterDecode s d)

/-- `Step()` (60_exceptions R400). A failing step is a next state whose `result` says so. -/
def step (s : State) : Host.Outcome State Fault Refusal :=
  if s.flags.h then .next (beginStep s)
  else
    match stepBoundary (beginStep s) with
    | .halted t => .next t
    | .go t => fetchAndExecute t

/-- `s` with the instruction whose bits are `w` where `step` fetches next, at IP: a LoadBytes, and for an extension
byte that has no entry a RegisterExtension (notes/assumptions/5.md). It is the next step's instruction in a state that
is not halted and takes no trap, such as the state after reset. -/
def State.withFetchWord (s : State) (nbits w : Nat) : State :=
  { storeAtIp s (tableBytes nbits w) with
    extensions := withBareExtension s.cfg.extRange s.extensions (BitVec.ofNat 8 (w % 2 ^ nbits)) }

end Sys2Proof.Machine
end

