-- ==== Sys2Proof/Machine/HostPort.lean ====
section
/-!
DEFINITION. The host's transactions, each between two steps (00_scope R11 to R15): Reset, SetIP, InitMemory, LoadBytes,
the interrupt and exception control port, registration and diagnostics; and a run as a sequence of host transactions and
steps (60_exceptions R424; notes/assumptions/15.md).
-/
namespace Sys2Proof.Machine

/-- A host transaction. -/
inductive HostOp where
  /-- `Reset()` (70_reset_and_hazards R480). -/
  | reset
  /-- `SetIP(v)` (R482). -/
  | setIp (v : Word)
  /-- `InitMemory(size)` with the host's buffer (R482). -/
  | initMemory (size : Nat) (contents : List Byte)
  /-- `LoadBytes(offset, bytes)` (R482). -/
  | loadBytes (offset : Nat) (bytes : List Byte)
  /-- RaiseInterrupt, EnableInterrupt, EnableException (60_exceptions R420 to R422). -/
  | port (p : PortOp)
  /-- `RegisterSyscall` (43_system_ext R332). -/
  | registerSyscall (e : SyscallEntry)
  /-- `RegisterExtension` (43_system_ext R340, R341). -/
  | registerExtension (e : ExtEntry)
deriving DecidableEq, Repr, Inhabited

/-- A transaction that succeeded, or one that was rejected and changed nothing (60_exceptions R423). -/
inductive HostReply where
  | ok (s : State)
  | rejected
deriving DecidableEq, Repr, Inhabited

/-- The state after a reply, the rejected transaction having changed nothing (60_exceptions R423). -/
def replyState (s : State) : HostReply → State
  | .ok t => t
  | .rejected => s

/-- A port operation that answers none is rejected. -/
def replyOf : Option State → HostReply
  | some t => .ok t
  | none => .rejected

/-- `InitMemory(size)`: MEM_SIZE and the host's buffer, 0 where it gives no byte (70_reset_and_hazards R482;
notes/assumptions/19.md). -/
def initMemory (s : State) (size : Nat) (contents : List Byte) : State :=
  { s with mem := memWriteBytes [] 0 (contents.take size), cfg := { s.cfg with memSize := size } }

/-- `LoadBytes`: rejected past the end of memory (70_reset_and_hazards R482). -/
def loadBytes (s : State) (offset : Nat) (bytes : List Byte) : HostReply :=
  if offset + bytes.length ≤ s.cfg.memSize then .ok (s.withMem (memWriteBytes s.mem offset bytes)) else .rejected

/-- `RegisterSyscall`: a duplicate id is rejected (43_system_ext R332). -/
def registerSyscall (s : State) (e : SyscallEntry) : HostReply :=
  if s.syscalls.any (fun x => x.id == e.id) then .rejected else .ok { s with syscalls := s.syscalls ++ [e] }

/-- `HasExtension(b)` (43_system_ext R341). -/
def hasExtension (s : State) (b : Byte) : Bool := (findExtension s.extensions b).isSome

/-- `RegisterExtension`: a byte outside EXT_RANGE or already registered is rejected (43_system_ext R341). -/
def registerExtension (s : State) (e : ExtEntry) : HostReply :=
  if !s.cfg.extRange.contains e.opcode || hasExtension s e.opcode then .rejected
  else .ok { s with extensions := s.extensions ++ [e] }

/-- One host transaction. -/
def hostOp (s : State) : HostOp → HostReply
  | .reset => .ok s.afterReset
  | .setIp v => .ok (s.withIp v)
  | .initMemory size contents => .ok (initMemory s size contents)
  | .loadBytes offset bytes => loadBytes s offset bytes
  | .port (.raiseInterrupt l) => replyOf (raiseLine s l)
  | .port (.enableInterrupt l) => replyOf (enableLine s l)
  | .port (.enableException e) => replyOf (enableExc s e)
  | .registerSyscall e => registerSyscall s e
  | .registerExtension e => registerExtension s e

/-- What the diagnostics port shows (00_scope R15). -/
structure Diagnostics where
  regs : Regs
  ip : Word
  flags : Flags
  record : Option DecodedRecord
  halted : Bool
  isrActive : Bool
deriving DecidableEq, Repr, Inhabited

/-- The diagnostics snapshot; reading it changes nothing (00_scope R15). -/
def diagnostics (s : State) : Diagnostics :=
  ⟨s.regs, s.ip, s.flags, s.record, s.flags.h, s.isr == .executing⟩

/-- What happens next at the block's boundary: a step, or a host transaction between two steps. -/
inductive Event where
  | step
  | host (op : HostOp)
deriving DecidableEq, Repr, Inhabited

/-- One event. -/
def runEvent (s : State) : Event → Host.Outcome State Fault Refusal
  | .step => step s
  | .host op => .next (replyState s (hostOp s op))

/-- A sequence of events, stopping at the first fault or refusal (60_exceptions R424: the interleaving is the
input). -/
def runEvents : State → List Event → Host.Outcome State Fault Refusal
  | s, [] => .next s
  | s, e :: es =>
    match runEvent s e with
    | .next t => runEvents t es
    | .fault f => .fault f
    | .refused r => .refused r

end Sys2Proof.Machine
end

