-- ==== Sys2Proof/Safety.lean ====
section
/-!
DEFINITION. The terms the claims use: the invariant of well-formed machine states, what a location holds, when an
access is in bounds, and what it means that a state changed nowhere else.
-/
namespace Sys2Proof.Machine

/-! ### The invariant -/

/-- Every listed address exists (20_memory R80). -/
def memInside (size : Nat) (m : Memory) : Bool := m.all (fun c => decide (c.1 < size))

/-- The one pending exception is of an enabled line (60_exceptions R413). -/
def pendingIsEnabled (m : ExcMask) : Option ExcId → Bool
  | none => true
  | some e => excIsEnabled m e

/-- EXT_RANGE holds no class byte (30_encoding R132). -/
def extRangeFree (extRange : List Byte) : Bool := opClasses.all (fun c => !extRange.contains (opcodeByte c))

/-- The invariant of machine states between steps. -/
structure State.Inv (s : State) : Prop where
  /-- Memory is in canonical form. -/
  mem_wf : Memory.wf s.mem = true
  /-- No byte is listed outside memory (20_memory R80, R84). -/
  mem_inside : memInside s.cfg.memSize s.mem = true
  /-- One pending bit for each line (10_state R51). -/
  pending_lines : s.irqPending.length = s.cfg.numIrq
  /-- One enable bit for each line (10_state R52). -/
  enabled_lines : s.irqEnabled.length = s.cfg.numIrq
  /-- A pending exception is of an enabled line (60_exceptions R413). -/
  pending_enabled : pendingIsEnabled s.excEnabled s.excPending = true
  /-- No extension decode is in progress between steps (10_state R55). -/
  not_in_extension : s.dstate ≠ .extension
  /-- An idle decoder holds no extension instance (10_state R56). -/
  idle_no_instance : s.dstate = .idle → s.extInstance = none
  /-- EXT_RANGE holds no class byte (30_encoding R132). -/
  range_free : extRangeFree s.cfg.extRange = true
  /-- Registered bytes are in EXT_RANGE (43_system_ext R341). -/
  ext_in_range : s.extensions.all (fun e => s.cfg.extRange.contains e.opcode) = true
  /-- No byte is registered twice (43_system_ext R341). -/
  ext_once : (s.extensions.map ExtEntry.opcode).Nodup
  /-- No syscall id is registered twice (43_system_ext R332). -/
  syscall_once : (s.syscalls.map SyscallEntry.id).Nodup

/-! ### Locations and accesses -/

/-- What a location holds at a size (20_memory R99). -/
def locView (s : State) (sz : Size) : Loc → Nat
  | .imm v => v % 2 ^ sz.width
  | .reg r => (getReg s r).toNat % 2 ^ sz.width
  | .creg n => (getCr s n).toNat % 2 ^ sz.width
  | .mem a => memReadN s.mem a.toNat sz.bytes

/-- Whether a location can be read: memory must be in bounds (20_memory R84). -/
def readable (s : State) (sz : Size) : Loc → Bool
  | .mem a => inBounds s a.toNat sz.bytes
  | _ => true

/-- Whether a location can be written: not an Immediate, and memory must be in bounds (20_memory R84, R92). -/
def writable (s : State) (sz : Size) : Loc → Bool
  | .imm _ => false
  | .mem a => inBounds s a.toNat sz.bytes
  | _ => true

/-- No trap is ready at the step boundary (60_exceptions R401, R402). -/
def noTrapReady (s : State) : Bool :=
  s.excPending.isNone && (s.isr == .executing || (firstEligible s.irqPending s.irqEnabled).isNone)

/-! ### Frames -/

/-- Nothing but registers, flags, memory and IP may differ. -/
def sameControl (s t : State) : Prop :=
  t.isr = s.isr ∧ t.irqPending = s.irqPending ∧ t.irqEnabled = s.irqEnabled ∧ t.excEnabled = s.excEnabled ∧
  t.excPending = s.excPending ∧ t.dstate = s.dstate ∧ t.extInstance = s.extInstance ∧ t.record = s.record ∧
  t.result = s.result ∧ t.cfg = s.cfg ∧ t.syscalls = s.syscalls ∧ t.extensions = s.extensions ∧
  t.hostCalls = s.hostCalls

/-- Every byte of memory outside `n` bytes from address `a` reads as before. -/
def sameMemExcept (s t : State) (a n : Nat) : Prop :=
  ∀ x, x < a ∨ a + n ≤ x → memRead t.mem x = memRead s.mem x

/-- Every byte of memory reads as before. -/
def sameMem (s t : State) : Prop := ∀ x, memRead t.mem x = memRead s.mem x

/-- Every general register but `r` is as before. -/
def sameRegsExcept (s t : State) (r : RegIdx) : Prop := ∀ r', r' ≠ r → getReg t r' = getReg s r'

/-- Every general register is as before. -/
def sameRegs (s t : State) : Prop := ∀ r, getReg t r = getReg s r

/-- Every control register is as before. -/
def sameCrs (s t : State) : Prop := ∀ n, getCr t n = getCr s n

/-- Bits above the width of `sz` are as before (10_state R36). -/
def upperKept (sz : Size) (old new : Word) : Prop := new.toNat / 2 ^ sz.width = old.toNat / 2 ^ sz.width

/-- Registers, control registers and memory are as before outside one written location; in a written register the
bits above the size are as before (10_state R36). -/
def sameOutside (s t : State) (sz : Size) : Loc → Prop
  | .imm _ => False
  | .reg r => sameRegsExcept s t r ∧ upperKept sz (getReg s r) (getReg t r) ∧ sameCrs s t ∧ sameMem s t
  | .creg n => sameRegs s t ∧ (∀ n', n' ≠ n → getCr t n' = getCr s n') ∧ upperKept sz (getCr s n) (getCr t n) ∧
      sameMem s t
  | .mem a => sameRegs s t ∧ sameCrs s t ∧ sameMemExcept s t a.toNat sz.bytes

/-- A fault left no effect: only the step result and the pending exception may differ (60_exceptions R413). -/
def onlyRouted (s t : State) : Prop :=
  t.regs = s.regs ∧ t.ip = s.ip ∧ t.flags = s.flags ∧ t.mem = s.mem ∧ t.isr = s.isr ∧
  t.irqPending = s.irqPending ∧ t.irqEnabled = s.irqEnabled ∧ t.excEnabled = s.excEnabled ∧ t.dstate = s.dstate ∧
  t.extInstance = s.extInstance ∧ t.record = s.record ∧ t.cfg = s.cfg ∧ t.syscalls = s.syscalls ∧
  t.extensions = s.extensions ∧ t.hostCalls = s.hostCalls

/-! ### Completions -/

/-- An arithmetic or shift instruction completed with result `r`, carry `c` and overflow `v`: the destination holds `r`
at size, Z and N are those of `r`, X mirrors C, H is kept, and nothing else changed (10_state R41, 40_move_arith
R198). -/
def arithmeticDone (s t : State) (sz : Size) (dst : Loc) (r : Nat) (c v : Bool) : Prop :=
  locView t sz dst = r ∧ t.flags = ⟨c, v, decide (r = 0), r.testBit (sz.width - 1), c, s.flags.h⟩ ∧
  sameOutside s t sz dst ∧ t.ip = s.ip ∧ sameControl s t

/-- The pending exception after reason `r` is routed: the reason's exception if its line is enabled, else what was
pending (60_exceptions R413). -/
def pendingAfter (m : ExcMask) (before : Option ExcId) (r : Reason) : Option ExcId :=
  match reasonExc r with
  | some e => if excIsEnabled m e then some e else before
  | none => before

/-- The step reported reason `r`, whose exception is pending if its line is enabled, and nothing else changed
(60_exceptions R413). -/
def faulted (s t : State) (r : Reason) : Prop :=
  onlyRouted s t ∧ t.result = .fail r ∧ t.excPending = pendingAfter s.excEnabled s.excPending r

/-- What neither a syscall callback nor an extension executor writes (43_system_ext R331, R345), with what belongs to
the decoder and to the host. -/
def hostLimits (s t : State) : Prop :=
  t.ip = s.ip ∧ t.flags.h = s.flags.h ∧ t.isr = s.isr ∧ t.excPending = s.excPending ∧ t.dstate = s.dstate ∧
  t.extInstance = s.extInstance ∧ t.record = s.record ∧ t.result = s.result ∧ t.cfg = s.cfg ∧
  t.syscalls = s.syscalls ∧ t.extensions = s.extensions ∧ t.hostCalls = s.hostCalls + 1

/-- Every pending and enable bit that was set is still set. -/
def bitsKept (s t : State) : Prop :=
  (∀ l : Nat, s.irqPending[l]? = some true → t.irqPending[l]? = some true) ∧
  (∀ l : Nat, s.irqEnabled[l]? = some true → t.irqEnabled[l]? = some true) ∧
  (∀ e, excIsEnabled s.excEnabled e = true → excIsEnabled t.excEnabled e = true)

/-- Every byte outside two 8-byte slots reads as before. -/
def sameMemExceptSlots (s t : State) (a b : Nat) : Prop :=
  ∀ x, (x < a ∨ a + 8 ≤ x) → (x < b ∨ b + 8 ≤ x) → memRead t.mem x = memRead s.mem x

/-- The instruction that step `s` decodes, once the step boundary has been passed. -/
def runs (s : State) (i : Instr) : Prop :=
  ∃ u d, stepBoundary (beginStep s) = .go u ∧ decodeAt u = .ok d ∧ d.instr = i

/-- The bytes are exactly one instruction of the base set, at the reference parameters. -/
def decodesTo (bs : List Byte) (i : Instr) : Prop :=
  decode Params.reference.extRange [] (fun k => bs[k]?) = .ok ⟨i, bs.length, none⟩

/-- The two-operand instructions whose operands may be in memory, that is, all of format B but LEA. -/
def memoryOperandInstrs (sz : Size) (d s : Operand) : List Instr :=
  [.mov sz d s, .add sz d s, .sub sz d s, .mul sz d s, .div sz d s, .cmp sz d s, .lsr sz d s, .lsl sz d s, .asr sz d s,
   .asl sz d s]

/-- The instructions whose rule writes IP (60_exceptions R403, order 4). -/
def writesIp : Instr → Bool
  | .call _ _ | .ret _ | .rti _ | .beq _ _ | .bne _ _ | .bcs _ _ | .bcc _ _ | .bvs _ _ | .bvc _ _ => true
  | _ => false

end Sys2Proof.Machine
end

