-- ==== Sys2Proof/Certificates/Slice0/Obligations.lean ====
section
/-!
DEFINITION. The statements for the provers. Each is about all states or all operands of the model, and its docstring
names the rules of spec/ it formalises. The terms are those of Safety.lean.
-/

section
open Sys2Proof Sys2Proof.Machine

/-! ### Encoding and decoding -/

/-- A few instructions written out byte by byte from 30_encoding R121 to R131 decode to what they stand for; the first
two are the words the source gives. -/
def Obligations.WordsDecodeAsWritten : Prop :=
  decodesTo [0x20, 0x01, 0x03, 0x01, 0x44, 0x33] (.mov .word (.reg 0) (.imm 0 0x4433)) ∧
  decodesTo [0x08, 0x00, 0x01, 0x02] (.call .byte (.imm 0 2)) ∧
  decodesTo [0x21, 0x00, 0x13, 0x03] (.add .byte (.reg 1) (.reg 0)) ∧
  decodesTo [0x10, 0x00, 0x03, 0x01, 0x01] (.lsr .byte (.reg 0) (.imm 0 1)) ∧
  decodesTo [0x26, 0x00, 0x83, 0x95, 0x22] (.lea .byte (.reg 8) (.rel 1 2 2)) ∧
  decodesTo [0x31, 0x00, 0x03] (.pop .byte (.reg 0)) ∧
  decodesTo [0x40, 0x00, 0x01, 0xF7] (.beq .byte (.imm 0 0xF7)) ∧
  decodesTo [0x04, 0x01, 0x03] (.sys .word (.reg 0)) ∧
  decodesTo [0x03, 0x00] (.rti .byte)

/-- Decoding the bytes of a well-formed base instruction gives that instruction and its length, whatever follows them
and whatever is registered, as long as EXT_RANGE holds no class byte (30_encoding R121 to R131, R150, R132). -/
def Obligations.DecodeOfEncode : Prop :=
  ∀ (extRange : List Byte) (exts : List ExtEntry) (f : Fetch) (i : Instr),
    extRangeFree extRange = true → i.wf = true → i.isBase = true →
    (∀ (k : Nat) (b : Byte), (encode i)[k]? = some b → f k = some b) →
    decode extRange exts f = .ok ⟨i, (encode i).length, none⟩

/-- A finished decode of a base instruction consumed exactly the bytes of that instruction: no bit of them is dropped,
and no two byte strings decode to one instruction (30_encoding R121 to R131, R150). R124 and R134 have the register nibble
of Immediate and Absolute and the size field of format Z ignored, and LEA's size field without effect where its source is
no Immediate: that the instruction keeps these bits, so that the encoding has them back, is the model's choice
(notes/assumptions/18.md). -/
def Obligations.EncodeOfDecode : Prop :=
  ∀ (extRange : List Byte) (exts : List ExtEntry) (f : Fetch) (d : Decoded),
    decode extRange exts f = .ok d → d.instr.isBase = true →
    (encode d.instr).length = d.length ∧ ∀ k < d.length, f k = (encode d.instr)[k]?

/-- A finished decode gives a well-formed instruction, of 2 to 20 bytes if it is a base one, and a failed one consumed at
least one byte, the failing one included (30_encoding R130, R133 to R136, R150, R165). -/
def Obligations.DecodedIsWellFormed : Prop :=
  ∀ (extRange : List Byte) (exts : List ExtEntry) (f : Fetch),
    (∀ d, decode extRange exts f = .ok d →
      d.instr.wf = true ∧ 1 ≤ d.length ∧ (d.instr.isBase = true → 2 ≤ d.length ∧ d.length ≤ 20 ∧ d.inst = none)) ∧
    (∀ e, decode extRange exts f = .error e → 1 ≤ e.consumed)

/-- What byte 0 and byte 1 refuse, in the order of 30_encoding R150, with the reasons of R135 and the bytes
consumed; the branches are the classes with an OFF8 operand, whose size code must be 0 (R133). -/
def Obligations.HeaderRefusals : Prop :=
  ∀ (extRange : List Byte) (exts : List ExtEntry) (f : Fetch),
    (f 0 = none → decode extRange exts f = .error ⟨.memoryOutOfBounds, 1⟩) ∧
    (∀ op, f 0 = some op → extRange.contains op = true → (∀ e ∈ exts, e.opcode ≠ op) →
      decode extRange exts f = .error ⟨.unknownExtension, 1⟩) ∧
    (∀ op, f 0 = some op → extRange.contains op = false → (∀ c, opcodeByte c ≠ op) →
      decode extRange exts f = .error ⟨.unknownOpcode, 1⟩) ∧
    (∀ c, f 0 = some (opcodeByte c) → extRange.contains (opcodeByte c) = false →
      (f 1 = none → decode extRange exts f = .error ⟨.memoryOutOfBounds, 2⟩) ∧
      (∀ b, f 1 = some b → b.extractLsb' 2 4 ≠ 0 → decode extRange exts f = .error ⟨.reservedBits, 2⟩) ∧
      (∀ b, f 1 = some b → b.extractLsb' 2 4 = 0 → (b.getLsbD 7 = true ∨ b.getLsbD 6 = true) → c ≠ .b .mov →
        decode extRange exts f = .error ⟨.invalidAddressing, 2⟩)) ∧
    (∀ (c : UClass) (b : Byte), c ∈ [.beq, .bne, .bcs, .bcc, .bvs, .bvc] → f 0 = some (opcodeByte (.u c)) →
      extRange.contains (opcodeByte (.u c)) = false → f 1 = some b → b.extractLsb' 2 4 = 0 →
      b.extractLsb' 0 2 ≠ 0 → decode extRange exts f = .error ⟨.invalidAddressing, 2⟩)

/-- A descriptor byte passes the check exactly under the four tests of 30_encoding R151: a mode code of 1 to 5; with the
control-register flag, which only MOV's roles meet (R123), Register mode and an index of 8 or more; a mode the role admits
(R133); and an address register as the base of RegisterRelative. -/
def Obligations.DescriptorCheck : Prop :=
  ∀ (b : Byte) (role : Role) (cr : Bool), (cr = true → role = .read ∨ role = .write) →
    ((checkDescriptor b role cr).isSome = true ↔
      (1 ≤ b.toNat % 16 ∧ b.toNat % 16 ≤ 5) ∧
      (cr = true → b.toNat % 16 = 3 ∧ 8 ≤ b.toNat / 16) ∧
      (b.toNat % 16 = 1 → role ≠ .write ∧ role ≠ .readWrite ∧ role ≠ .addrReg) ∧
      (b.toNat % 16 = 3 → role ≠ .offset ∧ role ≠ .offset8 ∧ role ≠ .effAddr ∧
        (role = .addrReg → 8 ≤ b.toNat / 16)) ∧
      (b.toNat % 16 = 2 ∨ b.toNat % 16 = 4 ∨ b.toNat % 16 = 5 →
        role ≠ .count ∧ role ≠ .offset ∧ role ≠ .offset8 ∧ role ≠ .addrReg) ∧
      (b.toNat % 16 = 5 → 8 ≤ b.toNat / 16))

/-- The decoder state machine, ticked from Idle often enough, ends as the whole decode does; for a byte 0 outside
EXT_RANGE one tick is enough (30_encoding R161 to R164, 70_reset_and_hazards R501). That a registered extension's decode
ends after some number of ticks is the model's choice, which 43_system_ext R344 and 70_reset_and_hazards R495 permit:
notes/assumptions/8.md. -/
def Obligations.TicksReachDecode : Prop :=
  ∀ (extRange : List Byte) (exts : List ExtEntry) (f : Fetch),
    (∃ n, ∀ m, n ≤ m → tickMany extRange exts f m .idle = (decode extRange exts f).map DecoderState.finished) ∧
    ((∀ op, f 0 = some op → extRange.contains op = false) →
      ∀ m, 1 ≤ m → tickMany extRange exts f m .idle = (decode extRange exts f).map DecoderState.finished)

/-! ### The step -/

/-- A step whose decode finishes runs the decoded instruction, on the state with IP at `end`, the decoder Finished and
the record written, nothing else of it changed but the step result begun at `ok`; the same holds for the decode and
execute phases of any step, such as the one that has entered a handler, and those phases are what a step goes on to from
its boundary (60_exceptions R400, R432, 30_encoding R150, 10_state R60). -/
def Obligations.StepRunsDecodedInstruction : Prop :=
  (∀ (s : State) (d : Decoded), s.flags.h = false → noTrapReady s = true → decodeAt s = .ok d →
    step s = exec d.instr { s with
      result := .ok
      ip := s.ip + BitVec.ofNat 64 d.length
      dstate := .finished
      extInstance := d.inst
      record := some ⟨d.instr, s.ip, s.ip + BitVec.ofNat 64 d.length, s.regs, s.flags, s.isr⟩ }) ∧
  (∀ (u : State) (d : Decoded), decodeAt u = .ok d →
    fetchAndExecute u = exec d.instr { u with
      ip := u.ip + BitVec.ofNat 64 d.length
      dstate := .finished
      extInstance := d.inst
      record := some ⟨d.instr, u.ip, u.ip + BitVec.ofNat 64 d.length, u.regs, u.flags, u.isr⟩ }) ∧
  (∀ s u : State, s.flags.h = false → stepBoundary (beginStep s) = .go u → step s = fetchAndExecute u)

/-- A step always answers a next state, no fault and no refusal of the model is ever reached, and it writes neither the
parameters nor the registries (60_exceptions R400, 10_state R57). That it answers rests on two choices of the model: every
extension decoder ends, which 43_system_ext R344 and 70_reset_and_hazards R495 permit (notes/assumptions/8.md), and a
failing step is a next state whose result says so (notes/assumptions/6.md). -/
def Obligations.StepAlwaysGoesOn : Prop :=
  ∀ s : State, ∃ t, step s = .next t ∧ t.cfg = s.cfg ∧ t.syscalls = s.syscalls ∧ t.extensions = s.extensions

/-- A halted step changes nothing and reports success, so no step clears H; only a BRK or a trap-entry fault sets it, and a
BRK does; of the host's transactions Reset alone clears it, and none sets it (10_state R44, 60_exceptions R400, R435,
R454; the trap-entry fault is TrapEntryFaultHalts). -/
def Obligations.HaltOnlyByBrkOrTrapFault : Prop :=
  (∀ s : State, s.flags.h = true → step s = .next { s with result := .ok }) ∧
  (∀ s t : State, step s = .next t → s.flags.h = false → t.flags.h = true →
    t.result = .fail .trapEntryFault ∨ (t.result = .ok ∧ ∃ sz, runs s (.brk sz))) ∧
  (∀ (s t : State) (sz : Size), step s = .next t → s.flags.h = false → runs s (.brk sz) → t.flags.h = true) ∧
  (∀ (s t : State) (op : HostOp), hostOp s op = .ok t →
    (op = .reset → t.flags.h = false) ∧ (op ≠ .reset → t.flags.h = s.flags.h))

/-- A step that fails in its decode or execute phase leaves the state `u` in which that phase began as it was, but for IP,
the pending exception and the diagnostic state: IP is past the bytes consumed, or at `end` for an execution fault, and
the exception is pending if its line is enabled. With no trap ready `u` is the state the step began in. A step whose decode
fails does fail, with the decode's reason. The reasons and the exceptions they raise are those of the table of R411
(60_exceptions R411, R413, R432, 40_move_arith R199). -/
def Obligations.FailingStepChangesOnlyIp : Prop :=
  (∀ (s u t : State) (r : Reason), s.flags.h = false → stepBoundary (beginStep s) = .go u → step s = .next t →
    t.result = .fail r →
    t.regs = u.regs ∧ t.flags = u.flags ∧ t.mem = u.mem ∧ t.isr = u.isr ∧ t.irqPending = u.irqPending ∧
    t.irqEnabled = u.irqEnabled ∧ t.excEnabled = u.excEnabled ∧ t.cfg = u.cfg ∧ t.syscalls = u.syscalls ∧
    t.extensions = u.extensions ∧
    ((∃ e, decodeAt u = .error e ∧ r = decodeReason e.reason ∧ t.ip = u.ip + BitVec.ofNat 64 e.consumed) ∨
     (∃ d, decodeAt u = .ok d ∧ t.ip = u.ip + BitVec.ofNat 64 d.length)) ∧
    t.excPending = pendingAfter u.excEnabled none r) ∧
  (∀ s : State, noTrapReady s = true → stepBoundary (beginStep s) = .go { s with result := .ok }) ∧
  (∀ (u : State) (e : DecodeError), decodeAt u = .error e →
    fetchAndExecute u = .next { u with
      ip := u.ip + BitVec.ofNat 64 e.consumed
      dstate := .idle
      extInstance := none
      result := .fail (decodeReason e.reason)
      excPending := pendingAfter u.excEnabled u.excPending (decodeReason e.reason) }) ∧
  (decodeReason .unknownOpcode = .unknownOpcode ∧ decodeReason .unknownExtension = .unknownExtension ∧
    decodeReason .reservedBits = .reservedBits ∧ decodeReason .invalidAddressing = .invalidAddressing ∧
    decodeReason .extensionDecodeFailed = .extensionDecodeFailed ∧
    decodeReason .memoryOutOfBounds = .memoryOutOfBounds) ∧
  (reasonExc .unknownOpcode = some .invalidInstruction ∧ reasonExc .unknownExtension = some .invalidInstruction ∧
    reasonExc .reservedBits = some .invalidInstruction ∧ reasonExc .invalidAddressing = some .invalidInstruction ∧
    reasonExc .extensionDecodeFailed = some .invalidInstruction ∧
    reasonExc .memoryOutOfBounds = some .memoryOutOfBounds ∧ reasonExc .divisionByZero = some .divisionByZero ∧
    reasonExc .unknownSyscall = some .unknownSyscall ∧ (∀ e, reasonExc (.extensionFault e) = some e) ∧
    reasonExc .trapEntryFault = none)

/-- Within an execute phase only CALL, RET, RTI and the branches write IP (10_state R39, 60_exceptions R403). -/
def Obligations.OnlyControlFlowWritesIp : Prop :=
  ∀ (i : Instr) (s t : State), writesIp i = false → exec i s = .next t → t.ip = s.ip

/-- Only RTI leaves the Executing state (10_state R50, 60_exceptions R433). -/
def Obligations.OnlyRtiLeavesExecuting : Prop :=
  ∀ s t : State, step s = .next t → s.isr = .executing → t.isr = .idle → ∃ sz, runs s (.rti sz)

/-- The state after reset meets the invariant. -/
def Obligations.ResetMeetsInvariant : Prop := State.reset.Inv

/-- Every step keeps the invariant: memory canonical and inside MEM_SIZE, one pending and enable bit for each line, a
pending exception only of an enabled line, the decoder out of Extension between steps, the registries without duplicates
(20_memory R80, 10_state R51 to R56, 60_exceptions R413, 43_system_ext R332, R341). -/
def Obligations.StepKeepsInvariant : Prop := ∀ s t : State, s.Inv → step s = .next t → t.Inv

/-- Every host transaction keeps the invariant (00_scope R11 to R14). -/
def Obligations.HostOpsKeepInvariant : Prop := ∀ (s t : State) (op : HostOp), s.Inv → hostOp s op = .ok t → t.Inv

/-! ### Registers, memory and operands -/

/-- A register index selects D0 to D7 for 0 to 7 and A0 to A7 for 8 to 15, SP is index 15, and a read at a size is the
low bits of the cell (10_state R31, R34, R35). -/
def Obligations.RegisterIndexAndRead : Prop :=
  ∀ (s : State) (r : RegIdx) (sz : Size),
    (r.toNat < 8 → getReg s r = bankGet s.regs.d (BitVec.ofNat 3 r.toNat)) ∧
    (8 ≤ r.toNat → getReg s r = bankGet s.regs.a (BitVec.ofNat 3 (r.toNat - 8))) ∧
    getReg s 15#4 = getSp s ∧ getSp s = s.regs.a.r7 ∧
    readLoc s sz (.reg r) = .ok ((getReg s r).toNat % 2 ^ sz.width)

/-- A sized write of a register, a control register or SP replaces the low bits, keeps every other bit of the cell and
every other cell; at Long the whole cell is written; 0x44 written at Byte over 0x4433 gives 0x4444 (10_state R36). -/
def Obligations.SizedWriteKeepsOtherBits : Prop :=
  (∀ (s : State) (r : RegIdx) (sz : Size) (v : Nat), ∃ t, writeLoc s sz (.reg r) v = .ok t ∧
    (getReg t r).toNat = (getReg s r).toNat / 2 ^ sz.width * 2 ^ sz.width + v % 2 ^ sz.width ∧
    (sz = .long → getReg t r = BitVec.ofNat 64 v) ∧ sameRegsExcept s t r ∧ sameCrs s t ∧ t = s.withRegs t.regs) ∧
  (∀ (s : State) (n : CellIdx) (sz : Size) (v : Nat), ∃ t, writeLoc s sz (.creg n) v = .ok t ∧
    (getCr t n).toNat = (getCr s n).toNat / 2 ^ sz.width * 2 ^ sz.width + v % 2 ^ sz.width ∧
    (sz = .long → getCr t n = BitVec.ofNat 64 v) ∧ sameRegs s t ∧ (∀ n', n' ≠ n → getCr t n' = getCr s n') ∧
    t = s.withRegs t.regs) ∧
  (∀ (s : State), getReg s 0 = 0x4433 → ∃ t, writeLoc s .byte (.reg 0) 0x44 = .ok t ∧ getReg t 0 = 0x4444)

/-- Memory is big-endian: after a store of `n` bytes the byte at `a + k` is byte `n - 1 - k` of the value, a load of the
`n` bytes gives the value modulo `2^(8n)`, a byte load sees one byte of it, and no other byte changes; and a load of `n`
bytes, whatever wrote them, is the number whose byte `n - 1 - k` is the byte at `a + k` (20_memory R81, R83). The canonical
form is kept, and memories of that form that read alike are equal. -/
def Obligations.MemoryIsBigEndian : Prop :=
  (∀ (m : Memory) (a n v : Nat), Memory.wf m = true →
    Memory.wf (memWriteN m a n v) = true ∧
    memReadN (memWriteN m a n v) a n = v % 2 ^ (8 * n) ∧
    (∀ k < n, memRead (memWriteN m a n v) (a + k) = BitVec.ofNat 8 (v / 2 ^ (8 * (n - 1 - k)))) ∧
    (∀ k < n, memReadN (memWriteN m a n v) (a + k) 1 = v / 2 ^ (8 * (n - 1 - k)) % 256) ∧
    (∀ x, x < a ∨ a + n ≤ x → memRead (memWriteN m a n v) x = memRead m x)) ∧
  (∀ (m : Memory) (a n : Nat), memReadN m a n < 2 ^ (8 * n) ∧
    ∀ k < n, memReadN m a n / 2 ^ (8 * (n - 1 - k)) % 256 = (memRead m (a + k)).toNat) ∧
  (∀ m m' : Memory, Memory.wf m = true → Memory.wf m' = true → (∀ a, memRead m a = memRead m' a) → m = m')

/-- An access of `n` bytes at `a` succeeds exactly when `a + n <= MEM_SIZE`, on unbounded integers and with no
alignment; outside, it raises MemoryOutOfBounds, and an execute phase ended so writes no byte. A fetch reads the byte at
`IP + k` modulo `2^64` if that is below MEM_SIZE, and no byte otherwise (20_memory R84, R85, 10_state R38). -/
def Obligations.BoundsCheck : Prop :=
  (∀ (s : State) (a : Word) (n v : Nat),
    (a.toNat + n ≤ s.cfg.memSize →
      readMem s a n = .ok (memReadN s.mem a.toNat n) ∧
      writeMem s a n v = .ok (s.withMem (memWriteN s.mem a.toNat n v))) ∧
    (s.cfg.memSize < a.toNat + n →
      readMem s a n = .error (.raise .memoryOutOfBounds) ∧ writeMem s a n v = .error (.raise .memoryOutOfBounds) ∧
      ∃ t, finish s (writeMem s a n v) = .next t ∧ faulted s t .memoryOutOfBounds)) ∧
  (∀ (s : State) (k : Nat),
    ((s.ip.toNat + k) % 2 ^ 64 < s.cfg.memSize → fetchByte s k = some (memRead s.mem ((s.ip.toNat + k) % 2 ^ 64))) ∧
    (s.cfg.memSize ≤ (s.ip.toNat + k) % 2 ^ 64 → fetchByte s k = none))

/-- A byte stored by one step is the byte a later fetch reads there (20_memory R108, 70_reset_and_hazards R492). -/
def Obligations.FetchSeesStores : Prop :=
  ∀ (s t : State) (a : Word) (n v k j : Nat), Memory.wf s.mem = true → writeMem s a n v = .ok t → j < n →
    (t.ip + BitVec.ofNat 64 k).toNat = a.toNat + j →
    fetchByte t k = some (BitVec.ofNat 8 (v / 2 ^ (8 * (n - 1 - j))))

/-- The location and the effective address of an operand of each mode (20_memory R91 to R98): RegisterRelative adds the
whole index register shifted left to the address register, modulo `2^64`; no effective address depends on memory. -/
def Obligations.OperandLocations : Prop :=
  ∀ (s : State) (r : RegIdx) (n : CellIdx) (idx : RegIdx) (sh : BitVec 3) (v : Word),
    resolve s (.imm r v) = .imm v.toNat ∧ resolve s (.abs r v) = .mem v ∧ resolve s (.reg r) = .reg r ∧
    resolve s (.creg n) = .creg n ∧ resolve s (.ind r) = .mem (getReg s r) ∧
    effAddr s (.imm r v) = none ∧ effAddr s (.abs r v) = some v ∧ effAddr s (.reg r) = none ∧
    effAddr s (.creg n) = none ∧ effAddr s (.ind r) = some (getReg s r) ∧
    (∀ (m : Memory) (o : Operand), effAddr (s.withMem m) o = effAddr s o) ∧
    ∃ a : Word, resolve s (.rel n idx sh) = .mem a ∧ effAddr s (.rel n idx sh) = some a ∧
      a.toNat = ((bankGet s.regs.a n).toNat + (getReg s idx).toNat * 2 ^ sh.toNat % 2 ^ 64) % 2 ^ 64

/-! ### MOV and arithmetic -/

/-- MOV copies the source to the destination at size, sets Z and N from the value and keeps every other flag
(40_move_arith R200, R201). -/
def Obligations.MovCopies : Prop :=
  ∀ (sz : Size) (d s : Operand) (st : State), Memory.wf st.mem = true →
    writable st sz (resolve st d) = true → readable st sz (resolve st s) = true →
    ∃ t, exec (.mov sz d s) st = .next t ∧
      locView t sz (resolve st d) = locView st sz (resolve st s) ∧
      t.flags = ⟨st.flags.c, st.flags.v, decide (locView st sz (resolve st s) = 0),
        (locView st sz (resolve st s)).testBit (sz.width - 1), st.flags.x, st.flags.h⟩ ∧
      sameOutside st t sz (resolve st d) ∧ t.ip = st.ip ∧ sameControl st t

/-- ADD: the sum modulo `2^w`, C for unsigned overflow, V for signed overflow (40_move_arith R210). -/
def Obligations.AddResult : Prop :=
  ∀ (sz : Size) (d s : Operand) (st : State) (w a b r : Nat), Memory.wf st.mem = true →
    writable st sz (resolve st d) = true → readable st sz (resolve st s) = true →
    w = sz.width → a = locView st sz (resolve st d) → b = locView st sz (resolve st s) → r = (a + b) % 2 ^ w →
    ∃ t, exec (.add sz d s) st = .next t ∧
      arithmeticDone st t sz (resolve st d) r (decide (2 ^ w ≤ a + b))
        (decide (a.testBit (w - 1) = b.testBit (w - 1) ∧ r.testBit (w - 1) ≠ a.testBit (w - 1)))

/-- SUB: the difference modulo `2^w`, C for borrow, V for signed overflow (40_move_arith R215). -/
def Obligations.SubResult : Prop :=
  ∀ (sz : Size) (d s : Operand) (st : State) (w a b r : Nat), Memory.wf st.mem = true →
    writable st sz (resolve st d) = true → readable st sz (resolve st s) = true →
    w = sz.width → a = locView st sz (resolve st d) → b = locView st sz (resolve st s) →
    r = (a + (2 ^ w - b)) % 2 ^ w →
    ∃ t, exec (.sub sz d s) st = .next t ∧
      arithmeticDone st t sz (resolve st d) r (decide (a < b))
        (decide (a.testBit (w - 1) ≠ b.testBit (w - 1) ∧ r.testBit (w - 1) ≠ a.testBit (w - 1)))

/-- MUL: the low `w` bits of the unsigned product, C and V when it does not fit (40_move_arith R220). -/
def Obligations.MulResult : Prop :=
  ∀ (sz : Size) (d s : Operand) (st : State) (w a b : Nat), Memory.wf st.mem = true →
    writable st sz (resolve st d) = true → readable st sz (resolve st s) = true →
    w = sz.width → a = locView st sz (resolve st d) → b = locView st sz (resolve st s) →
    ∃ t, exec (.mul sz d s) st = .next t ∧
      arithmeticDone st t sz (resolve st d) (a * b % 2 ^ w) (decide (2 ^ w ≤ a * b)) (decide (2 ^ w ≤ a * b))

/-- DIV: the unsigned quotient, C, V and X cleared; a divisor whose view at size is 0 raises DivisionByZero with no other
effect (40_move_arith R225). -/
def Obligations.DivResult : Prop :=
  ∀ (sz : Size) (d s : Operand) (st : State) (a b : Nat), readable st sz (resolve st s) = true →
    a = locView st sz (resolve st d) → b = locView st sz (resolve st s) →
    (Memory.wf st.mem = true → writable st sz (resolve st d) = true → b ≠ 0 →
      ∃ t, exec (.div sz d s) st = .next t ∧ arithmeticDone st t sz (resolve st d) (a / b) false false) ∧
    (readable st sz (resolve st d) = true → b = 0 →
      ∃ t, exec (.div sz d s) st = .next t ∧ faulted st t .divisionByZero)

/-- CMP writes exactly the flags SUB writes, and nothing else (40_move_arith R230). -/
def Obligations.CmpSetsSubFlags : Prop :=
  ∀ (sz : Size) (d s : Operand) (st : State) (w a b r : Nat),
    readable st sz (resolve st d) = true → readable st sz (resolve st s) = true →
    w = sz.width → a = locView st sz (resolve st d) → b = locView st sz (resolve st s) →
    r = (a + (2 ^ w - b)) % 2 ^ w →
    exec (.cmp sz d s) st = .next { st with flags := ⟨decide (a < b),
      decide (a.testBit (w - 1) ≠ b.testBit (w - 1) ∧ r.testBit (w - 1) ≠ a.testBit (w - 1)),
      decide (r = 0), r.testBit (w - 1), decide (a < b), st.flags.h⟩ }

/-- V of ADD and SUB says that the two's-complement result does not fit in `w` bits (40_move_arith R236). -/
def Obligations.OverflowIsSignedOverflow : Prop :=
  ∀ w a b : Nat, 0 < w → a < 2 ^ w → b < 2 ^ w →
    (aluAdd w a b).v = decide (signedOf w (aluAdd w a b).value ≠ signedOf w a + signedOf w b) ∧
    (aluSub w a b).v = decide (signedOf w (aluSub w a b).value ≠ signedOf w a - signedOf w b) ∧
    signedOf w a = (BitVec.ofNat w a).toInt

/-! ### Shifts -/

/-- LSR (42_shift_branch R280): zero fill, C the last bit shifted out, V cleared, for every count. -/
def Obligations.LsrResult : Prop :=
  ∀ (sz : Size) (d s : Operand) (st : State) (w a n : Nat), Memory.wf st.mem = true →
    writable st sz (resolve st d) = true → readable st sz (resolve st s) = true →
    w = sz.width → a = locView st sz (resolve st d) → n = locView st sz (resolve st s) →
    ∃ t, exec (.lsr sz d s) st = .next t ∧
      arithmeticDone st t sz (resolve st d) (a / 2 ^ n) (decide (n ≠ 0) && a.testBit (n - 1)) false

/-- LSL (42_shift_branch R281): zero fill, C the last bit shifted out, V cleared, for every count. -/
def Obligations.LslResult : Prop :=
  ∀ (sz : Size) (d s : Operand) (st : State) (w a n : Nat), Memory.wf st.mem = true →
    writable st sz (resolve st d) = true → readable st sz (resolve st s) = true →
    w = sz.width → a = locView st sz (resolve st d) → n = locView st sz (resolve st s) →
    ∃ t, exec (.lsl sz d s) st = .next t ∧
      arithmeticDone st t sz (resolve st d) (a * 2 ^ n % 2 ^ w)
        (decide (n ≠ 0) && decide (n ≤ w) && a.testBit (w - n)) false

/-- ASR (42_shift_branch R282): sign fill, the floor of the signed value over `2^n`, C the last bit shifted out, V
cleared, for every count. -/
def Obligations.AsrResult : Prop :=
  ∀ (sz : Size) (d s : Operand) (st : State) (w a n : Nat), Memory.wf st.mem = true →
    writable st sz (resolve st d) = true → readable st sz (resolve st s) = true →
    w = sz.width → a = locView st sz (resolve st d) → n = locView st sz (resolve st s) →
    ∃ t, exec (.asr sz d s) st = .next t ∧
      arithmeticDone st t sz (resolve st d) ((BitVec.ofNat w a).toInt / 2 ^ n % 2 ^ w).toNat
        (decide (n ≠ 0) && (if n ≤ w then a.testBit (n - 1) else a.testBit (w - 1))) false

/-- ASL (42_shift_branch R283): the result and carry of LSL, V when the top `n + 1` bits are not all equal or, for a
count of `w` or more, when the value is not 0. -/
def Obligations.AslResult : Prop :=
  ∀ (sz : Size) (d s : Operand) (st : State) (w a n : Nat), Memory.wf st.mem = true →
    writable st sz (resolve st d) = true → readable st sz (resolve st s) = true →
    w = sz.width → a = locView st sz (resolve st d) → n = locView st sz (resolve st s) →
    ∃ t, exec (.asl sz d s) st = .next t ∧
      arithmeticDone st t sz (resolve st d) (a * 2 ^ n % 2 ^ w)
        (decide (n ≠ 0) && decide (n ≤ w) && a.testBit (w - n))
        (decide (if n < w then ∃ k ≤ n, a.testBit (w - 1 - k) ≠ a.testBit (w - 1) else a ≠ 0))

/-- Every shift by `n + 1` is a shift by `n` and one single-bit shift: C is the bit that the last one shifts out, and
V of ASL says whether the sign bit changed at some single-bit shift (42_shift_branch R278, R283). -/
def Obligations.ShiftsAreSingleShifts : Prop :=
  ∀ w a n : Nat, 0 < w → a < 2 ^ w →
    ((aluLsr w a 0).value = a ∧ (aluLsl w a 0).value = a ∧ (aluAsr w a 0).value = a ∧ (aluAsl w a 0).value = a ∧
      (aluLsr w a 0).c = false ∧ (aluLsl w a 0).c = false ∧ (aluAsr w a 0).c = false ∧ (aluAsl w a 0).c = false ∧
      (aluAsl w a 0).v = false) ∧
    ((aluLsr w a (n + 1)).value = (aluLsr w a n).value / 2 ∧
      (aluLsr w a (n + 1)).c = (aluLsr w a n).value.testBit 0) ∧
    ((aluLsl w a (n + 1)).value = (aluLsl w a n).value * 2 % 2 ^ w ∧
      (aluLsl w a (n + 1)).c = (aluLsl w a n).value.testBit (w - 1)) ∧
    ((aluAsr w a (n + 1)).value =
        (aluAsr w a n).value / 2 + (if (aluAsr w a n).value.testBit (w - 1) then 2 ^ (w - 1) else 0) ∧
      (aluAsr w a (n + 1)).c = (aluAsr w a n).value.testBit 0) ∧
    ((aluAsl w a (n + 1)).value = (aluAsl w a n).value * 2 % 2 ^ w ∧
      (aluAsl w a (n + 1)).c = (aluAsl w a n).value.testBit (w - 1) ∧
      (aluAsl w a (n + 1)).v = ((aluAsl w a n).v ||
        ((aluAsl w a n).value.testBit (w - 1) != (aluAsl w a (n + 1)).value.testBit (w - 1))))

/-! ### Stack, call, return and LEA -/

/-- PUSH stores the operand's pre-state value, zero-extended, in the 8-byte slot below SP and moves SP there
(41_stack_call_lea R240, R241). -/
def Obligations.PushResult : Prop :=
  ∀ (sz : Size) (d : Operand) (st : State), Memory.wf st.mem = true → readable st sz (resolve st d) = true →
    inBounds st (getSp st - 8#64).toNat 8 = true →
    ∃ t, exec (.push sz d) st = .next t ∧ getSp t = getSp st - 8#64 ∧
      memReadN t.mem (getSp st - 8#64).toNat 8 = locView st sz (resolve st d) ∧
      sameRegsExcept st t 15#4 ∧ sameCrs st t ∧ sameMemExcept st t (getSp st - 8#64).toNat 8 ∧
      t.flags = st.flags ∧ t.ip = st.ip ∧ sameControl st t

/-- POP writes the low bits of the slot at SP to its destination, after SP has moved up by 8, so that a popped SP wins;
nothing else changes (41_stack_call_lea R240, R245, 10_state R46). -/
def Obligations.PopResult : Prop :=
  ∀ (sz : Size) (d : Operand) (st : State), Memory.wf st.mem = true → writable st sz (resolve st d) = true →
    inBounds st (getSp st).toNat 8 = true →
    ∃ t, exec (.pop sz d) st = .next t ∧
      locView t sz (resolve st d) = memReadN st.mem (getSp st).toNat 8 % 2 ^ sz.width ∧
      sameOutside (setSp st (getSp st + 8#64)) t sz (resolve st d) ∧
      (resolve st d ≠ .reg 15#4 → getSp t = getSp st + 8#64) ∧
      t.flags = st.flags ∧ t.ip = st.ip ∧ sameControl st t

/-- A POP right after a PUSH, of whatever sizes, gets the pushed value cut to its size and brings SP back
(41_stack_call_lea R240, R245). -/
def Obligations.PopUndoesPush : Prop :=
  ∀ (sz sz' : Size) (d d' : Operand) (st t : State), Memory.wf st.mem = true →
    readable st sz (resolve st d) = true → inBounds st (getSp st - 8#64).toNat 8 = true →
    exec (.push sz d) st = .next t → writable t sz' (resolve t d') = true →
    ∃ u, exec (.pop sz' d') t = .next u ∧
      locView u sz' (resolve t d') = locView st sz (resolve st d) % 2 ^ sz'.width ∧
      sameOutside (setSp t (getSp st)) u sz' (resolve t d') ∧ (resolve t d' ≠ .reg 15#4 → getSp u = getSp st)

/-- CALL pushes the address after itself and goes to it plus the sign-extended offset (41_stack_call_lea R250). -/
def Obligations.CallResult : Prop :=
  ∀ (sz : Size) (nib : RegIdx) (v : Word) (st : State), Memory.wf st.mem = true →
    inBounds st (getSp st - 8#64).toNat 8 = true →
    ∃ t, exec (.call sz (.imm nib v)) st = .next t ∧
      t.ip = st.ip + BitVec.ofInt 64 (signedOf sz.width (v.toNat % 2 ^ sz.width)) ∧
      getSp t = getSp st - 8#64 ∧ memReadN t.mem (getSp st - 8#64).toNat 8 = st.ip.toNat ∧
      sameRegsExcept st t 15#4 ∧ sameCrs st t ∧ sameMemExcept st t (getSp st - 8#64).toNat 8 ∧
      t.flags = st.flags ∧ sameControl st t

/-- RET pops the top slot into IP (41_stack_call_lea R255). -/
def Obligations.RetResult : Prop :=
  ∀ (sz : Size) (st : State), inBounds st (getSp st).toNat 8 = true →
    ∃ t, exec (.ret sz) st = .next t ∧ t.ip = BitVec.ofNat 64 (memReadN st.mem (getSp st).toNat 8) ∧
      getSp t = getSp st + 8#64 ∧ sameRegsExcept st t 15#4 ∧ sameCrs st t ∧ t.mem = st.mem ∧ t.flags = st.flags ∧
      sameControl st t

/-- A RET right after a CALL, wherever the CALL went, continues after the CALL with every register and flag as before it
(41_stack_call_lea R250, R255). -/
def Obligations.RetUndoesCall : Prop :=
  ∀ (sz sz' : Size) (nib : RegIdx) (v : Word) (st t : State), Memory.wf st.mem = true →
    inBounds st (getSp st - 8#64).toNat 8 = true → exec (.call sz (.imm nib v)) st = .next t →
    ∃ u, exec (.ret sz') t = .next u ∧ u.ip = st.ip ∧ u.regs = st.regs ∧ u.flags = st.flags

/-- LEA writes all 64 bits of its address register with the literal or the effective address, whatever the size, reads no
memory and changes nothing else (41_stack_call_lea R260). -/
def Obligations.LeaResult : Prop :=
  ∀ (sz : Size) (r nib : RegIdx) (v : Word) (q idx : RegIdx) (n : CellIdx) (sh : BitVec 3) (st : State),
    8 ≤ r.toNat →
    exec (.lea sz (.reg r) (.imm nib v)) st = .next (setReg st r (BitVec.ofNat 64 (v.toNat % 2 ^ sz.width))) ∧
    exec (.lea sz (.reg r) (.abs nib v)) st = .next (setReg st r v) ∧
    exec (.lea sz (.reg r) (.ind q)) st = .next (setReg st r (getReg st q)) ∧
    exec (.lea sz (.reg r) (.rel n idx sh)) st = .next (setReg st r
      (BitVec.ofNat 64 ((bankGet st.regs.a n).toNat + (getReg st idx).toNat * 2 ^ sh.toNat))) ∧
    (∀ x : Word, getReg (setReg st r x) r = x ∧ sameRegsExcept st (setReg st r x) r ∧ sameCrs st (setReg st r x) ∧
      setReg st r x = st.withRegs (setReg st r x).regs)

/-! ### Branches and system instructions -/

/-- Each branch is taken, to `end` plus the sign-extended 8-bit offset, exactly when its flag says so; otherwise IP stays
at `end`; nothing else changes. BRK sets H alone; NOP changes nothing (42_shift_branch R290 to R296, 43_system_ext R320,
R325). -/
def Obligations.BranchBrkNopResult : Prop :=
  ∀ (sz : Size) (nib : RegIdx) (v target : Word) (st : State),
    target = st.ip + BitVec.ofInt 64 (signedOf 8 (v.toNat % 256)) →
    exec (.beq sz (.imm nib v)) st = .next { st with ip := if st.flags.z = true then target else st.ip } ∧
    exec (.bne sz (.imm nib v)) st = .next { st with ip := if st.flags.z = false then target else st.ip } ∧
    exec (.bcs sz (.imm nib v)) st = .next { st with ip := if st.flags.c = true then target else st.ip } ∧
    exec (.bcc sz (.imm nib v)) st = .next { st with ip := if st.flags.c = false then target else st.ip } ∧
    exec (.bvs sz (.imm nib v)) st = .next { st with ip := if st.flags.v = true then target else st.ip } ∧
    exec (.bvc sz (.imm nib v)) st = .next { st with ip := if st.flags.v = false then target else st.ip } ∧
    exec (.brk sz) st = .next { st with flags := { st.flags with h := true } } ∧
    exec (.nop sz) st = .next st

/-- RTI pops the status word, restores C, V, Z, N and X from it and keeps H, pops IP, and makes the ISR state Idle,
whatever it was (43_system_ext R335, 10_state R43). -/
def Obligations.RtiResult : Prop :=
  ∀ (sz : Size) (st : State) (w : Nat), inBounds st (getSp st).toNat 16 = true →
    w = memReadN st.mem (getSp st).toNat 8 →
    ∃ t, exec (.rti sz) st = .next t ∧
      t.ip = BitVec.ofNat 64 (memReadN st.mem (getSp st + 8#64).toNat 8) ∧
      t.flags = ⟨w.testBit 0, w.testBit 1, w.testBit 2, w.testBit 3, w.testBit 4, st.flags.h⟩ ∧
      t.isr = .idle ∧ getSp t = getSp st + 16#64 ∧ sameRegsExcept st t 15#4 ∧ sameCrs st t ∧ t.mem = st.mem ∧
      sameControl (st.withIsr .idle) t

/-- SYS with a registered id invokes that callback once; of the core, the callback changes only D, A, CR, the flags C, V,
Z, N and X, memory, and it may set pending and enable bits. An id that is not registered raises UnknownSyscall with no
other effect (43_system_ext R330, R331). -/
def Obligations.SysResult : Prop :=
  ∀ (sz : Size) (d : Operand) (st : State) (id : Nat), readable st sz (resolve st d) = true →
    id = locView st sz (resolve st d) →
    (∀ e ∈ st.syscalls, (st.syscalls.map SyscallEntry.id).Nodup → e.id.toNat = id →
      ∃ t, exec (.sys sz d) st = .next t ∧ t = (callbackActions e.callback st).foldl applyAction st.countHostCall ∧
        hostLimits st t ∧ bitsKept st t) ∧
    ((∀ e ∈ st.syscalls, e.id.toNat ≠ id) → ∃ t, exec (.sys sz d) st = .next t ∧ faulted st t .unknownSyscall)

/-- An extension instruction has the effect its registered executor reports, which of the core is D, A, CR, C, V, Z, N, X
and memory only; a fault the executor reports leaves no effect but the routed exception (43_system_ext R345,
60_exceptions R411). What the executor reports depends on no flag and not on IP (10_state R42): it depends on its handle,
the register file and memory and, by the model's choice, MEM_SIZE and the count of host transitions
(notes/assumptions/9.md). -/
def Obligations.ExtResult : Prop :=
  (∀ (op : Byte) (handle : Nat) (st : State) (e : ExtEntry), (st.extensions.map ExtEntry.opcode).Nodup →
    e ∈ st.extensions → e.opcode = op →
    (∀ ws, executorOutcome e.executor handle st = .ok ws →
      ∃ t, exec (.ext op handle) st = .next t ∧ t = ws.foldl applyWrite st.countHostCall ∧ hostLimits st t ∧
        t.irqPending = st.irqPending ∧ t.irqEnabled = st.irqEnabled ∧ t.excEnabled = st.excEnabled) ∧
    (∀ x, executorOutcome e.executor handle st = .fault x →
      ∃ t, exec (.ext op handle) st = .next t ∧ faulted st.countHostCall t (.extensionFault x))) ∧
  (∀ (ex : ExtExecutor) (handle : Nat) (s t : State), t.regs = s.regs → t.mem = s.mem →
    t.cfg.memSize = s.cfg.memSize → t.hostCalls = s.hostCalls →
    executorOutcome ex handle t = executorOutcome ex handle s)

/-- Each write of a callback or executor changes exactly what it names, and a port action of a callback is the host's
transaction on the interrupt port; a store out of bounds changes nothing, which is the model's choice (43_system_ext R331,
R345, 60_exceptions R420 to R423; notes/assumptions/20.md). -/
def Obligations.HostWriteEffects : Prop :=
  (∀ (s : State), Memory.wf s.mem = true →
    (∀ (r : RegIdx) (v : Word), getReg (applyWrite s (.setReg r v)) r = v ∧
      sameRegsExcept s (applyWrite s (.setReg r v)) r ∧ sameCrs s (applyWrite s (.setReg r v)) ∧
      applyWrite s (.setReg r v) = s.withRegs (applyWrite s (.setReg r v)).regs) ∧
    (∀ (n : CellIdx) (v : Word), getCr (applyWrite s (.setCr n v)) n = v ∧ sameRegs s (applyWrite s (.setCr n v)) ∧
      (∀ n', n' ≠ n → getCr (applyWrite s (.setCr n v)) n' = getCr s n') ∧
      applyWrite s (.setCr n v) = s.withRegs (applyWrite s (.setCr n v)).regs) ∧
    (∀ c v z n x : Option Bool, applyWrite s (.setFlags c v z n x) = { s with flags :=
      ⟨c.getD s.flags.c, v.getD s.flags.v, z.getD s.flags.z, n.getD s.flags.n, x.getD s.flags.x, s.flags.h⟩ }) ∧
    (∀ (a : Word) (sz : Size) (v : Word), inBounds s a.toNat sz.bytes = true →
      memReadN (applyWrite s (.store a sz v)).mem a.toNat sz.bytes = v.toNat % 2 ^ sz.width ∧
      sameMemExcept s (applyWrite s (.store a sz v)) a.toNat sz.bytes ∧
      applyWrite s (.store a sz v) = s.withMem (applyWrite s (.store a sz v)).mem) ∧
    (∀ (a : Word) (sz : Size) (v : Word), inBounds s a.toNat sz.bytes = false → applyWrite s (.store a sz v) = s)) ∧
  (∀ (s : State) (w : CoreWrite), applyAction s (.write w) = applyWrite s w) ∧
  (∀ (s : State) (p : PortOp), applyAction s (.port p) = replyState s (hostOp s (.port p)))

/-! ### Faults of an execute phase -/

/-- An access out of bounds raises MemoryOutOfBounds and the instruction has no effect: a two-operand instruction with a
memory operand outside memory, whatever its other operand holds, a divisor of 0 included; PUSH, POP, CALL, RET, RTI and
SYS with a slot or an operand outside (40_move_arith R199, 60_exceptions R427, 41_stack_call_lea R240 to R255,
43_system_ext R330, R335). -/
def Obligations.OutOfBoundsFaults : Prop :=
  ∀ (sz : Size) (d s : Operand) (nib : RegIdx) (v : Word) (st : State),
    (∀ i ∈ memoryOperandInstrs sz d s,
      (readable st sz (resolve st d) = false ∨ readable st sz (resolve st s) = false) →
      ∃ t, exec i st = .next t ∧ faulted st t .memoryOutOfBounds) ∧
    ((readable st sz (resolve st d) = false ∨ inBounds st (getSp st - 8#64).toNat 8 = false) →
      ∃ t, exec (.push sz d) st = .next t ∧ faulted st t .memoryOutOfBounds) ∧
    ((inBounds st (getSp st).toNat 8 = false ∨ readable st sz (resolve st d) = false) →
      ∃ t, exec (.pop sz d) st = .next t ∧ faulted st t .memoryOutOfBounds) ∧
    (inBounds st (getSp st - 8#64).toNat 8 = false →
      ∃ t, exec (.call sz (.imm nib v)) st = .next t ∧ faulted st t .memoryOutOfBounds) ∧
    (inBounds st (getSp st).toNat 8 = false → ∃ t, exec (.ret sz) st = .next t ∧ faulted st t .memoryOutOfBounds) ∧
    (inBounds st (getSp st).toNat 16 = false → ∃ t, exec (.rti sz) st = .next t ∧ faulted st t .memoryOutOfBounds) ∧
    (readable st sz (resolve st d) = false → ∃ t, exec (.sys sz d) st = .next t ∧ faulted st t .memoryOutOfBounds)

/-! ### Exceptions and interrupts -/

/-- The status word holds C, V, Z, N, X and H in bits 0 to 5 and 0 above, and RTI's restore of it gives the five flags back
and keeps H, whatever stands in bits 63 to 5 of the word read (10_state R43). -/
def Obligations.StatusWordLayout : Prop :=
  (∀ f : Flags, (statusWord f).testBit 0 = f.c ∧ (statusWord f).testBit 1 = f.v ∧ (statusWord f).testBit 2 = f.z ∧
    (statusWord f).testBit 3 = f.n ∧ (statusWord f).testBit 4 = f.x ∧ (statusWord f).testBit 5 = f.h ∧
    ∀ k, 6 ≤ k → (statusWord f).testBit k = false) ∧
  (∀ (f g : Flags) (hi : Nat), restoreFlags g (statusWord f + 64 * hi) = { f with h := g.h })

/-- Trap entry, when the vector and the 16 bytes below SP are in memory: IP and then the status word on the stack, IP to
the vector's target as it was before the pushes, the ISR state Executing; flags, enables and pending bits as before.
The vector of exception `e` is at `VT_BASE + 16 + 8e`, that of interrupt line `l` at `VT_BASE + 64 + 8l`, with
the exception ids of R410. Outside memory there is no entry (60_exceptions R410, R415, R430). -/
def Obligations.TrapEntryEffect : Prop :=
  (excNumber .invalidInstruction = 0 ∧ excNumber .memoryOutOfBounds = 1 ∧ excNumber .divisionByZero = 2 ∧
    excNumber .unknownSyscall = 3) ∧
  (∀ (s : State) (e : ExcId) (l : Nat),
    vectorAddr s (excSlot e) = s.cfg.vtBase + 16 + BitVec.ofNat 64 (8 * excNumber e) ∧
    vectorAddr s (irqSlot l) = s.cfg.vtBase + 64 + BitVec.ofNat 64 (8 * l)) ∧
  (∀ (s : State) (slot : Nat), Memory.wf s.mem = true → inBounds s (vectorAddr s slot).toNat 8 = true →
    inBounds s (getSp s - 16#64).toNat 16 = true →
    ∃ t, trapEntry s slot = some t ∧ t.ip = BitVec.ofNat 64 (memReadN s.mem (vectorAddr s slot).toNat 8) ∧
      memReadN t.mem (getSp s - 8#64).toNat 8 = s.ip.toNat ∧
      memReadN t.mem (getSp s - 16#64).toNat 8 = statusWord s.flags ∧
      getSp t = getSp s - 16#64 ∧ t.isr = .executing ∧ t.flags = s.flags ∧ sameRegsExcept s t 15#4 ∧ sameCrs s t ∧
      sameMemExceptSlots s t (getSp s - 8#64).toNat (getSp s - 16#64).toNat ∧ sameControl (s.withIsr .executing) t) ∧
  (∀ (s : State) (slot : Nat),
    inBounds s (vectorAddr s slot).toNat 8 = false ∨ inBounds s (getSp s - 16#64).toNat 16 = false →
    trapEntry s slot = none)

/-- RTI at the state a trap entry left returns to the saved IP with every register and flag as before the entry and the
ISR state Idle (60_exceptions R430, R433, 43_system_ext R335). -/
def Obligations.RtiUndoesTrapEntry : Prop :=
  ∀ (s t : State) (slot : Nat) (sz : Size), Memory.wf s.mem = true → trapEntry s slot = some t →
    ∃ u, exec (.rti sz) t = .next u ∧ u.ip = s.ip ∧ u.regs = s.regs ∧ u.flags = s.flags ∧ u.isr = .idle

/-- A pending exception is taken first, whatever the ISR state and whatever interrupt waits; it is consumed, no pending
interrupt is, and the handler's first instruction runs in the same step (60_exceptions R401, R426, R431, R432). -/
def Obligations.PendingExceptionTakenFirst : Prop :=
  ∀ (s t : State) (e : ExcId), s.flags.h = false → s.excPending = some e →
    trapEntry { s with result := .ok, excPending := none } (excSlot e) = some t →
    step s = fetchAndExecute t ∧ t.excPending = none ∧ t.irqPending = s.irqPending ∧ t.isr = .executing

/-- With no exception pending and the ISR state Idle, the least line that is pending and enabled is taken, its pending bit
alone is cleared, and the handler's first instruction runs in the same step; while the ISR state is Executing, or no line
is both pending and enabled, the step goes on at its own IP (60_exceptions R402, R426, R431, R432). -/
def Obligations.LeastInterruptTaken : Prop :=
  (∀ (s t : State) (l : Nat), s.flags.h = false → s.excPending = none → s.isr = .idle →
    s.irqPending[l]? = some true → s.irqEnabled[l]? = some true →
    (∀ k < l, ¬ (s.irqPending[k]? = some true ∧ s.irqEnabled[k]? = some true)) →
    trapEntry { s with result := .ok } (irqSlot l) = some t →
    ∃ u, step s = fetchAndExecute u ∧ u = t.withIrqPending u.irqPending ∧ u.irqPending[l]? = some false ∧
      ∀ k : Nat, k ≠ l → u.irqPending[k]? = s.irqPending[k]?) ∧
  (∀ s : State, s.flags.h = false → s.excPending = none →
    (s.isr = .executing ∨ ∀ l : Nat, ¬ (s.irqPending[l]? = some true ∧ s.irqEnabled[l]? = some true)) →
    step s = fetchAndExecute { s with result := .ok })

/-- A trap entry whose vector or stack is outside memory writes nothing but H, takes the pending exception away, fails the
step, and leaves a halted core that no step and no host transaction but Reset resumes (60_exceptions R434, R431). -/
def Obligations.TrapEntryFaultHalts : Prop :=
  ∀ (s : State) (slot : Nat), s.flags.h = false →
    ((∃ e, s.excPending = some e ∧ slot = excSlot e) ∨
     (s.excPending = none ∧ s.isr = .idle ∧ ∃ l, firstEligible s.irqPending s.irqEnabled = some l ∧ slot = irqSlot l)) →
    (inBounds s (vectorAddr s slot).toNat 8 = false ∨ inBounds s (getSp s - 16#64).toNat 16 = false) →
    ∃ t, step s = .next t ∧
      t = { s with excPending := none, flags := { s.flags with h := true }, result := .fail .trapEntryFault } ∧
      step t = .next { t with result := .ok } ∧
      (∀ (op : HostOp) (u : State), op ≠ .reset → hostOp t op = .ok u → u.flags.h = true)

/-- No raise is lost: a pending bit stays set through every step but the one that takes that line (60_exceptions R420,
R431, 10_state R51). -/
def Obligations.RaiseIsNotLost : Prop :=
  ∀ (s t : State) (l : Nat), step s = .next t → s.irqPending[l]? = some true →
    t.irqPending[l]? = some true ∨
    (s.flags.h = false ∧ s.excPending = none ∧ s.isr = .idle ∧ s.irqEnabled[l]? = some true ∧
      ∀ k < l, ¬ (s.irqPending[k]? = some true ∧ s.irqEnabled[k]? = some true))

/-- Enable bits: EnableInterrupt and EnableException set one, Reset clears all, and no step and no other transaction clears
any (10_state R52, R53). -/
def Obligations.EnablesLastUntilReset : Prop :=
  (∀ (s t : State) (ev : Event), runEvent s ev = .next t → ev ≠ .host .reset →
    (∀ l : Nat, s.irqEnabled[l]? = some true → t.irqEnabled[l]? = some true) ∧
    (∀ e, excIsEnabled s.excEnabled e = true → excIsEnabled t.excEnabled e = true)) ∧
  (∀ (s : State) (l : Nat), l < s.cfg.numIrq → l < s.irqEnabled.length →
    ∃ t, hostOp s (.port (.enableInterrupt l)) = .ok t ∧ t.irqEnabled[l]? = some true) ∧
  (∀ (s : State) (e : ExcId), ∃ t, hostOp s (.port (.enableException (excNumber e))) = .ok t ∧
    excIsEnabled t.excEnabled e = true) ∧
  (∀ (s t : State), hostOp s .reset = .ok t →
    (∀ l : Nat, t.irqEnabled[l]? ≠ some true) ∧ ∀ e, excIsEnabled t.excEnabled e = false)

/-- The interrupt port: each operation sets its one bit and changes nothing else, raises coalesce, a raise latches whatever
the enables, the ISR state and H are, and an id out of range is rejected (60_exceptions R420 to R423). -/
def Obligations.InterruptPort : Prop :=
  ∀ (s : State), s.irqPending.length = s.cfg.numIrq → s.irqEnabled.length = s.cfg.numIrq →
    (∀ l < s.cfg.numIrq, ∃ t, hostOp s (.port (.raiseInterrupt l)) = .ok t ∧ t = s.withIrqPending t.irqPending ∧
      t.irqPending[l]? = some true ∧ (∀ k, k ≠ l → t.irqPending[k]? = s.irqPending[k]?) ∧
      (s.irqPending[l]? = some true → t = s)) ∧
    (∀ l < s.cfg.numIrq, ∃ t, hostOp s (.port (.enableInterrupt l)) = .ok t ∧ t = s.withIrqEnabled t.irqEnabled ∧
      t.irqEnabled[l]? = some true ∧ ∀ k, k ≠ l → t.irqEnabled[k]? = s.irqEnabled[k]?) ∧
    (∀ e : ExcId, ∃ t, hostOp s (.port (.enableException (excNumber e))) = .ok t ∧
      t = s.withExcEnabled t.excEnabled ∧
      ∀ e', excIsEnabled t.excEnabled e' = (decide (e' = e) || excIsEnabled s.excEnabled e')) ∧
    (∀ l, s.cfg.numIrq ≤ l → hostOp s (.port (.raiseInterrupt l)) = .rejected ∧
      hostOp s (.port (.enableInterrupt l)) = .rejected) ∧
    (∀ e, 4 ≤ e → hostOp s (.port (.enableException e)) = .rejected)

/-- Registration: a new id or a new byte of EXT_RANGE is added, a duplicate or a byte outside EXT_RANGE is rejected and
changes nothing, and HasExtension tells the registered bytes (43_system_ext R332, R340, R341, 60_exceptions R423). -/
def Obligations.Registration : Prop :=
  ∀ (s : State) (y : SyscallEntry) (x : ExtEntry),
    ((∀ e ∈ s.syscalls, e.id ≠ y.id) →
      hostOp s (.registerSyscall y) = .ok { s with syscalls := s.syscalls ++ [y] }) ∧
    ((∃ e ∈ s.syscalls, e.id = y.id) → hostOp s (.registerSyscall y) = .rejected) ∧
    (s.cfg.extRange.contains x.opcode = true → (∀ e ∈ s.extensions, e.opcode ≠ x.opcode) →
      hostOp s (.registerExtension x) = .ok { s with extensions := s.extensions ++ [x] }) ∧
    ((s.cfg.extRange.contains x.opcode = false ∨ ∃ e ∈ s.extensions, e.opcode = x.opcode) →
      hostOp s (.registerExtension x) = .rejected) ∧
    (∀ b, hasExtension s b = true ↔ ∃ e ∈ s.extensions, e.opcode = b) ∧ replyState s .rejected = s

/-! ### Reset and loading -/

/-- Reset gives every piece of state its reset value, and leaves memory, the parameters and the registries unchanged
(10_state R62, 70_reset_and_hazards R480). -/
def Obligations.ResetValues : Prop :=
  ∀ s : State, ∃ t, hostOp s .reset = .ok t ∧
    (∀ r, getReg t r = 0) ∧ (∀ n, getCr t n = 0) ∧ t.ip = 0 ∧ t.flags = ⟨false, false, false, false, false, false⟩ ∧
    t.isr = .idle ∧ t.irqPending.length = s.cfg.numIrq ∧ (∀ l < s.cfg.numIrq, t.irqPending[l]? = some false) ∧
    t.irqEnabled.length = s.cfg.numIrq ∧ (∀ l < s.cfg.numIrq, t.irqEnabled[l]? = some false) ∧
    (∀ e, excIsEnabled t.excEnabled e = false) ∧ t.excPending = none ∧ t.dstate = .idle ∧ t.extInstance = none ∧
    t.record = none ∧ t.mem = s.mem ∧ t.cfg = s.cfg ∧ t.syscalls = s.syscalls ∧ t.extensions = s.extensions

/-- Before InitMemory the first fetch is out of bounds; InitMemory sets MEM_SIZE, with zeros where the host gives no byte
(the model's choice, notes/assumptions/19.md); LoadBytes stores its bytes, or is rejected past the end; SetIP writes IP alone
(70_reset_and_hazards R481, R482). -/
def Obligations.PowerUpAndLoading : Prop :=
  (∃ t, step State.powerUp = .next t ∧ t.result = .fail .memoryOutOfBounds ∧ t.ip = 1) ∧
  (∀ (s : State) (size : Nat) (bs : List Byte), bs.length ≤ size → ∃ t, hostOp s (.initMemory size bs) = .ok t ∧
    t.cfg = { s.cfg with memSize := size } ∧ ∀ k, memRead t.mem k = (bs[k]?).getD 0) ∧
  (∀ (s : State) (off : Nat) (bs : List Byte), Memory.wf s.mem = true → off + bs.length ≤ s.cfg.memSize →
    ∃ t, hostOp s (.loadBytes off bs) = .ok t ∧ t = s.withMem t.mem ∧
      (∀ k, (h : k < bs.length) → memRead t.mem (off + k) = bs[k]) ∧ sameMemExcept s t off bs.length) ∧
  (∀ (s : State) (off : Nat) (bs : List Byte), s.cfg.memSize < off + bs.length →
    hostOp s (.loadBytes off bs) = .rejected) ∧
  (∀ (s : State) (v : Word), hostOp s (.setIp v) = .ok { s with ip := v })

end
end

