-- ==== Sys2Proof/Laws/Bytes.lean ====
section
/-!
SUPPORT. Big-endian byte strings: lengths, bounds and the two round trips.
-/
namespace Sys2Proof

@[simp] theorem toBE_length (n v : Nat) : (toBE n v).length = n := by
  induction n with
  | zero => rfl
  | succ n ih => simp [toBE, ih]

theorem fromBE_lt (bs : List Byte) : fromBE bs < 256 ^ bs.length := by
  induction bs with
  | nil => simp [fromBE]
  | cons b bs ih =>
    have hb : b.toNat < 256 := b.isLt
    have hs : (b.toNat + 1) * 256 ^ bs.length ≤ 256 * 256 ^ bs.length := Nat.mul_le_mul_right _ hb
    simp only [fromBE, List.length_cons, pow_succ]
    nlinarith

/-- A number written as `n` bytes and read back is the number modulo `256^n`. -/
theorem fromBE_toBE (n v : Nat) : fromBE (toBE n v) = v % 256 ^ n := by
  induction n with
  | zero => simp [toBE, fromBE, Nat.mod_one]
  | succ n ih =>
    rw [toBE, fromBE, ih, toBE_length, Nat.mod_pow_succ]
    simp [Nat.mul_comm, Nat.add_comm]

theorem toBE_mod (n v k : Nat) (h : n ≤ k) : toBE n (v % 256 ^ k) = toBE n v := by
  induction n with
  | zero => rfl
  | succ n ih =>
    have hk : 256 ^ k = 256 ^ n * (256 * 256 ^ (k - n - 1)) := by
      rw [← Nat.pow_succ', ← Nat.pow_add]; congr 1; omega
    have : v % 256 ^ k / 256 ^ n % 256 = v / 256 ^ n % 256 := by
      rw [hk, Nat.mod_mul_right_div_self, Nat.mod_mul_right_mod]
    rw [toBE, toBE, ih (by omega)]
    congr 1
    apply BitVec.eq_of_toNat_eq
    simpa using this

/-- Bytes read as a number and written back are the same bytes. -/
theorem toBE_fromBE (bs : List Byte) : toBE bs.length (fromBE bs) = bs := by
  induction bs with
  | nil => rfl
  | cons b bs ih =>
    have hlt := fromBE_lt bs
    have hpos : 0 < 256 ^ bs.length := by positivity
    simp only [List.length_cons, toBE, fromBE]
    congr 1
    · rw [Nat.add_comm, Nat.add_mul_div_right _ _ hpos, Nat.div_eq_of_lt hlt, Nat.zero_add]
      simp
    · have := toBE_mod bs.length (b.toNat * 256 ^ bs.length + fromBE bs) bs.length le_rfl
      rw [← this, Nat.mul_add_mod_self_right, Nat.mod_eq_of_lt hlt, ih]

/-- Byte `k` of a number written as `n` bytes (20_memory R81). -/
theorem toBE_getElem? (n v k : Nat) (h : k < n) :
    (toBE n v)[k]? = some (BitVec.ofNat 8 (v / 256 ^ (n - 1 - k))) := by
  induction n generalizing k with
  | zero => omega
  | succ n ih =>
    cases k with
    | zero => simp [toBE]
    | succ k =>
      have : n - (k + 1) = n - 1 - k := by omega
      simp [toBE, ih k (by omega), this]

theorem pow256 (n : Nat) : 256 ^ n = 2 ^ (8 * n) := by
  rw [Nat.pow_mul]

end Sys2Proof
end

