-- ==== Sys2Proof/Laws/Decode.lean ====
section
/-!
SUPPORT. What each part of the decoder and of the encoder can do: the opcode map, byte 1, the descriptor bytes, the
payloads, and how the two sides agree on each.
-/
namespace Sys2Proof

/-! ### The format view and the opcode map -/

@[simp] theorem Instr.parts_instr (i : Instr) : i.parts.instr = i := by cases i <;> rfl

@[simp] theorem Parts.instr_parts (p : Parts) : p.instr.parts = p := by
  rcases p with ⟨c, sz⟩ | ⟨c, sz, d⟩ | ⟨c, sz, d, s⟩ | ⟨op, n⟩ <;> first | rfl | (cases c <;> rfl)

/-- The instructions of the base set are those whose view is not of format X. -/
theorem Instr.isBase_iff (i : Instr) : i.isBase = true ↔ ∀ op n, i.parts ≠ .x op n := by
  cases i <;> simp [Instr.isBase, Instr.parts]

/-- Every class is in the list. -/
theorem mem_opClasses (c : OpClass) : c ∈ opClasses := by
  rcases c with c | c | c <;> cases c <;> decide

/-- The map is injective (30_encoding R132). -/
theorem opcodeByte_inj {c c' : OpClass} (h : opcodeByte c = opcodeByte c') : c = c' := by
  rcases c with c | c | c <;> rcases c' with c' | c' | c' <;> cases c <;> cases c' <;> first | rfl | (revert h; decide)

theorem opClassOf_eq_some {op : Byte} {c : OpClass} : opClassOf op = some c ↔ opcodeByte c = op := by
  constructor
  · intro h
    exact eq_of_beq (List.find?_some (p := fun c => opcodeByte c == op) h)
  · rintro rfl
    rcases c with c | c | c <;> cases c <;> decide

@[simp] theorem opClassOf_opcodeByte (c : OpClass) : opClassOf (opcodeByte c) = some c := opClassOf_eq_some.2 rfl

theorem opClassOf_eq_none {op : Byte} : opClassOf op = none ↔ ∀ c, opcodeByte c ≠ op := by
  constructor
  · intro h c hc
    rw [opClassOf_eq_some.2 hc] at h
    cases h
  · intro h
    cases hc : opClassOf op with
    | none => rfl
    | some c => exact absurd (opClassOf_eq_some.1 hc) (h c)

/-! ### Byte 1 -/

@[simp] theorem sizeOf2_sizeCode (sz : Size) : sizeOf2 (sizeCode sz) = sz := by cases sz <;> rfl

@[simp] theorem sizeCode_sizeOf2 (c : BitVec 2) : sizeCode (sizeOf2 c) = c := by revert c; decide

@[simp] theorem sizeFlagsByte_reserved (sz : Size) (dcr scr : Bool) : (sizeFlagsByte sz dcr scr).extractLsb' 2 4 = 0 := by
  cases sz <;> cases dcr <;> cases scr <;> decide

@[simp] theorem sizeFlagsByte_size (sz : Size) (dcr scr : Bool) :
    (sizeFlagsByte sz dcr scr).extractLsb' 0 2 = sizeCode sz := by
  cases sz <;> cases dcr <;> cases scr <;> decide

@[simp] theorem sizeFlagsByte_dcr (sz : Size) (dcr scr : Bool) : (sizeFlagsByte sz dcr scr)[7] = dcr := by
  cases sz <;> cases dcr <;> cases scr <;> decide

@[simp] theorem sizeFlagsByte_scr (sz : Size) (dcr scr : Bool) : (sizeFlagsByte sz dcr scr)[6] = scr := by
  cases sz <;> cases dcr <;> cases scr <;> decide

theorem sizeFlagsByte_getLsbD_dcr (sz : Size) (dcr scr : Bool) : (sizeFlagsByte sz dcr scr).getLsbD 7 = dcr :=
  sizeFlagsByte_dcr sz dcr scr

theorem sizeFlagsByte_getLsbD_scr (sz : Size) (dcr scr : Bool) : (sizeFlagsByte sz dcr scr).getLsbD 6 = scr :=
  sizeFlagsByte_scr sz dcr scr

/-- Byte 1 with its reserved bits 0 is put together again from its fields. -/
theorem sizeFlagsByte_fields {b : Byte} (h : b.extractLsb' 2 4 = 0) :
    sizeFlagsByte (sizeOf2 (b.extractLsb' 0 2)) (b.getLsbD 7) (b.getLsbD 6) = b := by
  revert b; decide

/-- The decode of a base instruction with its byte 1 written by the encoder, past the two checks of byte 1
(30_encoding R150). -/
theorem decodeBase_header {f : Fetch} {c : OpClass} {sz : Size} {dcr scr : Bool}
    (h1 : f 1 = some (sizeFlagsByte sz dcr scr)) :
    ((dcr || scr) = true → c = .b .mov) →
    decodeBase f c = (match c with
      | .z c => decodeZ c sz
      | .u c => decodeU f c sz
      | .b c => decodeB f c sz dcr scr) := by
  intro hc
  have hf : fetchNext f 1 = .ok (sizeFlagsByte sz dcr scr) := by simp [fetchNext, h1]
  have hn : ¬ ((dcr || scr) = true ∧ c ≠ .b .mov) := fun h => h.2 (hc h.1)
  simp only [decodeBase, hf, bind, Except.bind, sizeFlagsByte_reserved, sizeFlagsByte_getLsbD_dcr,
    sizeFlagsByte_getLsbD_scr, sizeFlagsByte_size, sizeOf2_sizeCode, if_neg hn, ne_eq, not_true_eq_false, if_false] <;>
    cases c <;> rfl

/-- What byte 1 must be for a decode of a base instruction to go past it (30_encoding R150). -/
theorem decodeBase_ok_header {f : Fetch} {c : OpClass} {d : Decoded} (h : decodeBase f c = .ok d) :
    ∃ sz dcr scr, f 1 = some (sizeFlagsByte sz dcr scr) ∧ ((dcr || scr) = true → c = .b .mov) := by
  unfold decodeBase at h
  cases hf : f 1 with
  | none => simp [fetchNext, hf, bind, Except.bind] at h
  | some b =>
    simp only [fetchNext, hf, bind, Except.bind] at h
    split at h
    · cases h
    · next hr =>
      split at h
      · cases h
      · next hm =>
        refine ⟨sizeOf2 (b.extractLsb' 0 2), b.getLsbD 7, b.getLsbD 6, ?_, ?_⟩
        · rw [sizeFlagsByte_fields (by simpa using hr)]
        · intro hd
          by_contra hc
          exact hm ⟨hd, hc⟩

/-! ### Descriptor bytes -/

/-- A descriptor's byte is read back as that descriptor. -/
theorem descriptorOf_descriptorByte (d : Descriptor) : descriptorOf (descriptorByte d) (isControl d) = some d := by
  cases d with
  | imm r => revert r; decide
  | abs r => revert r; decide
  | reg r => revert r; decide
  | creg n => revert n; decide
  | ind r => revert r; decide
  | rel n => revert n; decide

/-- A byte read as a descriptor is that descriptor's byte. -/
theorem descriptorByte_descriptorOf {b : Byte} {cr : Bool} {d : Descriptor} (h : descriptorOf b cr = some d) :
    descriptorByte d = b ∧ isControl d = cr := by
  have key : ∀ (b : Byte) (cr : Bool),
      (match descriptorOf b cr with | some d => descriptorByte d == b && isControl d == cr | none => true) = true := by
    decide +kernel
  have := key b cr
  rw [h] at this
  simpa using this

theorem checkDescriptor_eq_some {b : Byte} {role : Role} {cr : Bool} {d : Descriptor} :
    checkDescriptor b role cr = some d ↔ descriptorOf b cr = some d ∧ roleAdmits role d = true := by
  unfold checkDescriptor
  cases h : descriptorOf b cr with
  | none => simp
  | some d' =>
    by_cases ha : roleAdmits role d' = true
    · simp only [ha, if_true, Option.some.injEq]
      constructor
      · rintro rfl; exact ⟨rfl, ha⟩
      · exact fun h => h.1
    · simp only [ha]
      constructor
      · simp
      · rintro ⟨h1, h2⟩
        cases h1
        exact absurd h2 ha

/-- What the check of a descriptor byte accepts is what the encoder writes. -/
theorem checkDescriptor_iff_byte {b : Byte} {role : Role} {cr : Bool} {d : Descriptor} :
    checkDescriptor b role cr = some d ↔ b = descriptorByte d ∧ isControl d = cr ∧ roleAdmits role d = true := by
  rw [checkDescriptor_eq_some]
  constructor
  · rintro ⟨h, ha⟩
    obtain ⟨rfl, rfl⟩ := descriptorByte_descriptorOf h
    exact ⟨rfl, rfl, ha⟩
  · rintro ⟨rfl, rfl, ha⟩
    exact ⟨descriptorOf_descriptorByte d, ha⟩

/-! ### Fetches and payloads -/

theorem fetchNext_eq_ok {f : Fetch} {k : Nat} {b : Byte} : fetchNext f k = .ok b ↔ f k = some b := by
  unfold fetchNext
  cases f k <;> simp

theorem fetchNext_eq_error {f : Fetch} {k : Nat} {e : DecodeError} :
    fetchNext f k = .error e ↔ f k = none ∧ e = ⟨.memoryOutOfBounds, k + 1⟩ := by
  unfold fetchNext
  cases f k <;> simp [eq_comm]

/-- `n` fetches give the `n` bytes from position `k`, or fail at the first that is absent. -/
theorem fetchMany_eq_ok {f : Fetch} {k n : Nat} {bs : List Byte} :
    fetchMany f k n = .ok bs ↔ bs.length = n ∧ ∀ j < n, f (k + j) = bs[j]? := by
  induction n generalizing k bs with
  | zero =>
    simp only [fetchMany, Except.ok.injEq, Nat.not_lt_zero, false_implies, implies_true, and_true]
    exact ⟨fun h => by simp [← h], fun h => (List.length_eq_zero_iff.1 h).symm⟩
  | succ n ih =>
    unfold fetchMany
    cases hb : fetchNext f k with
    | error e =>
      obtain ⟨hn, rfl⟩ := fetchNext_eq_error.1 hb
      simp only [bind, Except.bind, reduceCtorEq, false_iff, not_and]
      intro hl h
      have h0 := h 0 (Nat.succ_pos n)
      rw [Nat.add_zero, hn] at h0
      have := List.getElem?_eq_none_iff.1 h0.symm
      omega
    | ok b =>
      have hf := fetchNext_eq_ok.1 hb
      cases hbs : fetchMany f (k + 1) n with
      | error e =>
        simp only [bind, Except.bind, reduceCtorEq, false_iff, not_and]
        intro hl h
        have : fetchMany f (k + 1) n = .ok bs.tail := ih.2 ⟨by simp [hl], fun j hj => by
          have := h (j + 1) (by omega)
          rw [show k + 1 + j = k + (j + 1) by omega, this]
          cases bs <;> simp⟩
        rw [hbs] at this
        cases this
      | ok cs =>
        obtain ⟨hl, hj⟩ := ih.1 hbs
        simp only [bind, Except.bind, pure, Except.pure, Except.ok.injEq]
        constructor
        · rintro rfl
          refine ⟨by simp [hl], fun j hj' => ?_⟩
          cases j with
          | zero => simpa using hf
          | succ j =>
            rw [show k + (j + 1) = k + 1 + j by omega, hj j (by omega)]
            rfl
        · rintro ⟨hl', h⟩
          cases bs with
          | nil => simp at hl'
          | cons c ds =>
            have h0 := h 0 (Nat.succ_pos n)
            rw [Nat.add_zero, hf] at h0
            have hc : b = c := by simpa using h0
            have hd : fetchMany f (k + 1) n = .ok ds := ih.2 ⟨by simpa using hl', fun j hj' => by
              have := h (j + 1) (by omega)
              rw [show k + 1 + j = k + (j + 1) by omega, this]
              rfl⟩
            rw [hbs] at hd
            cases hd
            rw [hc]

/-- A fetch of several bytes that fails ran past the last byte it got. -/
theorem fetchMany_error {f : Fetch} {k n : Nat} {e : DecodeError} (h : fetchMany f k n = .error e) :
    e.reason = .memoryOutOfBounds ∧ k < e.consumed ∧ e.consumed ≤ k + n := by
  induction n generalizing k with
  | zero => simp [fetchMany] at h
  | succ n ih =>
    unfold fetchMany at h
    cases hb : fetchNext f k with
    | error e' =>
      obtain ⟨_, rfl⟩ := fetchNext_eq_error.1 hb
      rw [hb] at h
      simp only [bind, Except.bind, Except.error.injEq] at h
      subst h
      exact ⟨rfl, Nat.lt_succ_self k, by simp⟩
    | ok b =>
      rw [hb] at h
      cases hbs : fetchMany f (k + 1) n with
      | error e' =>
        rw [hbs] at h
        simp only [bind, Except.bind, Except.error.injEq] at h
        subst h
        obtain ⟨h1, h2, h3⟩ := ih hbs
        exact ⟨h1, by omega, by omega⟩
      | ok cs =>
        rw [hbs] at h
        simp [bind, Except.bind, pure, Except.pure] at h

@[simp] theorem payloadBytes_length (sz : Size) (o : Operand) : (payloadBytes sz o).length = payloadLength sz o.desc := by
  cases o <;> simp [payloadBytes, payloadLength, Operand.desc]

theorem payloadLength_le (sz : Size) (d : Descriptor) : payloadLength sz d ≤ 8 := by
  cases d <;> cases sz <;> simp [payloadLength, Size.bytes]

/-- The payload of an operand that fits its size is read back as that operand. -/
theorem decodePayload_of_bytes {f : Fetch} {sz : Size} {o : Operand} {k : Nat} (ho : o.fits sz = true)
    (h : ∀ j < (payloadBytes sz o).length, f (k + j) = (payloadBytes sz o)[j]?) :
    decodePayload f sz o.desc k = .ok o := by
  cases o with
  | imm nib v =>
    have hb : fetchMany f k sz.bytes = .ok (toBE sz.bytes v.toNat) :=
      fetchMany_eq_ok.2 ⟨by simp, fun j hj => h j (by simpa [payloadBytes] using hj)⟩
    have hv : v.toNat < 256 ^ sz.bytes := by
      have := of_decide_eq_true ho
      rwa [pow256, ← Size.width]
    simp [decodePayload, Operand.desc, hb, bind, Except.bind, pure, Except.pure, fromBE_toBE, Nat.mod_eq_of_lt hv]
  | abs nib a =>
    have hb : fetchMany f k 8 = .ok (toBE 8 a.toNat) :=
      fetchMany_eq_ok.2 ⟨by simp, fun j hj => h j (by simpa [payloadBytes] using hj)⟩
    have hv : a.toNat < 256 ^ 8 := by rw [pow256]; exact a.isLt
    simp only [decodePayload, Operand.desc, hb, bind, Except.bind, pure, Except.pure, fromBE_toBE,
      Nat.mod_eq_of_lt hv, BitVec.ofNat_toNat, BitVec.setWidth_eq]
  | reg r => rfl
  | creg n => rfl
  | ind r => rfl
  | rel base idx sh =>
    have h0 : f k = some (indexShiftByte idx sh) := by simpa [payloadBytes] using h 0 (by simp [payloadBytes])
    have key : ∀ (idx : RegIdx) (sh : BitVec 3), (indexShiftByte idx sh).getLsbD 3 = false ∧
        (indexShiftByte idx sh).extractLsb' 4 4 = idx ∧ (indexShiftByte idx sh).extractLsb' 0 3 = sh := by decide
    obtain ⟨k1, k2, k3⟩ := key idx sh
    simp only [decodePayload, Operand.desc, fetchNext_eq_ok.2 h0, bind, Except.bind, pure, Except.pure, k1, k2, k3,
      Bool.false_eq_true, if_false]

/-- A payload that was read is the payload of the operand read, which has the descriptor and fits the size. -/
theorem decodePayload_ok {f : Fetch} {sz : Size} {d : Descriptor} {o : Operand} {k : Nat}
    (h : decodePayload f sz d k = .ok o) :
    o.desc = d ∧ o.fits sz = true ∧ ∀ j < (payloadBytes sz o).length, f (k + j) = (payloadBytes sz o)[j]? := by
  cases d with
  | imm nib =>
    cases hb : fetchMany f k sz.bytes with
    | error e => simp [decodePayload, hb, bind, Except.bind] at h
    | ok bs =>
      obtain ⟨hl, hj⟩ := fetchMany_eq_ok.1 hb
      simp only [decodePayload, hb, bind, Except.bind, pure, Except.pure, Except.ok.injEq] at h
      subst h
      have hlt : fromBE bs < 2 ^ sz.width := by
        have := fromBE_lt bs
        rwa [hl, pow256] at this
      have hlt64 : fromBE bs < 2 ^ 64 := lt_of_lt_of_le hlt (Nat.pow_le_pow_right (by decide) (by cases sz <;> decide))
      have hn : (BitVec.ofNat 64 (fromBE bs)).toNat = fromBE bs := by
        rw [BitVec.toNat_ofNat, Nat.mod_eq_of_lt hlt64]
      refine ⟨rfl, decide_eq_true (by rw [hn]; exact hlt), ?_⟩
      have he : payloadBytes sz (.imm nib (BitVec.ofNat 64 (fromBE bs))) = bs := by
        simp only [payloadBytes, hn]
        rw [← hl, toBE_fromBE]
      rw [he]
      intro j hj'
      exact hj j (by omega)
  | abs nib =>
    cases hb : fetchMany f k 8 with
    | error e => simp [decodePayload, hb, bind, Except.bind] at h
    | ok bs =>
      obtain ⟨hl, hj⟩ := fetchMany_eq_ok.1 hb
      simp only [decodePayload, hb, bind, Except.bind, pure, Except.pure, Except.ok.injEq] at h
      subst h
      have hlt64 : fromBE bs < 2 ^ 64 := by
        have := fromBE_lt bs
        rwa [hl, pow256] at this
      have hn : (BitVec.ofNat 64 (fromBE bs)).toNat = fromBE bs := by
        rw [BitVec.toNat_ofNat, Nat.mod_eq_of_lt hlt64]
      refine ⟨rfl, rfl, ?_⟩
      have he : payloadBytes sz (.abs nib (BitVec.ofNat 64 (fromBE bs))) = bs := by
        simp only [payloadBytes, hn]
        rw [← hl, toBE_fromBE]
      rw [he]
      intro j hj'
      exact hj j (by omega)
  | reg r =>
    simp only [decodePayload, pure, Except.pure, Except.ok.injEq] at h
    subst h
    exact ⟨rfl, rfl, by simp [payloadBytes]⟩
  | creg n =>
    simp only [decodePayload, pure, Except.pure, Except.ok.injEq] at h
    subst h
    exact ⟨rfl, rfl, by simp [payloadBytes]⟩
  | ind r =>
    simp only [decodePayload, pure, Except.pure, Except.ok.injEq] at h
    subst h
    exact ⟨rfl, rfl, by simp [payloadBytes]⟩
  | rel base =>
    cases hb : fetchNext f k with
    | error e => simp [decodePayload, hb, bind, Except.bind] at h
    | ok b =>
      have hf := fetchNext_eq_ok.1 hb
      simp only [decodePayload, hb, bind, Except.bind, pure, Except.pure] at h
      split at h
      · cases h
      · next h3 =>
        simp only [Except.ok.injEq] at h
        subst h
        refine ⟨rfl, rfl, ?_⟩
        have key : ∀ b : Byte, b.getLsbD 3 = false → indexShiftByte (b.extractLsb' 4 4) (b.extractLsb' 0 3) = b := by
          decide
        intro j hj
        have hj0 : j = 0 := by simpa [payloadBytes] using hj
        subst hj0
        simp [payloadBytes, key b (by simpa using h3), hf]

/-- A payload that could not be read ends past its first byte and within its length. -/
theorem decodePayload_error {f : Fetch} {sz : Size} {d : Descriptor} {k : Nat} {e : DecodeError}
    (h : decodePayload f sz d k = .error e) : k < e.consumed := by
  cases d with
  | imm nib =>
    cases hb : fetchMany f k sz.bytes with
    | error e' =>
      simp only [decodePayload, hb, bind, Except.bind, Except.error.injEq] at h
      subst h
      exact (fetchMany_error hb).2.1
    | ok bs => simp [decodePayload, hb, bind, Except.bind, pure, Except.pure] at h
  | abs nib =>
    cases hb : fetchMany f k 8 with
    | error e' =>
      simp only [decodePayload, hb, bind, Except.bind, Except.error.injEq] at h
      subst h
      exact (fetchMany_error hb).2.1
    | ok bs => simp [decodePayload, hb, bind, Except.bind, pure, Except.pure] at h
  | reg r => simp [decodePayload, pure, Except.pure] at h
  | creg n => simp [decodePayload, pure, Except.pure] at h
  | ind r => simp [decodePayload, pure, Except.pure] at h
  | rel base =>
    cases hb : fetchNext f k with
    | error e' =>
      obtain ⟨_, rfl⟩ := fetchNext_eq_error.1 hb
      simp only [decodePayload, hb, bind, Except.bind, Except.error.injEq] at h
      subst h
      exact Nat.lt_succ_self k
    | ok b =>
      simp only [decodePayload, hb, bind, Except.bind, pure, Except.pure] at h
      split at h
      · simp only [Except.error.injEq] at h
        subst h
        exact Nat.lt_succ_self k
      · cases h

/-! ### Extensions -/

/-- A finished extension decode gives an instruction of that opcode byte, of at least the bytes reached. -/
theorem runExt_ok {f : Fetch} {op : Byte} {t : ExtDecoder} {r : Nat} {d : Decoded} (h : runExt f op t r = .ok d) :
    (∃ n, d.instr = .ext op n) ∧ r ≤ d.length := by
  induction t generalizing r with
  | done skip n =>
    simp only [runExt, Except.ok.injEq] at h
    subst h
    exact ⟨⟨n, rfl⟩, Nat.le_add_right r skip⟩
  | failed skip => simp [runExt] at h
  | fetch off key same other ih1 ih2 =>
    unfold runExt at h
    cases hf : f off with
    | none => simp [hf] at h
    | some b =>
      simp only [hf] at h
      split at h
      · obtain ⟨h1, h2⟩ := ih1 h
        exact ⟨h1, le_trans (Nat.le_max_left _ _) h2⟩
      · obtain ⟨h1, h2⟩ := ih2 h
        exact ⟨h1, le_trans (Nat.le_max_left _ _) h2⟩

/-- A failed extension decode consumed at least one byte, if one had been reached. -/
theorem runExt_error {f : Fetch} {op : Byte} {t : ExtDecoder} {r : Nat} {e : DecodeError} (hr : 1 ≤ r)
    (h : runExt f op t r = .error e) : 1 ≤ e.consumed := by
  induction t generalizing r with
  | done skip n => simp [runExt] at h
  | failed skip =>
    simp only [runExt, Except.error.injEq] at h
    subst h
    exact le_trans hr (Nat.le_add_right r skip)
  | fetch off key same other ih1 ih2 =>
    unfold runExt at h
    cases hf : f off with
    | none =>
      simp only [hf, Except.error.injEq] at h
      subst h
      exact Nat.succ_pos off
    | some b =>
      simp only [hf] at h
      split at h
      · exact ih1 (le_trans hr (Nat.le_max_left _ _)) h
      · exact ih2 (le_trans hr (Nat.le_max_left _ _)) h

theorem findExtension_eq_some {exts : List ExtEntry} {op : Byte} {e : ExtEntry} (h : findExtension exts op = some e) :
    e ∈ exts ∧ e.opcode = op := 
  ⟨List.mem_of_find?_eq_some h, eq_of_beq (List.find?_some (p := fun x : ExtEntry => x.opcode == op) h)⟩

theorem findExtension_eq_none {exts : List ExtEntry} {op : Byte} :
    findExtension exts op = none ↔ ∀ e ∈ exts, e.opcode ≠ op := by
  simp [findExtension, List.find?_eq_none]

/-- In a registry without duplicates the entry found is the one registered (43_system_ext R341). -/
theorem findExtension_of_mem {exts : List ExtEntry} {e : ExtEntry} (hn : (exts.map ExtEntry.opcode).Nodup)
    (he : e ∈ exts) : findExtension exts e.opcode = some e := by
  induction exts with
  | nil => cases he
  | cons x xs ih =>
    simp only [List.map_cons, List.nodup_cons] at hn
    simp only [findExtension, List.find?_cons]
    rcases List.mem_cons.1 he with rfl | hx
    · simp
    · have hne : x.opcode ≠ e.opcode := fun h => hn.1 (h ▸ List.mem_map_of_mem hx)
      simp only [beq_eq_false_iff_ne.2 hne]
      exact ih hn.2 hx

end Sys2Proof
end

