-- ==== Sys2Proof/Laws/Memory.lean ====
section
/-!
SUPPORT. Memory: a read after a write, every other address untouched, the canonical form kept, and equal contents
equal lists.
-/
namespace Sys2Proof.Machine

/-! ### The canonical form -/

theorem memCanonicalFrom_mono {lo lo' : Nat} {m : Memory} (h : memCanonicalFrom lo m = true) (hle : lo' ≤ lo) :
    memCanonicalFrom lo' m = true := by
  cases m with
  | nil => rfl
  | cons c m =>
    obtain ⟨k, b⟩ := c
    simp only [memCanonicalFrom, Bool.and_eq_true, decide_eq_true_eq] at h ⊢
    exact ⟨⟨by omega, h.1.2⟩, h.2⟩

/-- Below the first listed address everything reads 0. -/
theorem memRead_below {lo a : Nat} {m : Memory} (h : memCanonicalFrom lo m = true) (ha : a < lo) :
    memRead m a = 0#8 := by
  cases m with
  | nil => rfl
  | cons c m =>
    obtain ⟨k, b⟩ := c
    simp only [memCanonicalFrom, Bool.and_eq_true, decide_eq_true_eq] at h
    simp [memRead, show a < k by omega]

theorem memWrite_canonicalFrom {lo a : Nat} {v : Byte} {m : Memory} (h : memCanonicalFrom lo m = true)
    (ha : lo ≤ a) : memCanonicalFrom lo (memWrite m a v) = true := by
  induction m generalizing lo with
  | nil =>
    by_cases hv : v = 0#8
    · simp [memWrite, hv, memCanonicalFrom]
    · simp [memWrite, hv, memCanonicalFrom, ha]
  | cons c m ih =>
    obtain ⟨k, b⟩ := c
    have h0 := h
    simp only [memCanonicalFrom, Bool.and_eq_true, decide_eq_true_eq] at h
    obtain ⟨⟨hk, hb⟩, hm⟩ := h
    simp only [memWrite]
    split_ifs with h1 h2 h3 h4
    · exact h0
    · simp only [memCanonicalFrom, Bool.and_eq_true, decide_eq_true_eq]
      exact ⟨⟨ha, by simpa using h2⟩, ⟨by omega, hb⟩, hm⟩
    · exact memCanonicalFrom_mono hm (by omega)
    · simp only [memCanonicalFrom, Bool.and_eq_true, decide_eq_true_eq]
      exact ⟨⟨ha, by simpa using h4⟩, h3 ▸ hm⟩
    · simp only [memCanonicalFrom, Bool.and_eq_true, decide_eq_true_eq]
      exact ⟨⟨hk, hb⟩, ih hm (by omega)⟩

/-- A write keeps the canonical form. -/
theorem memWrite_wf {m : Memory} (h : Memory.wf m = true) (a : Nat) (v : Byte) :
    Memory.wf (memWrite m a v) = true := memWrite_canonicalFrom h (Nat.zero_le a)

theorem memWriteBytes_wf {m : Memory} (h : Memory.wf m = true) (a : Nat) (bs : List Byte) :
    Memory.wf (memWriteBytes m a bs) = true := by
  induction bs generalizing m a with
  | nil => exact h
  | cons b bs ih => exact ih (memWrite_wf h a b) (a + 1)

theorem memWriteN_wf {m : Memory} (h : Memory.wf m = true) (a n v : Nat) :
    Memory.wf (memWriteN m a n v) = true := memWriteBytes_wf h a _

theorem nil_wf : Memory.wf [] = true := rfl

/-! ### Addresses stay inside memory -/

theorem memWrite_mem {m : Memory} {a : Nat} {v : Byte} {c : Host.Cell} (h : c ∈ memWrite m a v) :
    c ∈ m ∨ c.1 = a := by
  induction m with
  | nil =>
    by_cases hv : v = 0#8
    · simp [memWrite, hv] at h
    · simp [memWrite, hv] at h; exact .inr (by simp [h])
  | cons d m ih =>
    obtain ⟨k, b⟩ := d
    simp only [memWrite] at h
    split_ifs at h with h1 h2 h3 h4
    · exact .inl h
    · rcases List.mem_cons.1 h with rfl | h
      · exact .inr rfl
      · exact .inl h
    · exact .inl (List.mem_cons_of_mem _ h)
    · rcases List.mem_cons.1 h with rfl | h
      · exact .inr rfl
      · exact .inl (List.mem_cons_of_mem _ h)
    · rcases List.mem_cons.1 h with rfl | h
      · exact .inl (by simp)
      · rcases ih h with h | h
        · exact .inl (List.mem_cons_of_mem _ h)
        · exact .inr h

theorem memWriteBytes_inside {size : Nat} {m : Memory} (h : memInside size m = true) (a : Nat) (bs : List Byte)
    (hb : a + bs.length ≤ size) : memInside size (memWriteBytes m a bs) = true := by
  induction bs generalizing m a with
  | nil => exact h
  | cons b bs ih =>
    simp only [List.length_cons] at hb
    refine ih ?_ (a + 1) (by omega)
    simp only [memInside, List.all_eq_true, decide_eq_true_eq] at h ⊢
    intro c hc
    rcases memWrite_mem hc with hc | hc
    · exact h c hc
    · omega

theorem memWriteN_inside {size : Nat} {m : Memory} (h : memInside size m = true) (a n v : Nat)
    (hb : a + n ≤ size) : memInside size (memWriteN m a n v) = true :=
  memWriteBytes_inside h a _ (by simpa using hb)

/-! ### Read after write -/

theorem memRead_memWrite_from {lo a x : Nat} {v : Byte} {m : Memory} (h : memCanonicalFrom lo m = true) :
    memRead (memWrite m a v) x = if x = a then v else memRead m x := by
  induction m generalizing lo with
  | nil =>
    by_cases hv : v = 0#8
    · simp [memWrite, hv, memRead]
    · simp only [memWrite, hv, if_false, memRead]
      split_ifs <;> first | rfl | omega
  | cons c m ih =>
    obtain ⟨k, b⟩ := c
    simp only [memCanonicalFrom, Bool.and_eq_true, decide_eq_true_eq] at h
    obtain ⟨⟨hk, hb⟩, hm⟩ := h
    rcases Nat.lt_trichotomy a k with hak | rfl | hka
    · by_cases hv : v = 0#8
      · simp only [memWrite, if_pos hak, if_pos hv]
        by_cases hx : x = a
        · simp [memRead, hx, hak, hv]
        · simp [hx]
      · simp only [memWrite, if_pos hak, if_neg hv, memRead]
        split_ifs <;> first | rfl | omega
    · by_cases hv : v = 0#8
      · simp only [memWrite, Nat.lt_irrefl, if_false, if_true, if_pos hv, memRead]
        rcases Nat.lt_trichotomy x a with hx | rfl | hx
        · simp [hx, show x ≠ a by omega, memRead_below hm (show x < a + 1 by omega)]
        · simp [hv, memRead_below hm (show x < x + 1 by omega)]
        · simp [show ¬ x < a by omega, show x ≠ a by omega]
      · simp only [memWrite, Nat.lt_irrefl, if_false, if_true, if_neg hv, memRead]
        split_ifs <;> first | rfl | omega
    · simp only [memWrite, show ¬ a < k by omega, show a ≠ k by omega, if_false, memRead, ih hm]
      split_ifs <;> first | rfl | omega

/-- A byte read back after a write of one byte. -/
theorem memRead_memWrite {m : Memory} (h : Memory.wf m = true) (a x : Nat) (v : Byte) :
    memRead (memWrite m a v) x = if x = a then v else memRead m x := memRead_memWrite_from h

/-- Bytes outside a stored string read as before. -/
theorem memRead_memWriteBytes_other {m : Memory} (h : Memory.wf m = true) (a : Nat) (bs : List Byte) (x : Nat)
    (hx : x < a ∨ a + bs.length ≤ x) : memRead (memWriteBytes m a bs) x = memRead m x := by
  induction bs generalizing m a with
  | nil => rfl
  | cons b bs ih =>
    simp only [List.length_cons] at hx
    rw [memWriteBytes, ih (memWrite_wf h a b) (a + 1) (by omega), memRead_memWrite h]
    simp [show x ≠ a by omega]

/-- Bytes inside a stored string read as stored. -/
theorem memRead_memWriteBytes_same {m : Memory} (h : Memory.wf m = true) (a : Nat) (bs : List Byte) (k : Nat)
    (hk : k < bs.length) : bs[k]? = some (memRead (memWriteBytes m a bs) (a + k)) := by
  induction bs generalizing m a k with
  | nil => simp at hk
  | cons b bs ih =>
    cases k with
    | zero =>
      rw [memWriteBytes, memRead_memWriteBytes_other (memWrite_wf h a b) (a + 1) bs _ (by omega),
        memRead_memWrite h]
      simp
    | succ k =>
      have := ih (memWrite_wf h a b) (a + 1) k (by simpa using hk)
      rw [memWriteBytes, show a + (k + 1) = a + 1 + k by omega, ← this]
      simp

@[simp] theorem memReadBytes_length (m : Memory) (a n : Nat) : (memReadBytes m a n).length = n := by
  induction n generalizing a with
  | zero => rfl
  | succ n ih => simp [memReadBytes, ih]

/-- Reading looks only at the bytes it covers (20_memory R83). -/
theorem memReadBytes_congr {m m' : Memory} (a n : Nat) (h : ∀ x, a ≤ x → x < a + n → memRead m x = memRead m' x) :
    memReadBytes m a n = memReadBytes m' a n := by
  induction n generalizing a with
  | zero => rfl
  | succ n ih =>
    rw [memReadBytes, memReadBytes, h a le_rfl (by omega), ih (a + 1) (fun x h1 h2 => h x (by omega) (by omega))]

theorem memReadBytes_memWriteBytes {m : Memory} (h : Memory.wf m = true) (a : Nat) (bs : List Byte) :
    memReadBytes (memWriteBytes m a bs) a bs.length = bs := by
  induction bs generalizing m a with
  | nil => rfl
  | cons b bs ih =>
    rw [List.length_cons, memReadBytes, memWriteBytes, ih (memWrite_wf h a b) (a + 1),
      memRead_memWriteBytes_other (memWrite_wf h a b) (a + 1) bs a (by omega), memRead_memWrite h]
    simp

/-- A value stored and read back at the same size (20_memory R81). -/
theorem memReadN_memWriteN {m : Memory} (h : Memory.wf m = true) (a n v : Nat) :
    memReadN (memWriteN m a n v) a n = v % 256 ^ n := by
  have := memReadBytes_memWriteBytes h a (toBE n v)
  rw [toBE_length] at this
  rw [memReadN, memWriteN, this, fromBE_toBE]

/-- A read that a store does not overlap. -/
theorem memReadN_memWriteN_other {m : Memory} (h : Memory.wf m = true) (a n v b k : Nat)
    (hd : b + k ≤ a ∨ a + n ≤ b) : memReadN (memWriteN m a n v) b k = memReadN m b k := by
  rw [memReadN, memReadN]
  congr 1
  refine memReadBytes_congr b k (fun x h1 h2 => memRead_memWriteBytes_other h a _ x ?_)
  rw [toBE_length]; omega

/-- Bytes outside a stored value read as before. -/
theorem memRead_memWriteN_other {m : Memory} (h : Memory.wf m = true) (a n v x : Nat)
    (hx : x < a ∨ a + n ≤ x) : memRead (memWriteN m a n v) x = memRead m x :=
  memRead_memWriteBytes_other h a _ x (by simpa using hx)

theorem memReadN_lt (m : Memory) (a n : Nat) : memReadN m a n < 256 ^ n := by
  simpa [memReadN] using fromBE_lt (memReadBytes m a n)

/-! ### Equal contents are equal lists -/

theorem memory_ext_from {lo : Nat} {m m' : Memory} (h : memCanonicalFrom lo m = true)
    (h' : memCanonicalFrom lo m' = true) (heq : ∀ x, lo ≤ x → memRead m x = memRead m' x) : m = m' := by
  induction m generalizing lo m' with
  | nil =>
    cases m' with
    | nil => rfl
    | cons c m' =>
      obtain ⟨k, b⟩ := c
      simp only [memCanonicalFrom, Bool.and_eq_true, decide_eq_true_eq, bne_iff_ne] at h'
      have := heq k h'.1.1
      simp [memRead] at this
      exact absurd this.symm (by simpa using h'.1.2)
  | cons c m ih =>
    obtain ⟨k, b⟩ := c
    simp only [memCanonicalFrom, Bool.and_eq_true, decide_eq_true_eq, bne_iff_ne] at h
    cases m' with
    | nil =>
      have := heq k h.1.1
      simp [memRead] at this
      exact absurd this (by simpa using h.1.2)
    | cons c' m' =>
      obtain ⟨k', b'⟩ := c'
      simp only [memCanonicalFrom, Bool.and_eq_true, decide_eq_true_eq, bne_iff_ne] at h'
      have e1 := heq k h.1.1
      have e2 := heq k' h'.1.1
      simp only [memRead, Nat.lt_irrefl, if_false, if_true] at e1 e2
      have hkk : k = k' := by
        rcases Nat.lt_trichotomy k k' with hlt | heq' | hgt
        · rw [if_pos hlt] at e1; exact absurd e1 h.1.2
        · exact heq'
        · rw [if_pos hgt] at e2; exact absurd e2.symm h'.1.2
      subst hkk
      simp only [Nat.lt_irrefl, if_false, if_true] at e1
      subst e1
      congr 1
      refine ih h.2 h'.2 (fun x hx => ?_)
      have := heq x (by omega)
      simpa [memRead, show ¬ x < k by omega, show x ≠ k by omega] using this

/-- Two memories in canonical form that read alike everywhere are equal. -/
theorem memory_ext {m m' : Memory} (h : Memory.wf m = true) (h' : Memory.wf m' = true)
    (heq : ∀ x, memRead m x = memRead m' x) : m = m' := memory_ext_from h h' (fun x _ => heq x)

end Sys2Proof.Machine
end

