-- ==== Sys2Proof/Laws/State.lean ====
section
/-!
SUPPORT. What each named update of the state leaves in each field, so that no later proof unfolds a record update.
-/
namespace Sys2Proof.Machine

variable (s : State)

/-! ### withRegs -/

@[simp] theorem withRegs_regs (r : Regs) : (s.withRegs r).regs = r := rfl
@[simp] theorem withRegs_ip (r : Regs) : (s.withRegs r).ip = s.ip := rfl
@[simp] theorem withRegs_flags (r : Regs) : (s.withRegs r).flags = s.flags := rfl
@[simp] theorem withRegs_isr (r : Regs) : (s.withRegs r).isr = s.isr := rfl
@[simp] theorem withRegs_irqPending (r : Regs) : (s.withRegs r).irqPending = s.irqPending := rfl
@[simp] theorem withRegs_irqEnabled (r : Regs) : (s.withRegs r).irqEnabled = s.irqEnabled := rfl
@[simp] theorem withRegs_excEnabled (r : Regs) : (s.withRegs r).excEnabled = s.excEnabled := rfl
@[simp] theorem withRegs_excPending (r : Regs) : (s.withRegs r).excPending = s.excPending := rfl
@[simp] theorem withRegs_dstate (r : Regs) : (s.withRegs r).dstate = s.dstate := rfl
@[simp] theorem withRegs_extInstance (r : Regs) : (s.withRegs r).extInstance = s.extInstance := rfl
@[simp] theorem withRegs_record (r : Regs) : (s.withRegs r).record = s.record := rfl
@[simp] theorem withRegs_result (r : Regs) : (s.withRegs r).result = s.result := rfl
@[simp] theorem withRegs_mem (r : Regs) : (s.withRegs r).mem = s.mem := rfl
@[simp] theorem withRegs_cfg (r : Regs) : (s.withRegs r).cfg = s.cfg := rfl
@[simp] theorem withRegs_syscalls (r : Regs) : (s.withRegs r).syscalls = s.syscalls := rfl
@[simp] theorem withRegs_extensions (r : Regs) : (s.withRegs r).extensions = s.extensions := rfl
@[simp] theorem withRegs_hostCalls (r : Regs) : (s.withRegs r).hostCalls = s.hostCalls := rfl

/-! ### withIp -/

@[simp] theorem withIp_regs (v : Word) : (s.withIp v).regs = s.regs := rfl
@[simp] theorem withIp_ip (v : Word) : (s.withIp v).ip = v := rfl
@[simp] theorem withIp_flags (v : Word) : (s.withIp v).flags = s.flags := rfl
@[simp] theorem withIp_isr (v : Word) : (s.withIp v).isr = s.isr := rfl
@[simp] theorem withIp_irqPending (v : Word) : (s.withIp v).irqPending = s.irqPending := rfl
@[simp] theorem withIp_irqEnabled (v : Word) : (s.withIp v).irqEnabled = s.irqEnabled := rfl
@[simp] theorem withIp_excEnabled (v : Word) : (s.withIp v).excEnabled = s.excEnabled := rfl
@[simp] theorem withIp_excPending (v : Word) : (s.withIp v).excPending = s.excPending := rfl
@[simp] theorem withIp_dstate (v : Word) : (s.withIp v).dstate = s.dstate := rfl
@[simp] theorem withIp_extInstance (v : Word) : (s.withIp v).extInstance = s.extInstance := rfl
@[simp] theorem withIp_record (v : Word) : (s.withIp v).record = s.record := rfl
@[simp] theorem withIp_result (v : Word) : (s.withIp v).result = s.result := rfl
@[simp] theorem withIp_mem (v : Word) : (s.withIp v).mem = s.mem := rfl
@[simp] theorem withIp_cfg (v : Word) : (s.withIp v).cfg = s.cfg := rfl
@[simp] theorem withIp_syscalls (v : Word) : (s.withIp v).syscalls = s.syscalls := rfl
@[simp] theorem withIp_extensions (v : Word) : (s.withIp v).extensions = s.extensions := rfl
@[simp] theorem withIp_hostCalls (v : Word) : (s.withIp v).hostCalls = s.hostCalls := rfl

/-! ### withFlags -/

@[simp] theorem withFlags_regs (f : Flags) : (s.withFlags f).regs = s.regs := rfl
@[simp] theorem withFlags_ip (f : Flags) : (s.withFlags f).ip = s.ip := rfl
@[simp] theorem withFlags_flags (f : Flags) : (s.withFlags f).flags = f := rfl
@[simp] theorem withFlags_isr (f : Flags) : (s.withFlags f).isr = s.isr := rfl
@[simp] theorem withFlags_irqPending (f : Flags) : (s.withFlags f).irqPending = s.irqPending := rfl
@[simp] theorem withFlags_irqEnabled (f : Flags) : (s.withFlags f).irqEnabled = s.irqEnabled := rfl
@[simp] theorem withFlags_excEnabled (f : Flags) : (s.withFlags f).excEnabled = s.excEnabled := rfl
@[simp] theorem withFlags_excPending (f : Flags) : (s.withFlags f).excPending = s.excPending := rfl
@[simp] theorem withFlags_dstate (f : Flags) : (s.withFlags f).dstate = s.dstate := rfl
@[simp] theorem withFlags_extInstance (f : Flags) : (s.withFlags f).extInstance = s.extInstance := rfl
@[simp] theorem withFlags_record (f : Flags) : (s.withFlags f).record = s.record := rfl
@[simp] theorem withFlags_result (f : Flags) : (s.withFlags f).result = s.result := rfl
@[simp] theorem withFlags_mem (f : Flags) : (s.withFlags f).mem = s.mem := rfl
@[simp] theorem withFlags_cfg (f : Flags) : (s.withFlags f).cfg = s.cfg := rfl
@[simp] theorem withFlags_syscalls (f : Flags) : (s.withFlags f).syscalls = s.syscalls := rfl
@[simp] theorem withFlags_extensions (f : Flags) : (s.withFlags f).extensions = s.extensions := rfl
@[simp] theorem withFlags_hostCalls (f : Flags) : (s.withFlags f).hostCalls = s.hostCalls := rfl

/-! ### withMem -/

@[simp] theorem withMem_regs (m : Memory) : (s.withMem m).regs = s.regs := rfl
@[simp] theorem withMem_ip (m : Memory) : (s.withMem m).ip = s.ip := rfl
@[simp] theorem withMem_flags (m : Memory) : (s.withMem m).flags = s.flags := rfl
@[simp] theorem withMem_isr (m : Memory) : (s.withMem m).isr = s.isr := rfl
@[simp] theorem withMem_irqPending (m : Memory) : (s.withMem m).irqPending = s.irqPending := rfl
@[simp] theorem withMem_irqEnabled (m : Memory) : (s.withMem m).irqEnabled = s.irqEnabled := rfl
@[simp] theorem withMem_excEnabled (m : Memory) : (s.withMem m).excEnabled = s.excEnabled := rfl
@[simp] theorem withMem_excPending (m : Memory) : (s.withMem m).excPending = s.excPending := rfl
@[simp] theorem withMem_dstate (m : Memory) : (s.withMem m).dstate = s.dstate := rfl
@[simp] theorem withMem_extInstance (m : Memory) : (s.withMem m).extInstance = s.extInstance := rfl
@[simp] theorem withMem_record (m : Memory) : (s.withMem m).record = s.record := rfl
@[simp] theorem withMem_result (m : Memory) : (s.withMem m).result = s.result := rfl
@[simp] theorem withMem_mem (m : Memory) : (s.withMem m).mem = m := rfl
@[simp] theorem withMem_cfg (m : Memory) : (s.withMem m).cfg = s.cfg := rfl
@[simp] theorem withMem_syscalls (m : Memory) : (s.withMem m).syscalls = s.syscalls := rfl
@[simp] theorem withMem_extensions (m : Memory) : (s.withMem m).extensions = s.extensions := rfl
@[simp] theorem withMem_hostCalls (m : Memory) : (s.withMem m).hostCalls = s.hostCalls := rfl

/-! ### withIsr -/

@[simp] theorem withIsr_regs (i : Isr) : (s.withIsr i).regs = s.regs := rfl
@[simp] theorem withIsr_ip (i : Isr) : (s.withIsr i).ip = s.ip := rfl
@[simp] theorem withIsr_flags (i : Isr) : (s.withIsr i).flags = s.flags := rfl
@[simp] theorem withIsr_isr (i : Isr) : (s.withIsr i).isr = i := rfl
@[simp] theorem withIsr_irqPending (i : Isr) : (s.withIsr i).irqPending = s.irqPending := rfl
@[simp] theorem withIsr_irqEnabled (i : Isr) : (s.withIsr i).irqEnabled = s.irqEnabled := rfl
@[simp] theorem withIsr_excEnabled (i : Isr) : (s.withIsr i).excEnabled = s.excEnabled := rfl
@[simp] theorem withIsr_excPending (i : Isr) : (s.withIsr i).excPending = s.excPending := rfl
@[simp] theorem withIsr_dstate (i : Isr) : (s.withIsr i).dstate = s.dstate := rfl
@[simp] theorem withIsr_extInstance (i : Isr) : (s.withIsr i).extInstance = s.extInstance := rfl
@[simp] theorem withIsr_record (i : Isr) : (s.withIsr i).record = s.record := rfl
@[simp] theorem withIsr_result (i : Isr) : (s.withIsr i).result = s.result := rfl
@[simp] theorem withIsr_mem (i : Isr) : (s.withIsr i).mem = s.mem := rfl
@[simp] theorem withIsr_cfg (i : Isr) : (s.withIsr i).cfg = s.cfg := rfl
@[simp] theorem withIsr_syscalls (i : Isr) : (s.withIsr i).syscalls = s.syscalls := rfl
@[simp] theorem withIsr_extensions (i : Isr) : (s.withIsr i).extensions = s.extensions := rfl
@[simp] theorem withIsr_hostCalls (i : Isr) : (s.withIsr i).hostCalls = s.hostCalls := rfl

/-! ### withExcPending -/

@[simp] theorem withExcPending_regs (e : Option ExcId) : (s.withExcPending e).regs = s.regs := rfl
@[simp] theorem withExcPending_ip (e : Option ExcId) : (s.withExcPending e).ip = s.ip := rfl
@[simp] theorem withExcPending_flags (e : Option ExcId) : (s.withExcPending e).flags = s.flags := rfl
@[simp] theorem withExcPending_isr (e : Option ExcId) : (s.withExcPending e).isr = s.isr := rfl
@[simp] theorem withExcPending_irqPending (e : Option ExcId) : (s.withExcPending e).irqPending = s.irqPending := rfl
@[simp] theorem withExcPending_irqEnabled (e : Option ExcId) : (s.withExcPending e).irqEnabled = s.irqEnabled := rfl
@[simp] theorem withExcPending_excEnabled (e : Option ExcId) : (s.withExcPending e).excEnabled = s.excEnabled := rfl
@[simp] theorem withExcPending_excPending (e : Option ExcId) : (s.withExcPending e).excPending = e := rfl
@[simp] theorem withExcPending_dstate (e : Option ExcId) : (s.withExcPending e).dstate = s.dstate := rfl
@[simp] theorem withExcPending_extInstance (e : Option ExcId) : (s.withExcPending e).extInstance = s.extInstance := rfl
@[simp] theorem withExcPending_record (e : Option ExcId) : (s.withExcPending e).record = s.record := rfl
@[simp] theorem withExcPending_result (e : Option ExcId) : (s.withExcPending e).result = s.result := rfl
@[simp] theorem withExcPending_mem (e : Option ExcId) : (s.withExcPending e).mem = s.mem := rfl
@[simp] theorem withExcPending_cfg (e : Option ExcId) : (s.withExcPending e).cfg = s.cfg := rfl
@[simp] theorem withExcPending_syscalls (e : Option ExcId) : (s.withExcPending e).syscalls = s.syscalls := rfl
@[simp] theorem withExcPending_extensions (e : Option ExcId) : (s.withExcPending e).extensions = s.extensions := rfl
@[simp] theorem withExcPending_hostCalls (e : Option ExcId) : (s.withExcPending e).hostCalls = s.hostCalls := rfl

/-! ### withExcEnabled -/

@[simp] theorem withExcEnabled_regs (m : ExcMask) : (s.withExcEnabled m).regs = s.regs := rfl
@[simp] theorem withExcEnabled_ip (m : ExcMask) : (s.withExcEnabled m).ip = s.ip := rfl
@[simp] theorem withExcEnabled_flags (m : ExcMask) : (s.withExcEnabled m).flags = s.flags := rfl
@[simp] theorem withExcEnabled_isr (m : ExcMask) : (s.withExcEnabled m).isr = s.isr := rfl
@[simp] theorem withExcEnabled_irqPending (m : ExcMask) : (s.withExcEnabled m).irqPending = s.irqPending := rfl
@[simp] theorem withExcEnabled_irqEnabled (m : ExcMask) : (s.withExcEnabled m).irqEnabled = s.irqEnabled := rfl
@[simp] theorem withExcEnabled_excEnabled (m : ExcMask) : (s.withExcEnabled m).excEnabled = m := rfl
@[simp] theorem withExcEnabled_excPending (m : ExcMask) : (s.withExcEnabled m).excPending = s.excPending := rfl
@[simp] theorem withExcEnabled_dstate (m : ExcMask) : (s.withExcEnabled m).dstate = s.dstate := rfl
@[simp] theorem withExcEnabled_extInstance (m : ExcMask) : (s.withExcEnabled m).extInstance = s.extInstance := rfl
@[simp] theorem withExcEnabled_record (m : ExcMask) : (s.withExcEnabled m).record = s.record := rfl
@[simp] theorem withExcEnabled_result (m : ExcMask) : (s.withExcEnabled m).result = s.result := rfl
@[simp] theorem withExcEnabled_mem (m : ExcMask) : (s.withExcEnabled m).mem = s.mem := rfl
@[simp] theorem withExcEnabled_cfg (m : ExcMask) : (s.withExcEnabled m).cfg = s.cfg := rfl
@[simp] theorem withExcEnabled_syscalls (m : ExcMask) : (s.withExcEnabled m).syscalls = s.syscalls := rfl
@[simp] theorem withExcEnabled_extensions (m : ExcMask) : (s.withExcEnabled m).extensions = s.extensions := rfl
@[simp] theorem withExcEnabled_hostCalls (m : ExcMask) : (s.withExcEnabled m).hostCalls = s.hostCalls := rfl

/-! ### withIrqPending -/

@[simp] theorem withIrqPending_regs (l : List Bool) : (s.withIrqPending l).regs = s.regs := rfl
@[simp] theorem withIrqPending_ip (l : List Bool) : (s.withIrqPending l).ip = s.ip := rfl
@[simp] theorem withIrqPending_flags (l : List Bool) : (s.withIrqPending l).flags = s.flags := rfl
@[simp] theorem withIrqPending_isr (l : List Bool) : (s.withIrqPending l).isr = s.isr := rfl
@[simp] theorem withIrqPending_irqPending (l : List Bool) : (s.withIrqPending l).irqPending = l := rfl
@[simp] theorem withIrqPending_irqEnabled (l : List Bool) : (s.withIrqPending l).irqEnabled = s.irqEnabled := rfl
@[simp] theorem withIrqPending_excEnabled (l : List Bool) : (s.withIrqPending l).excEnabled = s.excEnabled := rfl
@[simp] theorem withIrqPending_excPending (l : List Bool) : (s.withIrqPending l).excPending = s.excPending := rfl
@[simp] theorem withIrqPending_dstate (l : List Bool) : (s.withIrqPending l).dstate = s.dstate := rfl
@[simp] theorem withIrqPending_extInstance (l : List Bool) : (s.withIrqPending l).extInstance = s.extInstance := rfl
@[simp] theorem withIrqPending_record (l : List Bool) : (s.withIrqPending l).record = s.record := rfl
@[simp] theorem withIrqPending_result (l : List Bool) : (s.withIrqPending l).result = s.result := rfl
@[simp] theorem withIrqPending_mem (l : List Bool) : (s.withIrqPending l).mem = s.mem := rfl
@[simp] theorem withIrqPending_cfg (l : List Bool) : (s.withIrqPending l).cfg = s.cfg := rfl
@[simp] theorem withIrqPending_syscalls (l : List Bool) : (s.withIrqPending l).syscalls = s.syscalls := rfl
@[simp] theorem withIrqPending_extensions (l : List Bool) : (s.withIrqPending l).extensions = s.extensions := rfl
@[simp] theorem withIrqPending_hostCalls (l : List Bool) : (s.withIrqPending l).hostCalls = s.hostCalls := rfl

/-! ### withIrqEnabled -/

@[simp] theorem withIrqEnabled_regs (l : List Bool) : (s.withIrqEnabled l).regs = s.regs := rfl
@[simp] theorem withIrqEnabled_ip (l : List Bool) : (s.withIrqEnabled l).ip = s.ip := rfl
@[simp] theorem withIrqEnabled_flags (l : List Bool) : (s.withIrqEnabled l).flags = s.flags := rfl
@[simp] theorem withIrqEnabled_isr (l : List Bool) : (s.withIrqEnabled l).isr = s.isr := rfl
@[simp] theorem withIrqEnabled_irqPending (l : List Bool) : (s.withIrqEnabled l).irqPending = s.irqPending := rfl
@[simp] theorem withIrqEnabled_irqEnabled (l : List Bool) : (s.withIrqEnabled l).irqEnabled = l := rfl
@[simp] theorem withIrqEnabled_excEnabled (l : List Bool) : (s.withIrqEnabled l).excEnabled = s.excEnabled := rfl
@[simp] theorem withIrqEnabled_excPending (l : List Bool) : (s.withIrqEnabled l).excPending = s.excPending := rfl
@[simp] theorem withIrqEnabled_dstate (l : List Bool) : (s.withIrqEnabled l).dstate = s.dstate := rfl
@[simp] theorem withIrqEnabled_extInstance (l : List Bool) : (s.withIrqEnabled l).extInstance = s.extInstance := rfl
@[simp] theorem withIrqEnabled_record (l : List Bool) : (s.withIrqEnabled l).record = s.record := rfl
@[simp] theorem withIrqEnabled_result (l : List Bool) : (s.withIrqEnabled l).result = s.result := rfl
@[simp] theorem withIrqEnabled_mem (l : List Bool) : (s.withIrqEnabled l).mem = s.mem := rfl
@[simp] theorem withIrqEnabled_cfg (l : List Bool) : (s.withIrqEnabled l).cfg = s.cfg := rfl
@[simp] theorem withIrqEnabled_syscalls (l : List Bool) : (s.withIrqEnabled l).syscalls = s.syscalls := rfl
@[simp] theorem withIrqEnabled_extensions (l : List Bool) : (s.withIrqEnabled l).extensions = s.extensions := rfl
@[simp] theorem withIrqEnabled_hostCalls (l : List Bool) : (s.withIrqEnabled l).hostCalls = s.hostCalls := rfl

/-! ### withResult -/

@[simp] theorem withResult_regs (r : StepResult) : (s.withResult r).regs = s.regs := rfl
@[simp] theorem withResult_ip (r : StepResult) : (s.withResult r).ip = s.ip := rfl
@[simp] theorem withResult_flags (r : StepResult) : (s.withResult r).flags = s.flags := rfl
@[simp] theorem withResult_isr (r : StepResult) : (s.withResult r).isr = s.isr := rfl
@[simp] theorem withResult_irqPending (r : StepResult) : (s.withResult r).irqPending = s.irqPending := rfl
@[simp] theorem withResult_irqEnabled (r : StepResult) : (s.withResult r).irqEnabled = s.irqEnabled := rfl
@[simp] theorem withResult_excEnabled (r : StepResult) : (s.withResult r).excEnabled = s.excEnabled := rfl
@[simp] theorem withResult_excPending (r : StepResult) : (s.withResult r).excPending = s.excPending := rfl
@[simp] theorem withResult_dstate (r : StepResult) : (s.withResult r).dstate = s.dstate := rfl
@[simp] theorem withResult_extInstance (r : StepResult) : (s.withResult r).extInstance = s.extInstance := rfl
@[simp] theorem withResult_record (r : StepResult) : (s.withResult r).record = s.record := rfl
@[simp] theorem withResult_result (r : StepResult) : (s.withResult r).result = r := rfl
@[simp] theorem withResult_mem (r : StepResult) : (s.withResult r).mem = s.mem := rfl
@[simp] theorem withResult_cfg (r : StepResult) : (s.withResult r).cfg = s.cfg := rfl
@[simp] theorem withResult_syscalls (r : StepResult) : (s.withResult r).syscalls = s.syscalls := rfl
@[simp] theorem withResult_extensions (r : StepResult) : (s.withResult r).extensions = s.extensions := rfl
@[simp] theorem withResult_hostCalls (r : StepResult) : (s.withResult r).hostCalls = s.hostCalls := rfl

/-! ### withDecoder -/

@[simp] theorem withDecoder_regs (d : DState) (i : Option ExtInstance) : (s.withDecoder d i).regs = s.regs := rfl
@[simp] theorem withDecoder_ip (d : DState) (i : Option ExtInstance) : (s.withDecoder d i).ip = s.ip := rfl
@[simp] theorem withDecoder_flags (d : DState) (i : Option ExtInstance) : (s.withDecoder d i).flags = s.flags := rfl
@[simp] theorem withDecoder_isr (d : DState) (i : Option ExtInstance) : (s.withDecoder d i).isr = s.isr := rfl
@[simp] theorem withDecoder_irqPending (d : DState) (i : Option ExtInstance) : (s.withDecoder d i).irqPending = s.irqPending := rfl
@[simp] theorem withDecoder_irqEnabled (d : DState) (i : Option ExtInstance) : (s.withDecoder d i).irqEnabled = s.irqEnabled := rfl
@[simp] theorem withDecoder_excEnabled (d : DState) (i : Option ExtInstance) : (s.withDecoder d i).excEnabled = s.excEnabled := rfl
@[simp] theorem withDecoder_excPending (d : DState) (i : Option ExtInstance) : (s.withDecoder d i).excPending = s.excPending := rfl
@[simp] theorem withDecoder_dstate (d : DState) (i : Option ExtInstance) : (s.withDecoder d i).dstate = d := rfl
@[simp] theorem withDecoder_extInstance (d : DState) (i : Option ExtInstance) : (s.withDecoder d i).extInstance = i := rfl
@[simp] theorem withDecoder_record (d : DState) (i : Option ExtInstance) : (s.withDecoder d i).record = s.record := rfl
@[simp] theorem withDecoder_result (d : DState) (i : Option ExtInstance) : (s.withDecoder d i).result = s.result := rfl
@[simp] theorem withDecoder_mem (d : DState) (i : Option ExtInstance) : (s.withDecoder d i).mem = s.mem := rfl
@[simp] theorem withDecoder_cfg (d : DState) (i : Option ExtInstance) : (s.withDecoder d i).cfg = s.cfg := rfl
@[simp] theorem withDecoder_syscalls (d : DState) (i : Option ExtInstance) : (s.withDecoder d i).syscalls = s.syscalls := rfl
@[simp] theorem withDecoder_extensions (d : DState) (i : Option ExtInstance) : (s.withDecoder d i).extensions = s.extensions := rfl
@[simp] theorem withDecoder_hostCalls (d : DState) (i : Option ExtInstance) : (s.withDecoder d i).hostCalls = s.hostCalls := rfl

/-! ### withRecord -/

@[simp] theorem withRecord_regs (r : Option DecodedRecord) : (s.withRecord r).regs = s.regs := rfl
@[simp] theorem withRecord_ip (r : Option DecodedRecord) : (s.withRecord r).ip = s.ip := rfl
@[simp] theorem withRecord_flags (r : Option DecodedRecord) : (s.withRecord r).flags = s.flags := rfl
@[simp] theorem withRecord_isr (r : Option DecodedRecord) : (s.withRecord r).isr = s.isr := rfl
@[simp] theorem withRecord_irqPending (r : Option DecodedRecord) : (s.withRecord r).irqPending = s.irqPending := rfl
@[simp] theorem withRecord_irqEnabled (r : Option DecodedRecord) : (s.withRecord r).irqEnabled = s.irqEnabled := rfl
@[simp] theorem withRecord_excEnabled (r : Option DecodedRecord) : (s.withRecord r).excEnabled = s.excEnabled := rfl
@[simp] theorem withRecord_excPending (r : Option DecodedRecord) : (s.withRecord r).excPending = s.excPending := rfl
@[simp] theorem withRecord_dstate (r : Option DecodedRecord) : (s.withRecord r).dstate = s.dstate := rfl
@[simp] theorem withRecord_extInstance (r : Option DecodedRecord) : (s.withRecord r).extInstance = s.extInstance := rfl
@[simp] theorem withRecord_record (r : Option DecodedRecord) : (s.withRecord r).record = r := rfl
@[simp] theorem withRecord_result (r : Option DecodedRecord) : (s.withRecord r).result = s.result := rfl
@[simp] theorem withRecord_mem (r : Option DecodedRecord) : (s.withRecord r).mem = s.mem := rfl
@[simp] theorem withRecord_cfg (r : Option DecodedRecord) : (s.withRecord r).cfg = s.cfg := rfl
@[simp] theorem withRecord_syscalls (r : Option DecodedRecord) : (s.withRecord r).syscalls = s.syscalls := rfl
@[simp] theorem withRecord_extensions (r : Option DecodedRecord) : (s.withRecord r).extensions = s.extensions := rfl
@[simp] theorem withRecord_hostCalls (r : Option DecodedRecord) : (s.withRecord r).hostCalls = s.hostCalls := rfl

/-! ### countHostCall -/

@[simp] theorem countHostCall_regs : s.countHostCall.regs = s.regs := rfl
@[simp] theorem countHostCall_ip : s.countHostCall.ip = s.ip := rfl
@[simp] theorem countHostCall_flags : s.countHostCall.flags = s.flags := rfl
@[simp] theorem countHostCall_isr : s.countHostCall.isr = s.isr := rfl
@[simp] theorem countHostCall_irqPending : s.countHostCall.irqPending = s.irqPending := rfl
@[simp] theorem countHostCall_irqEnabled : s.countHostCall.irqEnabled = s.irqEnabled := rfl
@[simp] theorem countHostCall_excEnabled : s.countHostCall.excEnabled = s.excEnabled := rfl
@[simp] theorem countHostCall_excPending : s.countHostCall.excPending = s.excPending := rfl
@[simp] theorem countHostCall_dstate : s.countHostCall.dstate = s.dstate := rfl
@[simp] theorem countHostCall_extInstance : s.countHostCall.extInstance = s.extInstance := rfl
@[simp] theorem countHostCall_record : s.countHostCall.record = s.record := rfl
@[simp] theorem countHostCall_result : s.countHostCall.result = s.result := rfl
@[simp] theorem countHostCall_mem : s.countHostCall.mem = s.mem := rfl
@[simp] theorem countHostCall_cfg : s.countHostCall.cfg = s.cfg := rfl
@[simp] theorem countHostCall_syscalls : s.countHostCall.syscalls = s.syscalls := rfl
@[simp] theorem countHostCall_extensions : s.countHostCall.extensions = s.extensions := rfl
@[simp] theorem countHostCall_hostCalls : s.countHostCall.hostCalls = s.hostCalls + 1 := rfl

end Sys2Proof.Machine
end

