-- ==== Sys2Proof/Laws/Registers.lean ====
section
/-!
SUPPORT. The register file arbiter: reading back a written cell, every other cell untouched, what a register write
leaves in each field, and the sized write as bits and as numbers (10_state R31 to R37).
-/
namespace Sys2Proof.Machine

/-! ### One register file -/

theorem cell_cases (i : CellIdx) : i = 0 ∨ i = 1 ∨ i = 2 ∨ i = 3 ∨ i = 4 ∨ i = 5 ∨ i = 6 ∨ i = 7 := by
  revert i; decide

@[simp] theorem bankGet_bankSet_same (b : Bank) (i : CellIdx) (v : Word) : bankGet (bankSet b i v) i = v := by
  rcases cell_cases i with h | h | h | h | h | h | h | h <;> subst h <;> rfl

theorem bankGet_bankSet_other (b : Bank) (i j : CellIdx) (v : Word) (h : j ≠ i) :
    bankGet (bankSet b i v) j = bankGet b j := by
  rcases cell_cases i with hi | hi | hi | hi | hi | hi | hi | hi <;> subst hi <;>
    rcases cell_cases j with hj | hj | hj | hj | hj | hj | hj | hj <;> subst hj <;> first | rfl | exact absurd rfl h

/-- Two files with equal cells are equal. -/
theorem bank_ext {b b' : Bank} (h : ∀ i, bankGet b i = bankGet b' i) : b = b' := by
  cases b; cases b'
  simp only [Bank.mk.injEq]
  exact ⟨h 0, h 1, h 2, h 3, h 4, h 5, h 6, h 7⟩

/-! ### The unified index -/

theorem upperCell_inj {r r' : RegIdx} (h : r.toNat < 8 ↔ r'.toNat < 8) (hc : upperCell r = upperCell r') : r = r' := by
  revert r r'; decide

@[simp] theorem upperIndex_upper (n : CellIdx) : ¬ (upperIndex n).toNat < 8 := by
  revert n; decide

@[simp] theorem upperCell_upperIndex (n : CellIdx) : upperCell (upperIndex n) = n := by
  revert n; decide

theorem upperIndex_upperCell {r : RegIdx} (h : 8 ≤ r.toNat) : upperIndex (upperCell r) = r := by
  revert r; decide

@[simp] theorem getReg_setReg_same (s : State) (r : RegIdx) (v : Word) : getReg (setReg s r v) r = v := by
  by_cases h : r.toNat < 8 <;> simp [getReg, setReg, h]

theorem getReg_setReg_other (s : State) {r r' : RegIdx} (v : Word) (h : r' ≠ r) :
    getReg (setReg s r v) r' = getReg s r' := by
  by_cases h1 : r.toNat < 8 <;> by_cases h2 : r'.toNat < 8
  · have hc : upperCell r' ≠ upperCell r := fun hc => h (upperCell_inj (by simp [h1, h2]) hc)
    simp [getReg, setReg, h1, h2, bankGet_bankSet_other _ _ _ _ hc]
  · simp [getReg, setReg, h1, h2]
  · simp [getReg, setReg, h1, h2]
  · have hc : upperCell r' ≠ upperCell r := fun hc => h (upperCell_inj (by simp [h1, h2]) hc)
    simp [getReg, setReg, h1, h2, bankGet_bankSet_other _ _ _ _ hc]

/-- `A[n]` is register `8 + n` (10_state R31). -/
theorem getAddr_eq (s : State) (n : CellIdx) : getAddr s n = getReg s (upperIndex n) := by
  simp [getAddr, getReg]

/-- SP is register 15 (10_state R34). -/
theorem getSp_eq (s : State) : getSp s = getReg s 15#4 := rfl

theorem setSp_eq (s : State) (v : Word) : setSp s v = setReg s 15#4 v := rfl

@[simp] theorem getSp_setSp (s : State) (v : Word) : getSp (setSp s v) = v := by
  rw [setSp_eq, getSp_eq, getReg_setReg_same]

@[simp] theorem getReg_setSp_sp (s : State) (v : Word) : getReg (setSp s v) 15#4 = v := by
  exact getReg_setReg_same s 15#4 v

theorem getReg_setSp_other (s : State) (v : Word) {r : RegIdx} (h : r ≠ 15#4) : getReg (setSp s v) r = getReg s r := by
  rw [setSp_eq, getReg_setReg_other s v h]

@[simp] theorem getCr_setReg (s : State) (r : RegIdx) (v : Word) (n : CellIdx) :
    getCr (setReg s r v) n = getCr s n := by
  by_cases h : r.toNat < 8 <;> simp [getCr, setReg, h]

@[simp] theorem getCr_setSp (s : State) (v : Word) (n : CellIdx) : getCr (setSp s v) n = getCr s n := by
  rw [setSp_eq, getCr_setReg]

@[simp] theorem getCr_setCr_same (s : State) (n : CellIdx) (v : Word) : getCr (setCr s n v) n = v := by
  simp [getCr, setCr]

theorem getCr_setCr_other (s : State) {n n' : CellIdx} (v : Word) (h : n' ≠ n) :
    getCr (setCr s n v) n' = getCr s n' := by
  simp [getCr, setCr, bankGet_bankSet_other _ _ _ _ h]

@[simp] theorem getReg_setCr (s : State) (n : CellIdx) (v : Word) (r : RegIdx) :
    getReg (setCr s n v) r = getReg s r := by
  simp [getReg, setCr]

@[simp] theorem getSp_setCr (s : State) (n : CellIdx) (v : Word) : getSp (setCr s n v) = getSp s := (rfl)

/-- Registers depend on the register files alone. -/
theorem getReg_congr {s t : State} (h : t.regs = s.regs) (r : RegIdx) : getReg t r = getReg s r := by
  simp [getReg, h]

theorem getCr_congr {s t : State} (h : t.regs = s.regs) (n : CellIdx) : getCr t n = getCr s n := by
  simp [getCr, h]

theorem getSp_congr {s t : State} (h : t.regs = s.regs) : getSp t = getSp s := by simp [getSp, h]

/-! ### A register write changes no other field -/

@[simp] theorem setReg_ip (s : State) (r : RegIdx) (v : Word) : (setReg s r v).ip = s.ip := by
  rw [setReg]; split <;> rfl

@[simp] theorem setReg_flags (s : State) (r : RegIdx) (v : Word) : (setReg s r v).flags = s.flags := by
  rw [setReg]; split <;> rfl

@[simp] theorem setReg_isr (s : State) (r : RegIdx) (v : Word) : (setReg s r v).isr = s.isr := by
  rw [setReg]; split <;> rfl

@[simp] theorem setReg_irqPending (s : State) (r : RegIdx) (v : Word) : (setReg s r v).irqPending = s.irqPending := by
  rw [setReg]; split <;> rfl

@[simp] theorem setReg_irqEnabled (s : State) (r : RegIdx) (v : Word) : (setReg s r v).irqEnabled = s.irqEnabled := by
  rw [setReg]; split <;> rfl

@[simp] theorem setReg_excEnabled (s : State) (r : RegIdx) (v : Word) : (setReg s r v).excEnabled = s.excEnabled := by
  rw [setReg]; split <;> rfl

@[simp] theorem setReg_excPending (s : State) (r : RegIdx) (v : Word) : (setReg s r v).excPending = s.excPending := by
  rw [setReg]; split <;> rfl

@[simp] theorem setReg_dstate (s : State) (r : RegIdx) (v : Word) : (setReg s r v).dstate = s.dstate := by
  rw [setReg]; split <;> rfl

@[simp] theorem setReg_extInstance (s : State) (r : RegIdx) (v : Word) : (setReg s r v).extInstance = s.extInstance := by
  rw [setReg]; split <;> rfl

@[simp] theorem setReg_record (s : State) (r : RegIdx) (v : Word) : (setReg s r v).record = s.record := by
  rw [setReg]; split <;> rfl

@[simp] theorem setReg_result (s : State) (r : RegIdx) (v : Word) : (setReg s r v).result = s.result := by
  rw [setReg]; split <;> rfl

@[simp] theorem setReg_mem (s : State) (r : RegIdx) (v : Word) : (setReg s r v).mem = s.mem := by
  rw [setReg]; split <;> rfl

@[simp] theorem setReg_cfg (s : State) (r : RegIdx) (v : Word) : (setReg s r v).cfg = s.cfg := by
  rw [setReg]; split <;> rfl

@[simp] theorem setReg_syscalls (s : State) (r : RegIdx) (v : Word) : (setReg s r v).syscalls = s.syscalls := by
  rw [setReg]; split <;> rfl

@[simp] theorem setReg_extensions (s : State) (r : RegIdx) (v : Word) : (setReg s r v).extensions = s.extensions := by
  rw [setReg]; split <;> rfl

@[simp] theorem setReg_hostCalls (s : State) (r : RegIdx) (v : Word) : (setReg s r v).hostCalls = s.hostCalls := by
  rw [setReg]; split <;> rfl

@[simp] theorem setCr_ip (s : State) (n : CellIdx) (v : Word) : (setCr s n v).ip = s.ip := rfl

@[simp] theorem setCr_flags (s : State) (n : CellIdx) (v : Word) : (setCr s n v).flags = s.flags := rfl

@[simp] theorem setCr_isr (s : State) (n : CellIdx) (v : Word) : (setCr s n v).isr = s.isr := rfl

@[simp] theorem setCr_irqPending (s : State) (n : CellIdx) (v : Word) : (setCr s n v).irqPending = s.irqPending := rfl

@[simp] theorem setCr_irqEnabled (s : State) (n : CellIdx) (v : Word) : (setCr s n v).irqEnabled = s.irqEnabled := rfl

@[simp] theorem setCr_excEnabled (s : State) (n : CellIdx) (v : Word) : (setCr s n v).excEnabled = s.excEnabled := rfl

@[simp] theorem setCr_excPending (s : State) (n : CellIdx) (v : Word) : (setCr s n v).excPending = s.excPending := rfl

@[simp] theorem setCr_dstate (s : State) (n : CellIdx) (v : Word) : (setCr s n v).dstate = s.dstate := rfl

@[simp] theorem setCr_extInstance (s : State) (n : CellIdx) (v : Word) : (setCr s n v).extInstance = s.extInstance := rfl

@[simp] theorem setCr_record (s : State) (n : CellIdx) (v : Word) : (setCr s n v).record = s.record := rfl

@[simp] theorem setCr_result (s : State) (n : CellIdx) (v : Word) : (setCr s n v).result = s.result := rfl

@[simp] theorem setCr_mem (s : State) (n : CellIdx) (v : Word) : (setCr s n v).mem = s.mem := rfl

@[simp] theorem setCr_cfg (s : State) (n : CellIdx) (v : Word) : (setCr s n v).cfg = s.cfg := rfl

@[simp] theorem setCr_syscalls (s : State) (n : CellIdx) (v : Word) : (setCr s n v).syscalls = s.syscalls := rfl

@[simp] theorem setCr_extensions (s : State) (n : CellIdx) (v : Word) : (setCr s n v).extensions = s.extensions := rfl

@[simp] theorem setCr_hostCalls (s : State) (n : CellIdx) (v : Word) : (setCr s n v).hostCalls = s.hostCalls := rfl

@[simp] theorem setSp_ip (s : State) (v : Word) : (setSp s v).ip = s.ip := rfl

@[simp] theorem setSp_flags (s : State) (v : Word) : (setSp s v).flags = s.flags := rfl

@[simp] theorem setSp_isr (s : State) (v : Word) : (setSp s v).isr = s.isr := rfl

@[simp] theorem setSp_irqPending (s : State) (v : Word) : (setSp s v).irqPending = s.irqPending := rfl

@[simp] theorem setSp_irqEnabled (s : State) (v : Word) : (setSp s v).irqEnabled = s.irqEnabled := rfl

@[simp] theorem setSp_excEnabled (s : State) (v : Word) : (setSp s v).excEnabled = s.excEnabled := rfl

@[simp] theorem setSp_excPending (s : State) (v : Word) : (setSp s v).excPending = s.excPending := rfl

@[simp] theorem setSp_dstate (s : State) (v : Word) : (setSp s v).dstate = s.dstate := rfl

@[simp] theorem setSp_extInstance (s : State) (v : Word) : (setSp s v).extInstance = s.extInstance := rfl

@[simp] theorem setSp_record (s : State) (v : Word) : (setSp s v).record = s.record := rfl

@[simp] theorem setSp_result (s : State) (v : Word) : (setSp s v).result = s.result := rfl

@[simp] theorem setSp_mem (s : State) (v : Word) : (setSp s v).mem = s.mem := rfl

@[simp] theorem setSp_cfg (s : State) (v : Word) : (setSp s v).cfg = s.cfg := rfl

@[simp] theorem setSp_syscalls (s : State) (v : Word) : (setSp s v).syscalls = s.syscalls := rfl

@[simp] theorem setSp_extensions (s : State) (v : Word) : (setSp s v).extensions = s.extensions := rfl

@[simp] theorem setSp_hostCalls (s : State) (v : Word) : (setSp s v).hostCalls = s.hostCalls := rfl

@[simp] theorem getReg_withIp (s : State) (x : Word) (r : RegIdx) : getReg (s.withIp x) r = getReg s r := (rfl)

@[simp] theorem getCr_withIp (s : State) (x : Word) (n : CellIdx) : getCr (s.withIp x) n = getCr s n := (rfl)

@[simp] theorem getSp_withIp (s : State) (x : Word) : getSp (s.withIp x) = getSp s := (rfl)

@[simp] theorem getReg_withFlags (s : State) (x : Flags) (r : RegIdx) : getReg (s.withFlags x) r = getReg s r := (rfl)

@[simp] theorem getCr_withFlags (s : State) (x : Flags) (n : CellIdx) : getCr (s.withFlags x) n = getCr s n := (rfl)

@[simp] theorem getSp_withFlags (s : State) (x : Flags) : getSp (s.withFlags x) = getSp s := (rfl)

@[simp] theorem getReg_withMem (s : State) (x : Memory) (r : RegIdx) : getReg (s.withMem x) r = getReg s r := (rfl)

@[simp] theorem getCr_withMem (s : State) (x : Memory) (n : CellIdx) : getCr (s.withMem x) n = getCr s n := (rfl)

@[simp] theorem getSp_withMem (s : State) (x : Memory) : getSp (s.withMem x) = getSp s := (rfl)

@[simp] theorem getReg_withIsr (s : State) (x : Isr) (r : RegIdx) : getReg (s.withIsr x) r = getReg s r := (rfl)

@[simp] theorem getCr_withIsr (s : State) (x : Isr) (n : CellIdx) : getCr (s.withIsr x) n = getCr s n := (rfl)

@[simp] theorem getSp_withIsr (s : State) (x : Isr) : getSp (s.withIsr x) = getSp s := (rfl)

@[simp] theorem getReg_withExcPending (s : State) (x : Option ExcId) (r : RegIdx) : getReg (s.withExcPending x) r = getReg s r := (rfl)

@[simp] theorem getCr_withExcPending (s : State) (x : Option ExcId) (n : CellIdx) : getCr (s.withExcPending x) n = getCr s n := (rfl)

@[simp] theorem getSp_withExcPending (s : State) (x : Option ExcId) : getSp (s.withExcPending x) = getSp s := (rfl)

@[simp] theorem getReg_withIrqPending (s : State) (x : List Bool) (r : RegIdx) : getReg (s.withIrqPending x) r = getReg s r := (rfl)

@[simp] theorem getCr_withIrqPending (s : State) (x : List Bool) (n : CellIdx) : getCr (s.withIrqPending x) n = getCr s n := (rfl)

@[simp] theorem getSp_withIrqPending (s : State) (x : List Bool) : getSp (s.withIrqPending x) = getSp s := (rfl)

@[simp] theorem getReg_withIrqEnabled (s : State) (x : List Bool) (r : RegIdx) : getReg (s.withIrqEnabled x) r = getReg s r := (rfl)

@[simp] theorem getCr_withIrqEnabled (s : State) (x : List Bool) (n : CellIdx) : getCr (s.withIrqEnabled x) n = getCr s n := (rfl)

@[simp] theorem getSp_withIrqEnabled (s : State) (x : List Bool) : getSp (s.withIrqEnabled x) = getSp s := (rfl)

@[simp] theorem getReg_withExcEnabled (s : State) (x : ExcMask) (r : RegIdx) : getReg (s.withExcEnabled x) r = getReg s r := (rfl)

@[simp] theorem getCr_withExcEnabled (s : State) (x : ExcMask) (n : CellIdx) : getCr (s.withExcEnabled x) n = getCr s n := (rfl)

@[simp] theorem getSp_withExcEnabled (s : State) (x : ExcMask) : getSp (s.withExcEnabled x) = getSp s := (rfl)

@[simp] theorem getReg_withResult (s : State) (x : StepResult) (r : RegIdx) : getReg (s.withResult x) r = getReg s r := (rfl)

@[simp] theorem getCr_withResult (s : State) (x : StepResult) (n : CellIdx) : getCr (s.withResult x) n = getCr s n := (rfl)

@[simp] theorem getSp_withResult (s : State) (x : StepResult) : getSp (s.withResult x) = getSp s := (rfl)

@[simp] theorem getReg_countHostCall (s : State) (r : RegIdx) : getReg s.countHostCall r = getReg s r := (rfl)

@[simp] theorem getCr_countHostCall (s : State) (n : CellIdx) : getCr s.countHostCall n = getCr s n := (rfl)

@[simp] theorem getSp_countHostCall (s : State) : getSp s.countHostCall = getSp s := (rfl)

/-! ### The sized write -/

theorem width_le (sz : Size) : sz.width ≤ 64 := by cases sz <;> decide

theorem width_pos (sz : Size) : 0 < sz.width := by cases sz <;> decide

theorem pow256_bytes (sz : Size) : 256 ^ sz.bytes = 2 ^ sz.width := by cases sz <;> decide

theorem viewOf_lt (sz : Size) (v : Nat) : viewOf sz v < 2 ^ sz.width := Nat.mod_lt _ (by positivity)

/-- The merged cell as a number: upper bits of the old value, low bits of the new (10_state R36). -/
theorem mergeView_toNat (sz : Size) (old : Word) (v : Nat) :
    (mergeView sz old v).toNat = old.toNat / 2 ^ sz.width * 2 ^ sz.width + v % 2 ^ sz.width := by
  have hv : v % 2 ^ sz.width < 2 ^ sz.width := Nat.mod_lt _ (by positivity)
  have h64 : 2 ^ 64 = 2 ^ (64 - sz.width) * 2 ^ sz.width := by
    rw [← Nat.pow_add, Nat.sub_add_cancel (width_le sz)]
  have hq : old.toNat / 2 ^ sz.width < 2 ^ (64 - sz.width) := by
    apply Nat.div_lt_of_lt_mul
    rw [Nat.mul_comm, ← h64]
    exact old.isLt
  rw [mergeView, BitVec.toNat_ofNat, viewOf, Nat.mod_eq_of_lt]
  rw [h64]
  have hm := Nat.mul_le_mul_right (2 ^ sz.width) hq
  rw [Nat.succ_eq_add_one, Nat.add_mul, Nat.one_mul] at hm
  omega

theorem mergeView_low (sz : Size) (old : Word) (v : Nat) :
    (mergeView sz old v).toNat % 2 ^ sz.width = v % 2 ^ sz.width := by
  rw [mergeView_toNat, Nat.mul_add_mod_self_right, Nat.mod_mod]

theorem mergeView_high (sz : Size) (old : Word) (v : Nat) : upperKept sz old (mergeView sz old v) := by
  have hv : v % 2 ^ sz.width < 2 ^ sz.width := Nat.mod_lt _ (by positivity)
  have hp : 0 < 2 ^ sz.width := by positivity
  rw [upperKept, mergeView_toNat, Nat.add_comm, Nat.add_mul_div_right _ _ hp, Nat.div_eq_of_lt hv, Nat.zero_add]

/-- A Long write replaces the whole cell (10_state R36). -/
theorem mergeView_long (old : Word) (v : Nat) : mergeView .long old v = BitVec.ofNat 64 v := by
  apply BitVec.eq_of_toNat_eq
  rw [mergeView_toNat, BitVec.toNat_ofNat]
  have : old.toNat / 2 ^ Size.long.width = 0 := Nat.div_eq_of_lt old.isLt
  rw [this]
  simp [Size.width, Size.bytes]

end Sys2Proof.Machine
end

