-- ==== Sys2Proof/Laws/Ops.lean ====
section
/-!
SUPPORT. One lemma per shared operation that says all it can do: memory access, stack, the end of an execute phase, fault
routing, trap entry and return, the step boundary, the interrupt port and host transitions.
-/
namespace Sys2Proof.Machine

/-! ### Memory access and stack -/

theorem inBounds_iff (s : State) (a n : Nat) : inBounds s a n = true ↔ a + n ≤ s.cfg.memSize := by
  simp [inBounds]

/-- A read answers exactly when it is in bounds (20_memory R84). -/
theorem readMem_eq_ok {s : State} {a : Word} {n v : Nat} :
    readMem s a n = .ok v ↔ inBounds s a.toNat n = true ∧ v = memReadN s.mem a.toNat n := by
  rw [readMem]
  split
  · next h => simp [h, eq_comm]
  · next h => simp [h]

theorem readMem_eq_error {s : State} {a : Word} {n : Nat} {e : Abort} :
    readMem s a n = .error e ↔ inBounds s a.toNat n = false ∧ e = .raise .memoryOutOfBounds := by
  rw [readMem]
  split
  · next h => simp [h]
  · next h => simp [h, eq_comm]

/-- A write answers exactly when it is in bounds (20_memory R84). -/
theorem writeMem_eq_ok {s t : State} {a : Word} {n v : Nat} :
    writeMem s a n v = .ok t ↔ inBounds s a.toNat n = true ∧ t = s.withMem (memWriteN s.mem a.toNat n v) := by
  rw [writeMem]
  split
  · next h => simp [h, eq_comm]
  · next h => simp [h]

theorem writeMem_eq_error {s : State} {a : Word} {n v : Nat} {e : Abort} :
    writeMem s a n v = .error e ↔ inBounds s a.toNat n = false ∧ e = .raise .memoryOutOfBounds := by
  rw [writeMem]
  split
  · next h => simp [h]
  · next h => simp [h, eq_comm]

/-- A push answers exactly when its slot is in bounds (41_stack_call_lea R240). -/
theorem push64_eq_ok {s t : State} {v : Nat} :
    push64 s v = .ok t ↔ inBounds s (getSp s - 8#64).toNat 8 = true ∧
      t = setSp (s.withMem (memWriteN s.mem (getSp s - 8#64).toNat 8 v)) (getSp s - 8#64) := by
  rw [push64]
  cases h : writeMem s (getSp s - 8#64) 8 v with
  | ok u =>
    obtain ⟨hb, rfl⟩ := writeMem_eq_ok.1 h
    simp only [bind, Except.bind, pure, Except.pure, hb, true_and, Except.ok.injEq]
    exact eq_comm
  | error e =>
    obtain ⟨hb, rfl⟩ := writeMem_eq_error.1 h
    simp only [bind, Except.bind, hb, reduceCtorEq, Bool.false_eq_true, false_and]

theorem push64_eq_error {s : State} {v : Nat} {e : Abort} :
    push64 s v = .error e ↔ inBounds s (getSp s - 8#64).toNat 8 = false ∧ e = .raise .memoryOutOfBounds := by
  rw [push64]
  cases h : writeMem s (getSp s - 8#64) 8 v with
  | ok u =>
    obtain ⟨hb, rfl⟩ := writeMem_eq_ok.1 h
    simp only [bind, Except.bind, pure, Except.pure, hb, reduceCtorEq, Bool.true_eq_false, false_and]
  | error e =>
    obtain ⟨hb, rfl⟩ := writeMem_eq_error.1 h
    simp only [bind, Except.bind, hb, true_and, Except.error.injEq]
    exact eq_comm

/-- A pop answers exactly when the slot at SP is in bounds (41_stack_call_lea R240). -/
theorem pop64_eq_ok {s : State} {p : Nat × State} :
    pop64 s = .ok p ↔ inBounds s (getSp s).toNat 8 = true ∧
      p = (memReadN s.mem (getSp s).toNat 8, setSp s (getSp s + 8#64)) := by
  rw [pop64]
  cases h : readMem s (getSp s) 8 with
  | ok u =>
    obtain ⟨hb, rfl⟩ := readMem_eq_ok.1 h
    simp [bind, Except.bind, pure, Except.pure, hb, eq_comm]
  | error e =>
    obtain ⟨hb, rfl⟩ := readMem_eq_error.1 h
    simp [bind, Except.bind, hb]

theorem pop64_eq_error {s : State} {e : Abort} :
    pop64 s = .error e ↔ inBounds s (getSp s).toNat 8 = false ∧ e = .raise .memoryOutOfBounds := by
  rw [pop64]
  cases h : readMem s (getSp s) 8 with
  | ok u =>
    obtain ⟨hb, rfl⟩ := readMem_eq_ok.1 h
    simp [bind, Except.bind, pure, Except.pure, hb]
  | error e =>
    obtain ⟨hb, rfl⟩ := readMem_eq_error.1 h
    simp [bind, Except.bind, hb, eq_comm]

/-! ### The end of an execute phase -/

@[simp] theorem finish_ok (s t : State) : finish s (.ok t) = .next t := rfl

@[simp] theorem finish_raise (s : State) (r : Reason) : finish s (.error (.raise r)) = .next (route s r) := rfl

@[simp] theorem finish_stop (s : State) (f : Fault) : finish s (.error (.stop f)) = .fault f := rfl

/-- An execute phase goes on when it completed, or when it raised a reason and was routed. -/
theorem finish_eq_next {s t : State} {r : Except Abort State} :
    finish s r = .next t ↔ r = .ok t ∨ ∃ q, r = .error (.raise q) ∧ t = route s q := by
  rcases r with (q | f) | u
  · simp [eq_comm]
  · simp
  · simp

/-! ### Fault routing -/

theorem route_enabled {s : State} {r : Reason} {e : ExcId} (h : reasonExc r = some e)
    (he : excIsEnabled s.excEnabled e = true) : route s r = (s.withResult (.fail r)).withExcPending (some e) := by
  simp [route, h, he]

theorem route_disabled {s : State} {r : Reason} {e : ExcId} (h : reasonExc r = some e)
    (he : excIsEnabled s.excEnabled e = false) : route s r = s.withResult (.fail r) := by
  simp [route, h, he]

theorem route_none {s : State} {r : Reason} (h : reasonExc r = none) : route s r = s.withResult (.fail r) := by
  simp [route, h]

/-- Routing either only latches the result, or also makes the enabled exception pending (60_exceptions R413). -/
theorem route_cases (s : State) (r : Reason) :
    route s r = s.withResult (.fail r) ∨
    ∃ e, reasonExc r = some e ∧ excIsEnabled s.excEnabled e = true ∧
      route s r = (s.withResult (.fail r)).withExcPending (some e) := by
  cases h : reasonExc r with
  | none => exact .inl (route_none h)
  | some e =>
    cases he : excIsEnabled s.excEnabled e with
    | false => exact .inl (route_disabled h he)
    | true => exact .inr ⟨e, rfl, he, route_enabled h he⟩

@[simp] theorem route_result (s : State) (r : Reason) : (route s r).result = .fail r := by
  rcases route_cases s r with h | ⟨e, _, _, h⟩ <;> rw [h] <;> rfl

/-- Routing changes nothing but the result and the pending exception (60_exceptions R413). -/
theorem route_onlyRouted (s : State) (r : Reason) : onlyRouted s (route s r) := by
  rcases route_cases s r with h | ⟨e, _, _, h⟩ <;> rw [h] <;>
    exact ⟨rfl, rfl, rfl, rfl, rfl, rfl, rfl, rfl, rfl, rfl, rfl, rfl, rfl, rfl, rfl⟩

/-! ### Trap entry and return -/

/-- Trap entry answers exactly when the vector entry and the 16 stack bytes are in bounds, with all it does
(60_exceptions R430). -/
theorem trapEntry_eq_some {s t : State} {slot : Nat} :
    trapEntry s slot = some t ↔
      inBounds s (vectorAddr s slot).toNat 8 = true ∧ inBounds s (getSp s - 16#64).toNat 16 = true ∧
      t = (((setSp (s.withMem (memWriteN (memWriteN s.mem (getSp s - 8#64).toNat 8 s.ip.toNat) (getSp s - 16#64).toNat 8
        (statusWord s.flags))) (getSp s - 16#64)).withIp
          (BitVec.ofNat 64 (memReadN s.mem (vectorAddr s slot).toNat 8))).withIsr .executing) := by
  rw [trapEntry]
  split
  · next h =>
    simp only [Bool.and_eq_true] at h
    simp only [h.1, h.2, true_and, Option.some.injEq]
    exact eq_comm
  · next h =>
    simp only [Bool.and_eq_true, not_and] at h
    simp only [reduceCtorEq, false_iff, not_and]
    intro h1 h2
    exact absurd h2 (h h1)

theorem trapEntry_eq_none {s : State} {slot : Nat} :
    trapEntry s slot = none ↔
      ¬ (inBounds s (vectorAddr s slot).toNat 8 = true ∧ inBounds s (getSp s - 16#64).toNat 16 = true) := by
  rw [trapEntry]
  split
  · next h => simpa using h
  · next h => simpa using h

/-- The return from a trap answers exactly when the 16 bytes at SP are in bounds (43_system_ext R335). -/
theorem trapReturn_eq_ok {s t : State} :
    trapReturn s = .ok t ↔ inBounds s (getSp s).toNat 16 = true ∧
      t = (((setSp s (getSp s + 16#64)).withFlags (restoreFlags s.flags (memReadN s.mem (getSp s).toNat 8))).withIp
        (BitVec.ofNat 64 (memReadN s.mem (getSp s + 8#64).toNat 8))).withIsr .idle := by
  rw [trapReturn]
  split
  · next h => simp [h, eq_comm]
  · next h => simp [h]

theorem trapReturn_eq_error {s : State} {e : Abort} :
    trapReturn s = .error e ↔ inBounds s (getSp s).toNat 16 = false ∧ e = .raise .memoryOutOfBounds := by
  rw [trapReturn]
  split
  · next h => simp [h]
  · next h => simp [h, eq_comm]

/-- The restored status word is the saved one (10_state R43, 43_system_ext R335). -/
theorem restoreFlags_statusWord (f g : Flags) : restoreFlags g (statusWord f) = { f with h := g.h } := by
  obtain ⟨c, v, z, n, x, h⟩ := f
  cases c <;> cases v <;> cases z <;> cases n <;> cases x <;> cases h <;> rfl

theorem statusWord_lt (f : Flags) : statusWord f < 64 := by
  obtain ⟨c, v, z, n, x, h⟩ := f
  cases c <;> cases v <;> cases z <;> cases n <;> cases x <;> cases h <;> decide

/-! ### The step boundary -/

/-- The line taken is eligible, and no lower line is (60_exceptions R402). -/
theorem firstEligible_eq_some {p e : List Bool} {l : Nat} :
    firstEligible p e = some l ↔ p[l]? = some true ∧ e[l]? = some true ∧
      ∀ k < l, ¬ (p[k]? = some true ∧ e[k]? = some true) := by
  induction p generalizing e l with
  | nil => simp [firstEligible]
  | cons b p ih =>
    cases e with
    | nil => simp [firstEligible]
    | cons c e =>
      rw [firstEligible]
      by_cases h : (b && c) = true
      · rw [if_pos h]
        simp only [Bool.and_eq_true] at h
        cases l with
        | zero => simp [h.1, h.2]
        | succ l =>
          simp only [Option.some.injEq, reduceCtorEq, false_iff, not_and, not_forall]
          exact fun _ _ => ⟨0, Nat.succ_pos l, by simp [h.1, h.2]⟩
      · rw [if_neg h]
        simp only [Bool.and_eq_true] at h
        cases l with
        | zero =>
          simp only [Option.map_eq_some_iff, List.getElem?_cons_zero, Option.some.injEq]
          constructor
          · rintro ⟨a, _, ha⟩; omega
          · rintro ⟨h1, h2, _⟩; exact absurd ⟨h1, h2⟩ h
        | succ l =>
          simp only [Option.map_eq_some_iff, List.getElem?_cons_succ, Nat.add_right_cancel_iff, exists_eq_right, ih]
          constructor
          · rintro ⟨h1, h2, h3⟩
            refine ⟨h1, h2, fun k hk => ?_⟩
            cases k with
            | zero => simpa using h
            | succ k => simpa using h3 k (by omega)
          · rintro ⟨h1, h2, h3⟩
            refine ⟨h1, h2, fun k hk => ?_⟩
            simpa using h3 (k + 1) (by omega)

theorem firstEligible_eq_none {p e : List Bool} :
    firstEligible p e = none ↔ ∀ l : Nat, ¬ (p[l]? = some true ∧ e[l]? = some true) := by
  induction p generalizing e with
  | nil => simp [firstEligible]
  | cons b p ih =>
    cases e with
    | nil => simp [firstEligible]
    | cons c e =>
      rw [firstEligible]
      by_cases h : (b && c) = true
      · rw [if_pos h]
        simp only [Bool.and_eq_true] at h
        simp only [reduceCtorEq, false_iff, not_forall, not_not]
        exact ⟨0, by simp [h.1, h.2]⟩
      · rw [if_neg h]
        simp only [Bool.and_eq_true] at h
        simp only [Option.map_eq_none_iff, ih]
        constructor
        · intro h1 l
          cases l with
          | zero => simpa using h
          | succ l => simpa using h1 l
        · intro h1 l
          simpa using h1 (l + 1)

/-- Everything phase 1 can do (60_exceptions R400 to R402, R431, R434). -/
theorem stepBoundary_cases (s : State) :
    (∃ e t, s.excPending = some e ∧ trapEntry (s.withExcPending none) (excSlot e) = some t ∧
      stepBoundary s = .go t) ∨
    (∃ e, s.excPending = some e ∧ trapEntry (s.withExcPending none) (excSlot e) = none ∧
      stepBoundary s = .halted (haltOnTrapFault (s.withExcPending none))) ∨
    (∃ l t, s.excPending = none ∧ s.isr = .idle ∧ firstEligible s.irqPending s.irqEnabled = some l ∧
      trapEntry s (irqSlot l) = some t ∧ stepBoundary s = .go (t.withIrqPending (t.irqPending.set l false))) ∨
    (∃ l, s.excPending = none ∧ s.isr = .idle ∧ firstEligible s.irqPending s.irqEnabled = some l ∧
      trapEntry s (irqSlot l) = none ∧ stepBoundary s = .halted (haltOnTrapFault s)) ∨
    (noTrapReady s = true ∧ stepBoundary s = .go s) := by
  unfold stepBoundary noTrapReady
  cases hp : s.excPending with
  | some e =>
    simp only
    cases ht : trapEntry (s.withExcPending none) (excSlot e) with
    | some t => exact .inl ⟨e, t, rfl, ht, rfl⟩
    | none => exact .inr (.inl ⟨e, rfl, ht, rfl⟩)
  | none =>
    simp only
    cases hi : s.isr with
    | executing => simp
    | idle =>
      simp only
      cases hl : firstEligible s.irqPending s.irqEnabled with
      | none => simp
      | some l =>
        simp only
        cases ht : trapEntry s (irqSlot l) with
        | some t => exact .inr (.inr (.inl ⟨l, t, trivial, trivial, rfl, ht, rfl⟩))
        | none => exact .inr (.inr (.inr (.inl ⟨l, trivial, trivial, rfl, ht, rfl⟩)))

/-- With no trap ready the step goes on from the same state. -/
theorem stepBoundary_noTrap {s : State} (h : noTrapReady s = true) : stepBoundary s = .go s := by
  rcases stepBoundary_cases s with ⟨e, t, hp, _⟩ | ⟨e, hp, _⟩ | ⟨l, t, _, hi, hl, _⟩ | ⟨l, _, hi, hl, _⟩ | ⟨_, hb⟩
  · simp [noTrapReady, hp] at h
  · simp [noTrapReady, hp] at h
  · simp [noTrapReady, hi, hl] at h
  · simp [noTrapReady, hi, hl] at h
  · exact hb

/-! ### Host transitions -/

/-- A host transition's write of flags keeps H. -/
@[simp] theorem replaceFlags_h (f : Flags) (c v z n x : Option Bool) : (replaceFlags f c v z n x).h = f.h := rfl

/-- One write of a host transition: all it can do (43_system_ext R331, R345). -/
theorem applyWrite_cases (s : State) (w : CoreWrite) :
    (∃ r v, w = .setReg r v ∧ applyWrite s w = setReg s r v) ∨
    (∃ n v, w = .setCr n v ∧ applyWrite s w = setCr s n v) ∨
    (∃ c v z n x, w = .setFlags c v z n x ∧ applyWrite s w = s.withFlags (replaceFlags s.flags c v z n x)) ∨
    (∃ a sz v, w = .store a sz v ∧ inBounds s a.toNat sz.bytes = true ∧
      applyWrite s w = s.withMem (memWriteN s.mem a.toNat sz.bytes v.toNat)) ∨
    (∃ a sz v, w = .store a sz v ∧ inBounds s a.toNat sz.bytes = false ∧ applyWrite s w = s) := by
  cases w with
  | setReg r v => exact .inl ⟨r, v, rfl, rfl⟩
  | setCr n v => exact .inr (.inl ⟨n, v, rfl, rfl⟩)
  | setFlags c v z n x => exact .inr (.inr (.inl ⟨c, v, z, n, x, rfl, rfl⟩))
  | store a sz v =>
    cases h : inBounds s a.toNat sz.bytes with
    | true => exact .inr (.inr (.inr (.inl ⟨a, sz, v, rfl, h, by simp [applyWrite, h]⟩)))
    | false => exact .inr (.inr (.inr (.inr ⟨a, sz, v, rfl, h, by simp [applyWrite, h]⟩)))

/-- One operation of the interrupt port: all it can do (60_exceptions R420 to R423). -/
theorem applyPortOp_cases (s : State) (p : PortOp) :
    (∃ l, p = .raiseInterrupt l ∧ l < s.cfg.numIrq ∧ applyPortOp s p = s.withIrqPending (s.irqPending.set l true)) ∨
    (∃ l, p = .enableInterrupt l ∧ l < s.cfg.numIrq ∧ applyPortOp s p = s.withIrqEnabled (s.irqEnabled.set l true)) ∨
    (∃ e id, p = .enableException e ∧ excOfNumber e = some id ∧
      applyPortOp s p = s.withExcEnabled (excEnable s.excEnabled id)) ∨
    applyPortOp s p = s := by
  cases p with
  | raiseInterrupt l =>
    by_cases h : l < s.cfg.numIrq
    · exact .inl ⟨l, rfl, h, by simp [applyPortOp, raiseLine, h]⟩
    · exact .inr (.inr (.inr (by simp [applyPortOp, raiseLine, h])))
  | enableInterrupt l =>
    by_cases h : l < s.cfg.numIrq
    · exact .inr (.inl ⟨l, rfl, h, by simp [applyPortOp, enableLine, h]⟩)
    · exact .inr (.inr (.inr (by simp [applyPortOp, enableLine, h])))
  | enableException e =>
    cases h : excOfNumber e with
    | some id => exact .inr (.inr (.inl ⟨e, id, rfl, h, by simp [applyPortOp, enableExc, h]⟩))
    | none => exact .inr (.inr (.inr (by simp [applyPortOp, enableExc, h])))

theorem excIsEnabled_enable (m : ExcMask) (e e' : ExcId) :
    excIsEnabled (excEnable m e) e' = (decide (e' = e) || excIsEnabled m e') := by
  cases e <;> cases e' <;> simp [excIsEnabled, excEnable]

end Sys2Proof.Machine
end

