-- ==== Sys2Proof/Laws/Operands.lean ====
section
/-!
SUPPORT. Reading and writing locations: what each answers, that a written location holds the value, and that nothing
else changes (20_memory R99, R100; 10_state R35, R36).
-/
namespace Sys2Proof.Machine

/-- A location answers exactly when it is readable, with what it holds. -/
theorem readLoc_eq_ok {s : State} {sz : Size} {loc : Loc} {v : Nat} :
    readLoc s sz loc = .ok v ↔ readable s sz loc = true ∧ v = locView s sz loc := by
  cases loc with
  | mem a => exact readMem_eq_ok
  | _ => simp [readLoc, readable, locView, viewOf, eq_comm]

theorem readLoc_eq_error {s : State} {sz : Size} {loc : Loc} {e : Abort} :
    readLoc s sz loc = .error e ↔ readable s sz loc = false ∧ e = .raise .memoryOutOfBounds := by
  cases loc with
  | mem a => exact readMem_eq_error
  | _ => simp [readLoc, readable]

theorem locView_lt (s : State) (sz : Size) (loc : Loc) : locView s sz loc < 2 ^ sz.width := by
  cases loc with
  | mem a => rw [← pow256_bytes]; exact memReadN_lt _ _ _
  | _ => exact Nat.mod_lt _ (by positivity)

/-- A writable location takes the value. -/
theorem writeLoc_ok {s : State} {sz : Size} {loc : Loc} (v : Nat) (h : writable s sz loc = true) :
    ∃ t, writeLoc s sz loc v = .ok t := by
  cases loc with
  | imm _ => simp [writable] at h
  | reg r => exact ⟨_, rfl⟩
  | creg n => exact ⟨_, rfl⟩
  | mem a => exact ⟨_, writeMem_eq_ok.2 ⟨h, rfl⟩⟩

/-- Everything a write of a location can do. -/
theorem writeLoc_cases {s t : State} {sz : Size} {loc : Loc} {v : Nat} (h : writeLoc s sz loc v = .ok t) :
    (∃ r, loc = .reg r ∧ t = setReg s r (mergeView sz (getReg s r) v)) ∨
    (∃ n, loc = .creg n ∧ t = setCr s n (mergeView sz (getCr s n) v)) ∨
    (∃ a, loc = .mem a ∧ inBounds s a.toNat sz.bytes = true ∧ t = s.withMem (memWriteN s.mem a.toNat sz.bytes v)) := by
  cases loc with
  | imm _ => simp [writeLoc] at h
  | reg r => exact .inl ⟨r, rfl, by simpa [writeLoc, eq_comm] using h⟩
  | creg n => exact .inr (.inl ⟨n, rfl, by simpa [writeLoc, eq_comm] using h⟩)
  | mem a => exact .inr (.inr ⟨a, rfl, writeMem_eq_ok.1 h⟩)

theorem writeLoc_eq_error {s : State} {sz : Size} {loc : Loc} {v : Nat} {e : Abort} (h : writeLoc s sz loc v = .error e) :
    (∃ i, loc = .imm i ∧ e = .stop .illFormedOperand) ∨
    (∃ a, loc = .mem a ∧ inBounds s a.toNat sz.bytes = false ∧ e = .raise .memoryOutOfBounds) := by
  cases loc with
  | imm i => exact .inl ⟨i, rfl, by simpa [writeLoc, eq_comm] using h⟩
  | reg r => simp [writeLoc] at h
  | creg n => simp [writeLoc] at h
  | mem a => exact .inr ⟨a, rfl, writeMem_eq_error.1 h⟩

/-- A written location changes neither IP, nor flags, nor the controller. -/
theorem writeLoc_control {s t : State} {sz : Size} {loc : Loc} {v : Nat} (h : writeLoc s sz loc v = .ok t) :
    t.ip = s.ip ∧ t.flags = s.flags ∧ sameControl s t := by
  rcases writeLoc_cases h with ⟨r, _, rfl⟩ | ⟨n, _, rfl⟩ | ⟨a, _, _, rfl⟩ <;> simp [sameControl]

/-- A written location holds the low bits of the value (40_move_arith R201). -/
theorem writeLoc_view {s t : State} {sz : Size} {loc : Loc} {v : Nat} (hm : Memory.wf s.mem = true)
    (h : writeLoc s sz loc v = .ok t) : locView t sz loc = v % 2 ^ sz.width := by
  rcases writeLoc_cases h with ⟨r, rfl, rfl⟩ | ⟨n, rfl, rfl⟩ | ⟨a, rfl, _, rfl⟩
  · simp [locView, mergeView_low]
  · simp [locView, mergeView_low]
  · simp [locView, memReadN_memWriteN hm, pow256_bytes]

/-- A written location is all that changes (10_state R36). -/
theorem writeLoc_frame {s t : State} {sz : Size} {loc : Loc} {v : Nat} (hm : Memory.wf s.mem = true)
    (h : writeLoc s sz loc v = .ok t) : sameOutside s t sz loc := by
  rcases writeLoc_cases h with ⟨r, rfl, rfl⟩ | ⟨n, rfl, rfl⟩ | ⟨a, rfl, _, rfl⟩
  · refine ⟨fun r' hr => getReg_setReg_other _ _ hr, ?_, fun n => by simp, fun x => by simp⟩
    rw [getReg_setReg_same]; exact mergeView_high _ _ _
  · refine ⟨fun r => by simp, fun n' hn => getCr_setCr_other _ _ hn, ?_, fun x => by simp⟩
    rw [getCr_setCr_same]; exact mergeView_high _ _ _
  · exact ⟨fun r => by simp, fun n => by simp, fun x hx => by
      simpa using memRead_memWriteN_other hm _ _ _ x hx⟩

/-- Frames look at registers and memory alone. -/
theorem sameOutside_congr {s t u : State} {sz : Size} {loc : Loc} (h : sameOutside s t sz loc)
    (hr : u.regs = t.regs) (hm : u.mem = t.mem) : sameOutside s u sz loc := by
  cases loc with
  | imm v => exact h.elim
  | _ => simpa [sameOutside, sameRegsExcept, sameRegs, sameCrs, sameMem, sameMemExcept, getReg_congr hr,
      getCr_congr hr, hm] using h

theorem locView_congr {s t : State} {sz : Size} {loc : Loc} (hr : t.regs = s.regs) (hm : t.mem = s.mem) :
    locView t sz loc = locView s sz loc := by
  cases loc <;> simp [locView, getReg_congr hr, getCr_congr hr, hm]

end Sys2Proof.Machine
end

