-- ==== Sys2Proof/Laws/Exec.lean ====
section
/-!
SUPPORT. What an execute phase can do: the shape shared by the arithmetic instructions, what a completed phase keeps
(`Kept`), what host transitions keep (43_system_ext R331, R345), and all that `exec` can answer.
-/
namespace Sys2Proof.Machine

/-! ### What every completed execute phase keeps -/

/-- What no completed execute phase changes: the configuration, the pending exception, the decoder, the record and the
result; the bits that are set stay set, and memory stays canonical and inside. -/
structure Kept (s t : State) : Prop where
  cfg : t.cfg = s.cfg
  syscalls : t.syscalls = s.syscalls
  extensions : t.extensions = s.extensions
  excPending : t.excPending = s.excPending
  dstate : t.dstate = s.dstate
  extInstance : t.extInstance = s.extInstance
  record : t.record = s.record
  result : t.result = s.result
  pendingLength : t.irqPending.length = s.irqPending.length
  enabledLength : t.irqEnabled.length = s.irqEnabled.length
  bits : bitsKept s t
  wf : Memory.wf s.mem = true → Memory.wf t.mem = true
  inside : memInside s.cfg.memSize s.mem = true → memInside s.cfg.memSize t.mem = true

theorem bitsKept_refl (s : State) : bitsKept s s := ⟨fun _ h => h, fun _ h => h, fun _ h => h⟩

theorem bitsKept_trans {s t u : State} (h : bitsKept s t) (h' : bitsKept t u) : bitsKept s u :=
  ⟨fun l hl => h'.1 l (h.1 l hl), fun l hl => h'.2.1 l (h.2.1 l hl), fun e he => h'.2.2 e (h.2.2 e he)⟩

theorem Kept.refl (s : State) : Kept s s :=
  ⟨rfl, rfl, rfl, rfl, rfl, rfl, rfl, rfl, rfl, rfl, bitsKept_refl s, id, id⟩

theorem Kept.trans {s t u : State} (h : Kept s t) (h' : Kept t u) : Kept s u where
  cfg := h'.cfg.trans h.cfg
  syscalls := h'.syscalls.trans h.syscalls
  extensions := h'.extensions.trans h.extensions
  excPending := h'.excPending.trans h.excPending
  dstate := h'.dstate.trans h.dstate
  extInstance := h'.extInstance.trans h.extInstance
  record := h'.record.trans h.record
  result := h'.result.trans h.result
  pendingLength := h'.pendingLength.trans h.pendingLength
  enabledLength := h'.enabledLength.trans h.enabledLength
  bits := bitsKept_trans h.bits h'.bits
  wf := fun hw => h'.wf (h.wf hw)
  inside := fun hi => by
    have := h'.inside (by rw [h.cfg]; exact h.inside hi)
    rwa [h.cfg] at this

theorem kept_setReg (s : State) (r : RegIdx) (v : Word) : Kept s (setReg s r v) := by
  constructor <;> simp [bitsKept]

theorem kept_setCr (s : State) (n : CellIdx) (v : Word) : Kept s (setCr s n v) := by
  constructor <;> simp [bitsKept]

theorem kept_setSp (s : State) (v : Word) : Kept s (setSp s v) := kept_setReg s 15#4 v

theorem kept_withFlags (s : State) (f : Flags) : Kept s (s.withFlags f) := by
  constructor <;> simp [bitsKept]

theorem kept_withIp (s : State) (v : Word) : Kept s (s.withIp v) := by
  constructor <;> simp [bitsKept]

theorem kept_withIsr (s : State) (i : Isr) : Kept s (s.withIsr i) := by
  constructor <;> simp [bitsKept]

theorem kept_countHostCall (s : State) : Kept s s.countHostCall := by
  constructor <;> simp [bitsKept]

theorem kept_store {s : State} {a n : Nat} (v : Nat) (h : inBounds s a n = true) :
    Kept s (s.withMem (memWriteN s.mem a n v)) := by
  constructor <;> try simp [bitsKept]
  · exact fun hw => memWriteN_wf hw a n v
  · exact fun hi => memWriteN_inside hi a n v ((inBounds_iff s a n).1 h)

theorem kept_writeLoc {s t : State} {sz : Size} {loc : Loc} {v : Nat} (h : writeLoc s sz loc v = .ok t) : Kept s t := by
  rcases writeLoc_cases h with ⟨r, _, rfl⟩ | ⟨n, _, rfl⟩ | ⟨a, _, hb, rfl⟩
  · exact kept_setReg _ _ _
  · exact kept_setCr _ _ _
  · exact kept_store _ hb

theorem kept_push64 {s t : State} {v : Nat} (h : push64 s v = .ok t) : Kept s t := by
  obtain ⟨hb, rfl⟩ := push64_eq_ok.1 h
  exact (kept_store v hb).trans (kept_setSp _ _)

theorem kept_pop64 {s : State} {p : Nat × State} (h : pop64 s = .ok p) : Kept s p.2 := by
  obtain ⟨_, rfl⟩ := pop64_eq_ok.1 h
  exact kept_setSp _ _

theorem kept_trapReturn {s t : State} (h : trapReturn s = .ok t) : Kept s t := by
  obtain ⟨_, rfl⟩ := trapReturn_eq_ok.1 h
  exact (((kept_setSp s _).trans (kept_withFlags _ _)).trans (kept_withIp _ _)).trans (kept_withIsr _ _)

/-! ### Host transitions -/

theorem kept_applyWrite (s : State) (w : CoreWrite) : Kept s (applyWrite s w) := by
  rcases applyWrite_cases s w with ⟨r, v, _, h⟩ | ⟨n, v, _, h⟩ | ⟨c, v, z, n, x, _, h⟩ | ⟨a, sz, v, _, hb, h⟩ |
      ⟨a, sz, v, _, _, h⟩ <;> rw [h]
  · exact kept_setReg _ _ _
  · exact kept_setCr _ _ _
  · exact kept_withFlags _ _
  · exact kept_store _ hb
  · exact Kept.refl s

/-- A set bit of a list stays set when one more is set. -/
theorem getElem?_set_true {l : List Bool} {i k : Nat} (h : l[k]? = some true) : (l.set i true)[k]? = some true := by
  rw [List.getElem?_set]
  split
  · next hik =>
    subst hik
    rw [if_pos (List.getElem?_eq_some_iff.1 h).1]
  · exact h

theorem kept_applyPortOp (s : State) (p : PortOp) : Kept s (applyPortOp s p) := by
  rcases applyPortOp_cases s p with ⟨l, _, _, h⟩ | ⟨l, _, _, h⟩ | ⟨e, id, _, _, h⟩ | h <;> rw [h]
  · constructor <;> try simp
    exact ⟨fun k hk => getElem?_set_true hk, fun k hk => hk, fun e he => he⟩
  · constructor <;> try simp
    exact ⟨fun k hk => hk, fun k hk => getElem?_set_true hk, fun e he => he⟩
  · constructor <;> try simp
    exact ⟨fun k hk => hk, fun k hk => hk, fun e' he => by simp [excIsEnabled_enable, he]⟩
  · exact Kept.refl s

theorem kept_applyAction (s : State) (a : CallbackAction) : Kept s (applyAction s a) := by
  cases a with
  | write w => exact kept_applyWrite s w
  | port p => exact kept_applyPortOp s p

theorem kept_foldl_applyWrite (ws : List CoreWrite) (s : State) : Kept s (ws.foldl applyWrite s) := by
  induction ws generalizing s with
  | nil => exact Kept.refl s
  | cons w ws ih => exact (kept_applyWrite s w).trans (ih _)

theorem kept_foldl_applyAction (as : List CallbackAction) (s : State) : Kept s (as.foldl applyAction s) := by
  induction as generalizing s with
  | nil => exact Kept.refl s
  | cons a as ih => exact (kept_applyAction s a).trans (ih _)

theorem kept_runCallback (cb : Callback) (s : State) : Kept s (runCallback cb s) :=
  (kept_countHostCall s).trans (kept_foldl_applyAction _ _)

/-- A host transition writes neither IP, nor H, nor the ISR state, nor the count (43_system_ext R331, R345). -/
def hostSilent (s t : State) : Prop :=
  t.ip = s.ip ∧ t.flags.h = s.flags.h ∧ t.isr = s.isr ∧ t.hostCalls = s.hostCalls

theorem hostSilent_applyWrite (s : State) (w : CoreWrite) : hostSilent s (applyWrite s w) := by
  rcases applyWrite_cases s w with ⟨r, v, _, h⟩ | ⟨n, v, _, h⟩ | ⟨c, v, z, n, x, _, h⟩ | ⟨a, sz, v, _, hb, h⟩ |
      ⟨a, sz, v, _, _, h⟩ <;> rw [h] <;> simp [hostSilent]

theorem hostSilent_applyAction (s : State) (a : CallbackAction) : hostSilent s (applyAction s a) := by
  cases a with
  | write w => exact hostSilent_applyWrite s w
  | port p =>
    rcases applyPortOp_cases s p with ⟨l, _, _, h⟩ | ⟨l, _, _, h⟩ | ⟨e, id, _, _, h⟩ | h <;>
      simp only [applyAction] <;> rw [h] <;> simp [hostSilent]

theorem hostSilent_foldl_applyWrite (ws : List CoreWrite) (s : State) : hostSilent s (ws.foldl applyWrite s) := by
  induction ws generalizing s with
  | nil => exact ⟨rfl, rfl, rfl, rfl⟩
  | cons w ws ih =>
    obtain ⟨a1, a2, a3, a4⟩ := hostSilent_applyWrite s w
    obtain ⟨b1, b2, b3, b4⟩ := ih (applyWrite s w)
    exact ⟨b1.trans a1, b2.trans a2, b3.trans a3, b4.trans a4⟩

theorem hostSilent_foldl_applyAction (as : List CallbackAction) (s : State) :
    hostSilent s (as.foldl applyAction s) := by
  induction as generalizing s with
  | nil => exact ⟨rfl, rfl, rfl, rfl⟩
  | cons w ws ih =>
    obtain ⟨a1, a2, a3, a4⟩ := hostSilent_applyAction s w
    obtain ⟨b1, b2, b3, b4⟩ := ih (applyAction s w)
    exact ⟨b1.trans a1, b2.trans a2, b3.trans a3, b4.trans a4⟩

/-- An executor's writes leave the interrupt and exception bits alone (43_system_ext R345). -/
theorem foldl_applyWrite_bits (ws : List CoreWrite) (s : State) :
    (ws.foldl applyWrite s).irqPending = s.irqPending ∧ (ws.foldl applyWrite s).irqEnabled = s.irqEnabled ∧
    (ws.foldl applyWrite s).excEnabled = s.excEnabled := by
  induction ws generalizing s with
  | nil => exact ⟨rfl, rfl, rfl⟩
  | cons w ws ih =>
    obtain ⟨b1, b2, b3⟩ := ih (applyWrite s w)
    have : (applyWrite s w).irqPending = s.irqPending ∧ (applyWrite s w).irqEnabled = s.irqEnabled ∧
        (applyWrite s w).excEnabled = s.excEnabled := by
      rcases applyWrite_cases s w with ⟨r, v, _, h⟩ | ⟨n, v, _, h⟩ | ⟨c, v, z, n, x, _, h⟩ | ⟨a, sz, v, _, hb, h⟩ |
        ⟨a, sz, v, _, _, h⟩ <;> rw [h] <;> simp
    exact ⟨b1.trans this.1, b2.trans this.2.1, b3.trans this.2.2⟩

/-! ### The shared arithmetic shape -/

/-- A read, compute and write phase completes exactly when both operands are readable, the operation answers and the
destination takes the result. -/
theorem readModifyWrite_eq_ok {op : Nat → Nat → Nat → Except Abort AluOut} {sz : Size} {d s : Operand} {st t : State} :
    readModifyWrite op sz d s st = .ok t ↔
      readable st sz (resolve st d) = true ∧ readable st sz (resolve st s) = true ∧
      ∃ o u, op sz.width (locView st sz (resolve st d)) (locView st sz (resolve st s)) = .ok o ∧
        writeLoc st sz (resolve st d) o.value = .ok u ∧ t = u.withFlags (arithFlags st.flags o) := by
  unfold readModifyWrite
  cases ha : readLoc st sz (resolve st d) with
  | error e =>
    have := (readLoc_eq_error.1 ha).1
    simp [bind, Except.bind, this]
  | ok a =>
    obtain ⟨hd, rfl⟩ := readLoc_eq_ok.1 ha
    cases hb : readLoc st sz (resolve st s) with
    | error e =>
      have := (readLoc_eq_error.1 hb).1
      simp [bind, Except.bind, this]
    | ok b =>
      obtain ⟨hs, rfl⟩ := readLoc_eq_ok.1 hb
      simp only [bind, Except.bind, hd, hs, true_and]
      cases ho : op sz.width (locView st sz (resolve st d)) (locView st sz (resolve st s)) with
      | error e => simp
      | ok o =>
        simp only [Except.ok.injEq]
        cases hw : writeLoc st sz (resolve st d) o.value with
        | error e =>
          simp only [reduceCtorEq, false_iff]
          rintro ⟨o', u, rfl, hw', _⟩
          rw [hw] at hw'
          cases hw'
        | ok u =>
          simp only [pure, Except.pure, Except.ok.injEq]
          constructor
          · rintro rfl
            exact ⟨o, u, rfl, hw, rfl⟩
          · rintro ⟨o', u', rfl, hw', rfl⟩
            rw [hw] at hw'
            cases hw'
            rfl

/-- A phase that writes its destination completes for a writable destination, a readable source and an operation that
answers, with all it leaves. -/
theorem readModifyWrite_done {op : Nat → Nat → Nat → Except Abort AluOut} {sz : Size} {d s : Operand} {st : State}
    {o : AluOut} (hm : Memory.wf st.mem = true) (hd : writable st sz (resolve st d) = true)
    (hs : readable st sz (resolve st s) = true)
    (ho : op sz.width (locView st sz (resolve st d)) (locView st sz (resolve st s)) = .ok o) :
    ∃ t, readModifyWrite op sz d s st = .ok t ∧ locView t sz (resolve st d) = o.value % 2 ^ sz.width ∧
      t.flags = arithFlags st.flags o ∧ sameOutside st t sz (resolve st d) ∧ t.ip = st.ip ∧ sameControl st t := by
  have hr : readable st sz (resolve st d) = true := by
    cases h : resolve st d with
    | imm v => rfl
    | reg r => rfl
    | creg n => rfl
    | mem a => rw [h] at hd; exact hd
  obtain ⟨u, hu⟩ := writeLoc_ok o.value hd
  obtain ⟨h1, h2, h3⟩ := writeLoc_control hu
  refine ⟨u.withFlags (arithFlags st.flags o), readModifyWrite_eq_ok.2 ⟨hr, hs, o, u, ho, hu, rfl⟩, ?_, rfl, ?_, ?_, ?_⟩
  · rw [← writeLoc_view hm hu]
    exact locView_congr rfl rfl
  · exact sameOutside_congr (writeLoc_frame hm hu) rfl rfl
  · simpa using h1
  · simpa [sameControl] using h3

/-- The shape keeps what every completed phase keeps. -/
theorem kept_readModifyWrite {op : Nat → Nat → Nat → Except Abort AluOut} {sz : Size} {d s : Operand} {st t : State}
    (h : readModifyWrite op sz d s st = .ok t) :
    Kept st t ∧ t.ip = st.ip ∧ t.isr = st.isr ∧ t.flags.h = st.flags.h := by
  obtain ⟨_, _, o, u, _, hw, rfl⟩ := readModifyWrite_eq_ok.1 h
  obtain ⟨h1, _, h3⟩ := writeLoc_control hw
  exact ⟨(kept_writeLoc hw).trans (kept_withFlags _ _), by simpa using h1, by simpa using h3.1, rfl⟩

/-- An operand outside memory is reported whatever the other operand holds (60_exceptions R427). -/
theorem readModifyWrite_unreadable {op : Nat → Nat → Nat → Except Abort AluOut} {sz : Size} {d s : Operand} {st : State}
    (h : readable st sz (resolve st d) = false ∨ readable st sz (resolve st s) = false) :
    readModifyWrite op sz d s st = .error (.raise .memoryOutOfBounds) := by
  unfold readModifyWrite
  cases ha : readLoc st sz (resolve st d) with
  | error e => rw [(readLoc_eq_error.1 ha).2]; rfl
  | ok a =>
    have hs := h.resolve_left (by rw [(readLoc_eq_ok.1 ha).1]; decide)
    have hb : readLoc st sz (resolve st s) = .error (.raise .memoryOutOfBounds) := readLoc_eq_error.2 ⟨hs, rfl⟩
    simp [bind, Except.bind, hb]

/-! ### A branch -/

theorem branchIf_eq_ok {c : Bool} {d : Operand} {st t : State} :
    branchIf c d st = .ok t ↔ ∃ off, offsetOf .byte d = some off ∧ t = if c then st.withIp (st.ip + off) else st := by
  unfold branchIf
  cases h : offsetOf .byte d <;> simp [eq_comm]

theorem kept_branchIf {c : Bool} {d : Operand} {st t : State} (h : branchIf c d st = .ok t) :
    Kept st t ∧ t.isr = st.isr ∧ t.flags = st.flags := by
  obtain ⟨off, _, rfl⟩ := branchIf_eq_ok.1 h
  split
  · exact ⟨kept_withIp _ _, rfl, rfl⟩
  · exact ⟨Kept.refl _, rfl, rfl⟩

/-! ### All that `exec` can answer -/

/-- What a completed instruction other than RTI and BRK leaves: everything that is kept, the ISR state and H, and IP
unless its rule writes it. -/
structure Done (i : Instr) (s t : State) : Prop where
  kept : Kept s t
  ip : writesIp i = false → t.ip = s.ip
  isr : (∀ sz, i ≠ .rti sz) → t.isr = s.isr
  halt : (∀ sz, i ≠ .brk sz) → t.flags.h = s.flags.h

theorem done_of_readModifyWrite {i : Instr} {op : Nat → Nat → Nat → Except Abort AluOut} {sz : Size} {d s : Operand}
    {st t : State} (h : readModifyWrite op sz d s st = .ok t) : Done i st t := by
  obtain ⟨h1, h2, h3, h4⟩ := kept_readModifyWrite h
  exact ⟨h1, fun _ => h2, fun _ => h3, fun _ => h4⟩

theorem done_of_branchIf {i : Instr} {c : Bool} {d : Operand} {st t : State} (hi : writesIp i = true)
    (h : branchIf c d st = .ok t) : Done i st t := by
  obtain ⟨h1, h2, h3⟩ := kept_branchIf h
  exact ⟨h1, fun hn => absurd hn (by simp [hi]), fun _ => h2, fun _ => congrArg Flags.h h3⟩

/-- Every next state of `exec` is a completed phase or a routed fault. -/
theorem exec_next_cases {i : Instr} {s t : State} (h : exec i s = .next t) :
    Done i s t ∨ (∃ r, t = route s r) ∨ ∃ x, t = route s.countHostCall (.extensionFault x) := by
  have fin : ∀ {p : Except Abort State}, finish s p = .next t → (∀ u, p = .ok u → Done i s u) →
      Done i s t ∨ (∃ r, t = route s r) ∨ ∃ x, t = route s.countHostCall (.extensionFault x) := by
    intro p hp hd
    rcases finish_eq_next.1 hp with ho | ⟨q, _, hq⟩
    · exact .inl (hd t ho)
    · exact .inr (.inl ⟨q, hq⟩)
  cases i with
  | brk sz =>
    rw [exec, execBrk] at h
    refine fin h fun u hu => ?_
    cases hu
    exact ⟨kept_withFlags _ _, fun _ => rfl, fun _ => rfl, fun hn => absurd rfl (hn sz)⟩
  | nop sz =>
    rw [exec, execNop] at h
    refine fin h fun u hu => ?_
    cases hu
    exact ⟨Kept.refl _, fun _ => rfl, fun _ => rfl, fun _ => rfl⟩
  | ret sz =>
    rw [exec, execRet] at h
    refine fin h fun u hu => ?_
    cases hp : pop64 s with
    | error e => simp [hp, bind, Except.bind] at hu
    | ok p =>
      simp only [hp, bind, Except.bind, pure, Except.pure, Except.ok.injEq] at hu
      subst hu
      have hk := kept_pop64 hp
      obtain ⟨_, rfl⟩ := pop64_eq_ok.1 hp
      exact ⟨hk.trans (kept_withIp _ _), (fun hn => by cases hn), fun _ => by simp, fun _ => by simp⟩
  | rti sz =>
    rw [exec, execRti] at h
    refine fin h fun u hu => ?_
    have hk := kept_trapReturn hu
    obtain ⟨_, rfl⟩ := trapReturn_eq_ok.1 hu
    exact ⟨hk, (fun hn => by cases hn), fun hn => absurd rfl (hn sz), fun _ => by simp [restoreFlags]⟩
  | sys sz d =>
    rw [exec, execSys] at h
    refine fin h fun u hu => ?_
    cases hr : readLoc s sz (resolve s d) with
    | error e => simp [hr, bind, Except.bind] at hu
    | ok id =>
      simp only [hr, bind, Except.bind] at hu
      cases hf : findSyscall s.syscalls id with
      | none => simp [hf] at hu
      | some e =>
        simp only [hf, pure, Except.pure, Except.ok.injEq] at hu
        subst hu
        obtain ⟨h1, h2, h3, _⟩ := hostSilent_foldl_applyAction (callbackActions e.callback s) s.countHostCall
        exact ⟨kept_runCallback _ _, fun _ => h1, fun _ => h3, fun _ => h2⟩
  | call sz d =>
    rw [exec, execCall] at h
    refine fin h fun u hu => ?_
    cases ho : offsetOf sz d with
    | none => simp [ho] at hu
    | some off =>
      simp only [ho] at hu
      cases hp : push64 s s.ip.toNat with
      | error e => simp [hp, bind, Except.bind] at hu
      | ok p =>
        simp only [hp, bind, Except.bind, pure, Except.pure, Except.ok.injEq] at hu
        subst hu
        have hk := kept_push64 hp
        obtain ⟨_, rfl⟩ := push64_eq_ok.1 hp
        exact ⟨hk.trans (kept_withIp _ _), (fun hn => by cases hn), fun _ => by simp, fun _ => by simp⟩
  | mov sz d x =>
    rw [exec, execMov] at h
    refine fin h fun u hu => ?_
    cases hr : readLoc s sz (resolve s x) with
    | error e => simp [hr, bind, Except.bind] at hu
    | ok v =>
      simp only [hr, bind, Except.bind] at hu
      cases hw : writeLoc s sz (resolve s d) v with
      | error e => simp [hw] at hu
      | ok w =>
        simp only [hw, pure, Except.pure, Except.ok.injEq] at hu
        subst hu
        obtain ⟨h1, _, h3⟩ := writeLoc_control hw
        exact ⟨(kept_writeLoc hw).trans (kept_withFlags _ _), fun _ => h1, fun _ => h3.1, fun _ => rfl⟩
  | cmp sz d x =>
    rw [exec, execCmp] at h
    refine fin h fun u hu => ?_
    cases hr : readLoc s sz (resolve s d) with
    | error e => simp [hr, bind, Except.bind] at hu
    | ok a =>
      cases hr' : readLoc s sz (resolve s x) with
      | error e => simp [hr, hr', bind, Except.bind] at hu
      | ok b =>
        simp only [hr, hr', bind, Except.bind, pure, Except.pure, Except.ok.injEq] at hu
        subst hu
        exact ⟨kept_withFlags _ _, fun _ => rfl, fun _ => rfl, fun _ => rfl⟩
  | lea sz d x =>
    simp only [exec] at h
    unfold execLea at h
    refine fin h fun u hu => ?_
    split at hu
    · simp only [Except.ok.injEq] at hu
      subst hu
      exact ⟨kept_setReg _ _ _, fun _ => by simp, fun _ => by simp, fun _ => by simp⟩
    · cases hu
  | push sz d =>
    rw [exec, execPush] at h
    refine fin h fun u hu => ?_
    cases hr : readLoc s sz (resolve s d) with
    | error e => simp [hr, bind, Except.bind] at hu
    | ok v =>
      simp only [hr, bind, Except.bind] at hu
      have hk := kept_push64 hu
      obtain ⟨_, rfl⟩ := push64_eq_ok.1 hu
      exact ⟨hk, fun _ => by simp, fun _ => by simp, fun _ => by simp⟩
  | pop sz d =>
    rw [exec, execPop] at h
    refine fin h fun u hu => ?_
    cases hp : pop64 s with
    | error e => simp [hp, bind, Except.bind] at hu
    | ok p =>
      simp only [hp, bind, Except.bind] at hu
      have hk := kept_pop64 hp
      obtain ⟨h1, h2, h3⟩ := writeLoc_control hu
      obtain ⟨_, rfl⟩ := pop64_eq_ok.1 hp
      exact ⟨hk.trans (kept_writeLoc hu), fun _ => by simpa using h1, fun _ => by simpa using h3.1,
        fun _ => by rw [h2]; simp⟩
  | beq sz d =>
    rw [exec, execBeq] at h
    exact fin h fun u hu => done_of_branchIf rfl hu
  | bne sz d =>
    rw [exec, execBne] at h
    exact fin h fun u hu => done_of_branchIf rfl hu
  | bcs sz d =>
    rw [exec, execBcs] at h
    exact fin h fun u hu => done_of_branchIf rfl hu
  | bcc sz d =>
    rw [exec, execBcc] at h
    exact fin h fun u hu => done_of_branchIf rfl hu
  | bvs sz d =>
    rw [exec, execBvs] at h
    exact fin h fun u hu => done_of_branchIf rfl hu
  | bvc sz d =>
    rw [exec, execBvc] at h
    exact fin h fun u hu => done_of_branchIf rfl hu
  | ext op n =>
    simp only [exec, execExt] at h
    cases hf : findExtension s.extensions op with
    | none =>
      simp only [hf, Host.Outcome.next.injEq] at h
      exact .inr (.inl ⟨_, h.symm⟩)
    | some e =>
      simp only [hf] at h
      cases ho : executorOutcome e.executor n s with
      | ok ws =>
        simp only [ho, Host.Outcome.next.injEq] at h
        subst h
        obtain ⟨h1, h2, h3, _⟩ := hostSilent_foldl_applyWrite ws s.countHostCall
        exact .inl ⟨(kept_countHostCall s).trans (kept_foldl_applyWrite _ _), fun _ => h1, fun _ => h3, fun _ => h2⟩
      | fault x =>
        simp only [ho, Host.Outcome.next.injEq] at h
        exact .inr (.inr ⟨x, h.symm⟩)
  | lsr sz d x =>
    rw [exec, execLsr] at h
    exact fin h fun u hu => done_of_readModifyWrite hu
  | lsl sz d x =>
    rw [exec, execLsl] at h
    exact fin h fun u hu => done_of_readModifyWrite hu
  | asr sz d x =>
    rw [exec, execAsr] at h
    exact fin h fun u hu => done_of_readModifyWrite hu
  | asl sz d x =>
    rw [exec, execAsl] at h
    exact fin h fun u hu => done_of_readModifyWrite hu
  | add sz d x =>
    rw [exec, execAdd] at h
    exact fin h fun u hu => done_of_readModifyWrite hu
  | sub sz d x =>
    rw [exec, execSub] at h
    exact fin h fun u hu => done_of_readModifyWrite hu
  | mul sz d x =>
    rw [exec, execMul] at h
    exact fin h fun u hu => done_of_readModifyWrite hu
  | div sz d x =>
    rw [exec, execDiv] at h
    exact fin h fun u hu => done_of_readModifyWrite hu

end Sys2Proof.Machine
end

