-- ==== Sys2Proof/Laws/PerInstr.lean ====
section
/-!
SUPPORT. Statements made per instruction, about its encoding alone.
-/
namespace Sys2Proof.Laws

/-- Byte 0 of an instruction (30_encoding R120, R131). -/
def firstByte (i : Instr) : Byte :=
  match i.parts with
  | .z c _ => opcodeByte (.z c)
  | .u c _ _ => opcodeByte (.u c)
  | .b c _ _ _ => opcodeByte (.b c)
  | .x op _ => op

/-- The encoding begins with the opcode byte and, of a base instruction, has 2 to 20 bytes (30_encoding R120, R130). -/
def EncodingShape.Statement (i : Instr) : Prop :=
  (encode i).head? = some (firstByte i) ∧ (i.isBase = true → 2 ≤ (encode i).length ∧ (encode i).length ≤ 20)

/-- The lengths of 30_encoding R130 from the payload lengths of R128. -/
theorem encodingShape (i : Instr) : EncodingShape.Statement i := by
  have hx := Instr.isBase_iff i
  unfold EncodingShape.Statement encode firstByte
  cases hp : i.parts with
  | z c sz => exact ⟨rfl, fun _ => by simp⟩
  | u c sz d =>
    refine ⟨rfl, fun _ => ?_⟩
    have := payloadLength_le sz d.desc
    simp only [List.length_cons, payloadBytes_length]
    omega
  | b c sz d s =>
    refine ⟨rfl, fun _ => ?_⟩
    have := payloadLength_le sz d.desc
    have := payloadLength_le sz s.desc
    simp only [List.length_cons, List.length_append, payloadBytes_length]
    omega
  | x op n => exact ⟨rfl, fun hb => absurd hp (hx.1 hb op n)⟩

theorem EncodingShape.brk (sz : Size) : EncodingShape.Statement (.brk sz) := encodingShape _
theorem EncodingShape.nop (sz : Size) : EncodingShape.Statement (.nop sz) := encodingShape _
theorem EncodingShape.ret (sz : Size) : EncodingShape.Statement (.ret sz) := encodingShape _
theorem EncodingShape.rti (sz : Size) : EncodingShape.Statement (.rti sz) := encodingShape _
theorem EncodingShape.sys (sz : Size) (d : Operand) : EncodingShape.Statement (.sys sz d) := encodingShape _
theorem EncodingShape.call (sz : Size) (d : Operand) : EncodingShape.Statement (.call sz d) := encodingShape _
theorem EncodingShape.lsr (sz : Size) (d s : Operand) : EncodingShape.Statement (.lsr sz d s) := encodingShape _
theorem EncodingShape.lsl (sz : Size) (d s : Operand) : EncodingShape.Statement (.lsl sz d s) := encodingShape _
theorem EncodingShape.asr (sz : Size) (d s : Operand) : EncodingShape.Statement (.asr sz d s) := encodingShape _
theorem EncodingShape.asl (sz : Size) (d s : Operand) : EncodingShape.Statement (.asl sz d s) := encodingShape _
theorem EncodingShape.mov (sz : Size) (d s : Operand) : EncodingShape.Statement (.mov sz d s) := encodingShape _
theorem EncodingShape.add (sz : Size) (d s : Operand) : EncodingShape.Statement (.add sz d s) := encodingShape _
theorem EncodingShape.sub (sz : Size) (d s : Operand) : EncodingShape.Statement (.sub sz d s) := encodingShape _
theorem EncodingShape.mul (sz : Size) (d s : Operand) : EncodingShape.Statement (.mul sz d s) := encodingShape _
theorem EncodingShape.div (sz : Size) (d s : Operand) : EncodingShape.Statement (.div sz d s) := encodingShape _
theorem EncodingShape.cmp (sz : Size) (d s : Operand) : EncodingShape.Statement (.cmp sz d s) := encodingShape _
theorem EncodingShape.lea (sz : Size) (d s : Operand) : EncodingShape.Statement (.lea sz d s) := encodingShape _
theorem EncodingShape.push (sz : Size) (d : Operand) : EncodingShape.Statement (.push sz d) := encodingShape _
theorem EncodingShape.pop (sz : Size) (d : Operand) : EncodingShape.Statement (.pop sz d) := encodingShape _
theorem EncodingShape.beq (sz : Size) (d : Operand) : EncodingShape.Statement (.beq sz d) := encodingShape _
theorem EncodingShape.bne (sz : Size) (d : Operand) : EncodingShape.Statement (.bne sz d) := encodingShape _
theorem EncodingShape.bcs (sz : Size) (d : Operand) : EncodingShape.Statement (.bcs sz d) := encodingShape _
theorem EncodingShape.bcc (sz : Size) (d : Operand) : EncodingShape.Statement (.bcc sz d) := encodingShape _
theorem EncodingShape.bvs (sz : Size) (d : Operand) : EncodingShape.Statement (.bvs sz d) := encodingShape _
theorem EncodingShape.bvc (sz : Size) (d : Operand) : EncodingShape.Statement (.bvc sz d) := encodingShape _
theorem EncodingShape.ext (op : Byte) (handle : Nat) : EncodingShape.Statement (.ext op handle) := encodingShape _

end Sys2Proof.Laws
end

