-- ==== Sys2Proof/Laws/Step.lean ====
section
/-!
SUPPORT. All that a step can do (60_exceptions R400), and what trap entry, the step boundary and the decode around it
change.
-/
namespace Sys2Proof.Machine

/-! ### What surrounds the execute phase -/

@[simp] theorem beginStep_fetch (s : State) (k : Nat) : fetchByte (beginStep s) k = fetchByte s k := rfl

@[simp] theorem beginStep_decodeAt (s : State) : decodeAt (beginStep s) = decodeAt s := rfl

@[simp] theorem beginStep_noTrapReady (s : State) : noTrapReady (beginStep s) = noTrapReady s := rfl

/-- A step that is not halted and has no trap ready decodes and executes at IP. -/
theorem step_noTrap {s : State} (hh : s.flags.h = false) (hn : noTrapReady s = true) :
    step s = fetchAndExecute (beginStep s) := by
  rw [step, if_neg (by simp [hh]), stepBoundary_noTrap (by simpa using hn)]

/-- Every way a step can end. -/
theorem step_next_cases {s t : State} (h : step s = .next t) :
    (s.flags.h = true ∧ t = beginStep s) ∨
    (s.flags.h = false ∧ stepBoundary (beginStep s) = .halted t) ∨
    (∃ u e, s.flags.h = false ∧ stepBoundary (beginStep s) = .go u ∧ decodeAt u = .error e ∧ t = decodeFailed u e) ∨
    (∃ u d, s.flags.h = false ∧ stepBoundary (beginStep s) = .go u ∧ decodeAt u = .ok d ∧
      exec d.instr (afterDecode u d) = .next t) := by
  unfold step at h
  split at h
  · next hh =>
    simp only [Host.Outcome.next.injEq] at h
    exact .inl ⟨hh, h.symm⟩
  · next hh =>
    have hh : s.flags.h = false := by simpa using hh
    cases hb : stepBoundary (beginStep s) with
    | halted u =>
      simp only [hb, Host.Outcome.next.injEq] at h
      exact .inr (.inl ⟨hh, by rw [h]⟩)
    | go u =>
      simp only [hb, fetchAndExecute] at h
      cases hd : decodeAt u with
      | error e =>
        simp only [hd, Host.Outcome.next.injEq] at h
        exact .inr (.inr (.inl ⟨u, e, hh, rfl, hd, h.symm⟩))
      | ok d =>
        simp only [hd] at h
        exact .inr (.inr (.inr ⟨u, d, hh, rfl, hd, h⟩))

/-- What a trap entry keeps (60_exceptions R430). -/
theorem kept_trapEntry {s t : State} {slot : Nat} (h : trapEntry s slot = some t) :
    t.cfg = s.cfg ∧ t.syscalls = s.syscalls ∧ t.extensions = s.extensions ∧ t.excPending = s.excPending ∧
    t.dstate = s.dstate ∧ t.extInstance = s.extInstance ∧ t.record = s.record ∧ t.result = s.result ∧
    t.irqPending = s.irqPending ∧ t.irqEnabled = s.irqEnabled ∧ t.excEnabled = s.excEnabled ∧ t.flags = s.flags ∧
    t.isr = .executing ∧ t.hostCalls = s.hostCalls := by
  obtain ⟨_, _, rfl⟩ := trapEntry_eq_some.1 h
  simp

/-- The address of the return slot of a trap entry is inside when the 16 bytes below SP are, unless memory reaches
`2^64`. -/
theorem trapEntry_returnSlot {sp : Word} {n : Nat} (h : (sp - 16#64).toNat + 16 ≤ n) : (sp - 8#64).toNat + 8 ≤ n := by
  bv_omega

/-- A trap entry keeps memory canonical and inside. -/
theorem trapEntry_mem {s t : State} {slot : Nat} (h : trapEntry s slot = some t) :
    (Memory.wf s.mem = true → Memory.wf t.mem = true) ∧
    (memInside s.cfg.memSize s.mem = true → memInside s.cfg.memSize t.mem = true) := by
  obtain ⟨_, hb, rfl⟩ := trapEntry_eq_some.1 h
  have hb := (inBounds_iff _ _ _).1 hb
  simp only [withIsr_mem, withIp_mem, setSp_mem, withMem_mem]
  refine ⟨fun hw => memWriteN_wf (memWriteN_wf hw _ _ _) _ _ _, fun hi => ?_⟩
  exact memWriteN_inside (memWriteN_inside hi _ _ _ (trapEntry_returnSlot hb)) _ _ _ (by omega)

/-- The step boundary keeps the configuration, the enables and the diagnostic state (60_exceptions R430, R431). -/
theorem stepBoundary_go_kept {s u : State} (h : stepBoundary s = .go u) :
    u.cfg = s.cfg ∧ u.syscalls = s.syscalls ∧ u.extensions = s.extensions ∧ u.dstate = s.dstate ∧
    u.extInstance = s.extInstance ∧ u.record = s.record ∧ u.result = s.result ∧ u.irqEnabled = s.irqEnabled ∧
    u.excEnabled = s.excEnabled ∧ u.flags = s.flags ∧ u.excPending = none ∧ (u.isr = s.isr ∨ u.isr = .executing) ∧
    (Memory.wf s.mem = true → Memory.wf u.mem = true) ∧
    (memInside s.cfg.memSize s.mem = true → memInside s.cfg.memSize u.mem = true) ∧
    (u.irqPending = s.irqPending ∨ ∃ l, s.excPending = none ∧ s.isr = .idle ∧
      firstEligible s.irqPending s.irqEnabled = some l ∧ u.irqPending = s.irqPending.set l false) := by
  rcases stepBoundary_cases s with ⟨e, t, hp, ht, hb⟩ | ⟨e, _, _, hb⟩ | ⟨l, t, hp, hi, hl, ht, hb⟩ | ⟨l, _, _, _, _, hb⟩ |
      ⟨hn, hb⟩ <;> rw [hb] at h <;> simp only [Boundary.go.injEq, reduceCtorEq] at h <;> subst h
  · obtain ⟨a1, a2, a3, a4, a5, a6, a7, a8, a9, a10, a11, a12, a13, _⟩ := kept_trapEntry ht
    obtain ⟨m1, m2⟩ := trapEntry_mem ht
    exact ⟨by simpa using a1, by simpa using a2, by simpa using a3, by simpa using a5, by simpa using a6,
      by simpa using a7, by simpa using a8, by simpa using a10, by simpa using a11, by simpa using a12,
      by simpa using a4, .inr a13, by simpa using m1, by simpa using m2, .inl (by simpa using a9)⟩
  · obtain ⟨a1, a2, a3, a4, a5, a6, a7, a8, a9, a10, a11, a12, a13, _⟩ := kept_trapEntry ht
    obtain ⟨m1, m2⟩ := trapEntry_mem ht
    exact ⟨a1, a2, a3, a5, a6, a7, a8, a10, a11, a12, a4.trans hp, .inr a13, m1, m2,
      .inr ⟨l, hp, hi, hl, by simp [a9]⟩⟩
  · have : s.excPending = none := by
      simp only [noTrapReady, Bool.and_eq_true, Option.isNone_iff_eq_none] at hn
      exact hn.1
    exact ⟨rfl, rfl, rfl, rfl, rfl, rfl, rfl, rfl, rfl, rfl, this, .inl rfl, id, id, .inl rfl⟩

/-- A halted step boundary: only the pending exception, H and the result change (60_exceptions R434). -/
theorem stepBoundary_halted_eq {s t : State} (h : stepBoundary s = .halted t) :
    t = haltOnTrapFault (s.withExcPending none) := by
  rcases stepBoundary_cases s with ⟨e, u, _, _, hb⟩ | ⟨e, _, _, hb⟩ | ⟨l, u, _, _, _, _, hb⟩ | ⟨l, hp, _, _, _, hb⟩ |
      ⟨_, hb⟩ <;> rw [hb] at h <;> simp only [Boundary.halted.injEq, reduceCtorEq] at h <;> subst h
  · rfl
  · have hs : s.withExcPending none = s := by
      cases s
      simp only [State.withExcPending] at *
      subst hp
      rfl
    rw [hs]

/-- A failed decode leaves everything but IP, the decoder, the result and the pending exception. -/
theorem decodeFailed_kept (u : State) (e : DecodeError) :
    (decodeFailed u e).regs = u.regs ∧ (decodeFailed u e).flags = u.flags ∧ (decodeFailed u e).mem = u.mem ∧
    (decodeFailed u e).isr = u.isr ∧ (decodeFailed u e).irqPending = u.irqPending ∧
    (decodeFailed u e).irqEnabled = u.irqEnabled ∧ (decodeFailed u e).excEnabled = u.excEnabled ∧
    (decodeFailed u e).cfg = u.cfg ∧ (decodeFailed u e).syscalls = u.syscalls ∧
    (decodeFailed u e).extensions = u.extensions ∧ (decodeFailed u e).record = u.record ∧
    (decodeFailed u e).ip = u.ip + BitVec.ofNat 64 e.consumed ∧ (decodeFailed u e).dstate = .idle ∧
    (decodeFailed u e).extInstance = none ∧ (decodeFailed u e).result = .fail (decodeReason e.reason) := by
  unfold decodeFailed
  rcases route_cases ((u.withIp (u.ip + BitVec.ofNat 64 e.consumed)).withDecoder .idle none) (decodeReason e.reason) with
    h | ⟨x, _, _, h⟩ <;> rw [h] <;> simp

/-- What routing does to the pending exception (60_exceptions R413). -/
theorem route_excPending (s : State) (r : Reason) :
    (route s r).excPending = pendingAfter s.excEnabled s.excPending r := by
  unfold pendingAfter
  cases h : reasonExc r with
  | none => simp [route_none h]
  | some e =>
    cases he : excIsEnabled s.excEnabled e with
    | true => simp [route_enabled h he, he]
    | false => simp [route_disabled h he, he]

/-- A routed fault is what `faulted` says. -/
theorem faulted_route (s : State) (r : Reason) : faulted s (route s r) r :=
  ⟨route_onlyRouted s r, route_result s r, route_excPending s r⟩

end Sys2Proof.Machine
end

