-- ==== Sys2Proof/Tests/Slice0.lean ====
section
/-!
SUPPORT. Tests: ill-formed terms that WellFormed refuses, every constructor's decoding from bytes written out from
30_encoding R121 to R131, one or two steps of each instruction with the values of the examples in spec/, and for every
statement with hypotheses a state and operands that meet them.
-/
namespace Sys2Proof.Tests
open Sys2Proof.Machine

/-! ### Well-formedness: one ill-formed term for each check -/

theorem test_wf_immediate_destination : (Instr.add .byte (.imm 0 1) (.reg 0)).wf = false := by decide
theorem test_wf_immediate_too_large : (Instr.mov .byte (.reg 0) (.imm 0 0x100)).wf = false := by decide
theorem test_wf_control_register_outside_mov : (Instr.add .long (.creg 0) (.reg 0)).wf = false := by decide
theorem test_wf_control_register_push : (Instr.push .long (.creg 0)).wf = false := by decide
theorem test_wf_branch_size : (Instr.beq .word (.imm 0 1)).wf = false := by decide
theorem test_wf_branch_operand : (Instr.beq .byte (.reg 0)).wf = false := by decide
theorem test_wf_call_operand : (Instr.call .byte (.abs 0 4)).wf = false := by decide
theorem test_wf_lea_data_register : (Instr.lea .long (.reg 7) (.abs 0 4)).wf = false := by decide
theorem test_wf_lea_register_source : (Instr.lea .long (.reg 8) (.reg 9)).wf = false := by decide
theorem test_wf_count_in_memory : (Instr.lsl .byte (.reg 0) (.ind 8)).wf = false := by decide
theorem test_wf_pop_immediate : (Instr.pop .byte (.imm 0 1)).wf = false := by decide
theorem test_wf_accepts :
    (Instr.mov .long (.creg 7) (.creg 0)).wf = true ∧ (Instr.cmp .byte (.imm 0 1) (.ind 3)).wf = true := by decide

/-! ### Decoding: every constructor, bytes written out from the encoding tables -/

theorem test_decode_brk : decodesTo [0x00, 0x00] (.brk .byte) := by unfold decodesTo; decide
theorem test_decode_nop : decodesTo [0x01, 0x00] (.nop .byte) := by unfold decodesTo; decide
theorem test_decode_ret : decodesTo [0x02, 0x00] (.ret .byte) := by unfold decodesTo; decide
theorem test_decode_rti : decodesTo [0x03, 0x00] (.rti .byte) := by unfold decodesTo; decide
theorem test_decode_sys : decodesTo [0x04, 0x00, 0x01, 0x01] (.sys .byte (.imm 0 1)) := by unfold decodesTo; decide
theorem test_decode_call : decodesTo [0x08, 0x01, 0x01, 0xFF, 0xFE] (.call .word (.imm 0 0xFFFE)) := by
  unfold decodesTo; decide
theorem test_decode_lsr : decodesTo [0x10, 0x00, 0x03, 0x01, 0x01] (.lsr .byte (.reg 0) (.imm 0 1)) := by
  unfold decodesTo; decide
theorem test_decode_lsl : decodesTo [0x11, 0x00, 0x03, 0x13] (.lsl .byte (.reg 0) (.reg 1)) := by
  unfold decodesTo; decide
theorem test_decode_asr : decodesTo [0x12, 0x02, 0x84, 0x13] (.asr .dword (.ind 8) (.reg 1)) := by
  unfold decodesTo; decide
theorem test_decode_asl : decodesTo [0x13, 0x00, 0x03, 0x01, 0x01] (.asl .byte (.reg 0) (.imm 0 1)) := by
  unfold decodesTo; decide
/-- The source's own bytes (30_encoding R131). -/
theorem test_decode_mov_word : decodesTo [0x20, 0x01, 0x03, 0x01, 0x44, 0x33] (.mov .word (.reg 0) (.imm 0 0x4433)) := by
  unfold decodesTo; decide
theorem test_decode_mov_control : decodesTo [0x20, 0x83, 0x93, 0x03] (.mov .long (.creg 1) (.reg 0)) := by
  unfold decodesTo; decide
theorem test_decode_add : decodesTo [0x21, 0x00, 0x13, 0x03] (.add .byte (.reg 1) (.reg 0)) := by
  unfold decodesTo; decide
theorem test_decode_sub : decodesTo [0x22, 0x00, 0x23, 0x01, 0x20] (.sub .byte (.reg 2) (.imm 0 0x20)) := by
  unfold decodesTo; decide
/-- The destination's payload stands before the source's (30_encoding R127). -/
theorem test_decode_mul : decodesTo [0x23, 0x01, 0x95, 0x01, 0xA7, 0x12, 0x34]
    (.mul .word (.rel 1 10 7) (.imm 0 0x1234)) := by unfold decodesTo; decide
theorem test_decode_div : decodesTo [0x24, 0x00, 0x03, 0x01, 0x07] (.div .byte (.reg 0) (.imm 0 7)) := by
  unfold decodesTo; decide
theorem test_decode_cmp : decodesTo
    [0x25, 0x03, 0x02, 0xF2, 0, 0, 0, 0, 0, 0, 0x10, 0x00, 0, 0, 0, 0, 0, 0, 0x20, 0x00]
    (.cmp .long (.abs 0 0x1000) (.abs 15 0x2000)) := by unfold decodesTo; decide
theorem test_decode_lea : decodesTo [0x26, 0x00, 0x83, 0x95, 0x22] (.lea .byte (.reg 8) (.rel 1 2 2)) := by
  unfold decodesTo; decide
theorem test_decode_push : decodesTo [0x30, 0x00, 0x01, 0x43] (.push .byte (.imm 0 0x43)) := by unfold decodesTo; decide
theorem test_decode_pop : decodesTo [0x31, 0x00, 0x03] (.pop .byte (.reg 0)) := by unfold decodesTo; decide
theorem test_decode_beq : decodesTo [0x40, 0x00, 0x01, 0xF7] (.beq .byte (.imm 0 0xF7)) := by unfold decodesTo; decide
theorem test_decode_bne : decodesTo [0x41, 0x00, 0x01, 0xF7] (.bne .byte (.imm 0 0xF7)) := by unfold decodesTo; decide
theorem test_decode_bcs : decodesTo [0x42, 0x00, 0x01, 0x04] (.bcs .byte (.imm 0 4)) := by unfold decodesTo; decide
theorem test_decode_bcc : decodesTo [0x43, 0x00, 0x01, 0x04] (.bcc .byte (.imm 0 4)) := by unfold decodesTo; decide
theorem test_decode_bvs : decodesTo [0x44, 0x00, 0x01, 0xFE] (.bvs .byte (.imm 0 0xFE)) := by unfold decodesTo; decide
theorem test_decode_bvc : decodesTo [0x45, 0x00, 0x01, 0x00] (.bvc .byte (.imm 0 0)) := by unfold decodesTo; decide
/-- A registered extension decodes its own bytes: here a second byte of 0x07 gives handle 1, of two bytes. -/
theorem test_decode_ext : decode Params.reference.extRange
    [⟨0xF0, .fetch 1 0x07 (.done 0 1) (.failed 0), "two-byte", .script (.ok [])⟩]
    (fun k => [0xF0#8, 0x07#8][k]?) = .ok ⟨.ext 0xF0 1, 2, some ⟨.done 0 1, 2⟩⟩ := by decide

/-- Decodes that are refused, with the reason and the bytes consumed (30_encoding R135, R150). -/
def refuses (bs : List Byte) (r : DecodeReason) (n : Nat) : Bool :=
  match decode Params.reference.extRange [] (fun k => bs[k]?) with
  | .error e => e == ⟨r, n⟩
  | .ok _ => false

theorem test_refuse_unknown_opcode : refuses [0x7F] .unknownOpcode 1 = true := by decide
theorem test_refuse_unknown_extension : refuses [0xF0] .unknownExtension 1 = true := by decide
theorem test_refuse_reserved_bits : refuses [0x01, 0x04] .reservedBits 2 = true := by decide
theorem test_refuse_control_flag : refuses [0x21, 0x80, 0x83, 0x03] .invalidAddressing 2 = true := by decide
theorem test_refuse_mode_zero : refuses [0x30, 0x00, 0x00] .invalidAddressing 3 = true := by decide
theorem test_refuse_shift_amount : refuses [0x20, 0x00, 0x03, 0x85, 0x08] .invalidAddressing 5 = true := by decide
theorem test_refuse_past_the_end : refuses [0x30, 0x00, 0x01] .memoryOutOfBounds 4 = true := by decide

/-! ### Steps: the examples of the instruction rules -/

/-- The state after reset with SP at 0x8000 and D0 as given. -/
def withD0 (v : Word) : State := setReg (setSp State.reset 0x8000) 0 v

/-- One step of the instruction whose bytes stand at IP. -/
def stepOf (bs : List Byte) (s : State) : State :=
  match step (storeAtIp s bs) with
  | .next t => t
  | .fault _ => s
  | .refused _ => s

theorem test_mov_keeps_upper : getReg (stepOf [0x20, 0x00, 0x03, 0x01, 0x44] (withD0 0x4433)) 0 = 0x4444 := by decide
theorem test_mov_to_control : getCr (stepOf [0x20, 0x83, 0x93, 0x03] (withD0 0x55)) 1 = 0x55 := by decide
theorem test_add_wraps :
    let t := stepOf [0x21, 0x00, 0x13, 0x03] (setReg (withD0 0x70) 1 0xE0)
    getReg t 1 = 0x50 ∧ t.flags = ⟨true, false, false, false, true, false⟩ := by decide
theorem test_sub_borrows :
    let t := stepOf [0x22, 0x00, 0x23, 0x01, 0x20] (setReg (withD0 0) 2 0x10)
    getReg t 2 = 0xF0 ∧ t.flags = ⟨true, false, false, true, true, false⟩ := by decide
theorem test_mul_carries :
    let t := stepOf [0x23, 0x00, 0x03, 0x01, 0x10] (withD0 0x10)
    getReg t 0 = 0 ∧ t.flags = ⟨true, true, true, false, true, false⟩ := by decide
theorem test_div_quotient :
    let t := stepOf [0x24, 0x00, 0x03, 0x01, 0x07] (withD0 0x64)
    getReg t 0 = 0x0E ∧ t.flags = ⟨false, false, false, false, false, false⟩ := by decide
theorem test_div_by_zero :
    let t := stepOf [0x24, 0x00, 0x03, 0x01, 0x00] (withD0 0x64)
    getReg t 0 = 0x64 ∧ t.ip = 5 ∧ t.result = .fail .divisionByZero := by decide
theorem test_cmp_equal :
    let t := stepOf [0x25, 0x00, 0x03, 0x01, 0x33] (withD0 0x33)
    getReg t 0 = 0x33 ∧ t.flags = ⟨false, false, true, false, false, false⟩ := by decide
theorem test_lsr_carry :
    let t := stepOf [0x10, 0x00, 0x03, 0x01, 0x01] (withD0 0x81)
    getReg t 0 = 0x40 ∧ t.flags = ⟨true, false, false, false, true, false⟩ := by decide
theorem test_lsl_carry :
    let t := stepOf [0x11, 0x00, 0x03, 0x01, 0x01] (withD0 0x81)
    getReg t 0 = 0x02 ∧ t.flags = ⟨true, false, false, false, true, false⟩ := by decide
theorem test_asr_sign :
    let t := stepOf [0x12, 0x00, 0x03, 0x01, 0x01] (withD0 0x81)
    getReg t 0 = 0xC0 ∧ t.flags = ⟨true, false, false, true, true, false⟩ := by decide
theorem test_asl_overflow :
    let t := stepOf [0x13, 0x00, 0x03, 0x01, 0x01] (withD0 0x40)
    getReg t 0 = 0x80 ∧ t.flags = ⟨false, true, false, true, false, false⟩ := by decide
theorem test_asl_by_width :
    let t := stepOf [0x13, 0x00, 0x03, 0x01, 0x08] (withD0 0xFF)
    getReg t 0 = 0 ∧ t.flags = ⟨true, true, true, false, true, false⟩ := by decide
theorem test_push_slot :
    let t := stepOf [0x30, 0x00, 0x01, 0x43] (withD0 0)
    getSp t = 0x7FF8 ∧ memReadN t.mem 0x7FF8 8 = 0x43 := by decide
theorem test_pop_keeps_upper :
    let s := setSp (withD0 0x1100) 0x7FF8
    let t := stepOf [0x31, 0x00, 0x03] (s.withMem (memWriteN s.mem 0x7FF8 8 0x43))
    getReg t 0 = 0x1143 ∧ getSp t = 0x8000 := by decide
theorem test_pop_sp_wins :
    let s := setSp (withD0 0) 0x7FF8
    getSp (stepOf [0x31, 0x03, 0xF3] (s.withMem (memWriteN s.mem 0x7FF8 8 0x43))) = 0x43 := by decide
theorem test_call_pushes_end :
    let t := stepOf [0x08, 0x00, 0x01, 0x02] (withD0 0)
    t.ip = 6 ∧ getSp t = 0x7FF8 ∧ memReadN t.mem 0x7FF8 8 = 4 := by decide
theorem test_ret_pops :
    let s := (setSp (withD0 0) 0x7FF8).withIp 6
    let t := stepOf [0x02, 0x00] (s.withMem (memWriteN s.mem 0x7FF8 8 4))
    t.ip = 4 ∧ getSp t = 0x8000 := by decide
theorem test_lea_address :
    getReg (stepOf [0x26, 0x00, 0x83, 0x95, 0x22] (setReg (setReg (withD0 0) 9 0x1000) 2 3)) 8 = 0x100C := by decide
theorem test_beq_back :
    ((stepOf [0x40, 0x00, 0x01, 0xF7] (((withD0 0).withFlags ⟨false, false, true, false, false, false⟩).withIp 5)).ip) = 0 := by
  decide
theorem test_bne_back : (stepOf [0x41, 0x00, 0x01, 0xF7] ((withD0 0).withIp 5)).ip = 0 := by decide
theorem test_bcs_not_taken : (stepOf [0x42, 0x00, 0x01, 0x04] (withD0 0)).ip = 4 := by decide
theorem test_bcc_taken : (stepOf [0x43, 0x00, 0x01, 0x04] (withD0 0)).ip = 8 := by decide
theorem test_bvs_taken :
    (stepOf [0x44, 0x00, 0x01, 0xFE] ((withD0 0).withFlags ⟨false, true, false, false, false, false⟩)).ip = 2 := by decide
theorem test_bvc_taken : (stepOf [0x45, 0x00, 0x01, 0x10] (withD0 0)).ip = 0x14 := by decide
theorem test_brk_halts :
    let t := stepOf [0x00, 0x00] ((withD0 0).withIp 0x10)
    t.flags.h = true ∧ t.ip = 0x12 ∧ t.result = .ok := by decide
theorem test_nop_advances : (stepOf [0x01, 0x00] ((withD0 0).withIp 0x20)).ip = 0x22 := by decide

/-- One registered syscall, id 1, whose callback writes D3. -/
def withSyscall (v : Word) : State :=
  { withD0 v with syscalls := [⟨1, "write", .script [.write (.setReg 3 7), .port (.raiseInterrupt 2)]⟩] }

theorem test_sys_calls :
    let t := stepOf [0x04, 0x00, 0x03] (withSyscall 1)
    getReg t 3 = 7 ∧ t.irqPending[2]? = some true ∧ t.ip = 3 ∧ t.result = .ok := by decide
theorem test_sys_unknown : (stepOf [0x04, 0x00, 0x03] (withSyscall 2)).result = .fail .unknownSyscall := by decide
theorem test_rti_restores :
    let s := setSp (withD0 0) 0x7FF0
    let t := stepOf [0x03, 0x00] ((s.withMem (memWriteN (memWriteN s.mem 0x7FF0 8 5) 0x7FF8 8 0x105)).withIsr .executing)
    t.flags = ⟨true, false, true, false, false, false⟩ ∧ t.ip = 0x105 ∧ getSp t = 0x8000 ∧ t.isr = .idle := by decide

/-- One registered extension, of one byte, whose executor is as given. -/
def withExtension (o : ExtOutcome) : State :=
  { withD0 0 with extensions := [⟨0xF0, .done 0 0, "one byte", .script o⟩] }

theorem test_ext_executes :
    let t := stepOf [0xF0] (withExtension (.ok [.setReg 4 9, .store 0x100 .word 0x1234]))
    getReg t 4 = 9 ∧ memReadN t.mem 0x100 2 = 0x1234 ∧ t.ip = 1 := by decide
/-- An executor that writes C and Z leaves the other flags as they are. -/
theorem test_ext_writes_flags :
    let s := (withExtension (.ok [.setFlags (some true) none (some false) none none])).withFlags
      ⟨false, true, true, false, true, false⟩
    (stepOf [0xF0] s).flags = ⟨true, true, false, false, true, false⟩ := by decide
theorem test_ext_faults :
    (stepOf [0xF0] (withExtension (.fault .divisionByZero))).result = .fail (.extensionFault .divisionByZero) := by decide

/-- An enabled exception is pending after the faulting step, and the next step enters its handler
(60_exceptions R413, R430). -/
theorem test_exception_pends :
    (stepOf [0x7F] { withD0 0 with excEnabled := ⟨true, false, false, false⟩ }).excPending =
      some .invalidInstruction := by decide
theorem test_exception_entry :
    let s := { withD0 0 with excPending := some .invalidInstruction, ip := 0x200 }
    let t := stepOf [] (s.withMem (memWriteBytes (memWriteN s.mem 16 8 0x300) 0x300 [0x01]))
    t.ip = 0x302 ∧ t.isr = .executing ∧ memReadN t.mem 0x7FF8 8 = 0x200 ∧ getSp t = 0x7FF0 := by decide

/-! ### Witnesses: for each statement with hypotheses, operands and states that meet them together -/

/-- Whether an outcome is a next state. -/
def isNext : Host.Outcome State Fault Refusal → Bool
  | .next _ => true
  | .fault _ => false
  | .refused _ => false

/-- The next state of an outcome that has one. -/
def nextOr (s : State) : Host.Outcome State Fault Refusal → State
  | .next t => t
  | .fault _ => s
  | .refused _ => s

theorem eq_next {o : Host.Outcome State Fault Refusal} (s : State) (h : isNext o = true) : o = .next (nextOr s o) := by
  cases o <;> first | rfl | cases h

/-- The state `withD0 v` with bytes stored at IP. -/
def placed (bs : List Byte) (v : Word) : State := storeAtIp (withD0 v) bs

/-- The bytes of a concrete instruction as a fetch. -/
def fetchOf (bs : List Byte) : Fetch := fun k => bs[k]?

theorem witness_DecodeOfEncode :
    let i := Instr.mov .long (.rel 7 15 7) (.imm 15 0xFFFFFFFFFFFFFFFF)
    extRangeFree Params.reference.extRange = true ∧ i.wf = true ∧ i.isBase = true ∧
      ∀ (k : Nat) (b : Byte), (encode i)[k]? = some b → fetchOf (encode i) k = some b :=
  ⟨by decide, by decide, by decide, fun _ _ h => h⟩
theorem witness_EncodeOfDecode :
    decode Params.reference.extRange [] (fetchOf [0x02, 0x03]) = .ok ⟨.ret .long, 2, none⟩ ∧
      (Instr.ret .long).isBase = true := by decide
theorem witness_DecodedIsWellFormed :
    decode Params.reference.extRange [] (fetchOf [0x31, 0x00, 0xF3]) = .ok ⟨.pop .byte (.reg 15), 3, none⟩ ∧
    decode Params.reference.extRange [] (fetchOf []) = .error ⟨.memoryOutOfBounds, 1⟩ := by decide

/-- The unregistered bytes that are next to a class byte or to EXT_RANGE. -/
theorem witness_HeaderRefusals_opcode :
    Params.reference.extRange.contains 0xF0 = true ∧ Params.reference.extRange.contains 0xEF = false ∧
    (∀ c, opcodeByte c ≠ 0xEF) ∧ ∀ c, opcodeByte c ≠ 0x46 := by
  refine ⟨by decide, by decide, fun c => ?_, fun c => ?_⟩ <;> rcases c with c | c | c <;> cases c <;> decide
/-- Byte 1 absent, with the lowest and the highest reserved bit, and with each control-register flag. -/
theorem witness_HeaderRefusals_flags :
    fetchOf [0x21] 0 = some (opcodeByte (.b .add)) ∧ Params.reference.extRange.contains (opcodeByte (.b .add)) = false ∧
    fetchOf [0x21] 1 = none ∧ (0x04#8).extractLsb' 2 4 ≠ 0 ∧ (0x20#8).extractLsb' 2 4 ≠ 0 ∧
    (0x80#8).extractLsb' 2 4 = 0 ∧ (0x80#8).getLsbD 7 = true ∧ (0x40#8).extractLsb' 2 4 = 0 ∧
    (0x40#8).getLsbD 6 = true ∧ OpClass.b .add ≠ .b .mov := by decide
/-- The lowest and the highest size code that an OFF8 operand refuses, of the first and the last branch. -/
theorem witness_HeaderRefusals_offset8 :
    UClass.beq ∈ [UClass.beq, .bne, .bcs, .bcc, .bvs, .bvc] ∧ UClass.bvc ∈ [UClass.beq, .bne, .bcs, .bcc, .bvs, .bvc] ∧
    fetchOf [0x40, 0x01] 0 = some (opcodeByte (.u .beq)) ∧ fetchOf [0x45, 0x03] 0 = some (opcodeByte (.u .bvc)) ∧
    Params.reference.extRange.contains (opcodeByte (.u .beq)) = false ∧
    Params.reference.extRange.contains (opcodeByte (.u .bvc)) = false ∧
    fetchOf [0x40, 0x01] 1 = some 0x01 ∧ fetchOf [0x45, 0x03] 1 = some 0x03 ∧
    (0x01#8).extractLsb' 2 4 = 0 ∧ (0x01#8).extractLsb' 0 2 ≠ 0 ∧
    (0x03#8).extractLsb' 2 4 = 0 ∧ (0x03#8).extractLsb' 0 2 ≠ 0 := by decide
theorem witness_DescriptorCheck :
    (true = true → Role.write = .read ∨ Role.write = .write) ∧ (checkDescriptor 0x83 .write true).isSome = true ∧
    (checkDescriptor 0x73 .write true).isSome = false := by decide
theorem witness_TicksReachDecode :
    ∀ op, fetchOf [0xEF] 0 = some op → Params.reference.extRange.contains op = false := by decide

theorem witness_StepRunsDecodedInstruction :
    let s := placed [0x01, 0x00] 0
    s.flags.h = false ∧ noTrapReady s = true ∧ decodeAt s = .ok ⟨.nop .byte, 2, none⟩ := by decide
theorem witness_StepRunsDecodedInstruction_boundary : ∃ s u : State,
    s.flags.h = false ∧ stepBoundary (beginStep s) = .go u ∧ decodeAt u = .ok ⟨.nop .byte, 2, none⟩ :=
  ⟨placed [0x01, 0x00] 0, placed [0x01, 0x00] 0, by decide, by decide, by decide⟩
theorem witness_HaltOnlyByBrkOrTrapFault_halted :
    ((withD0 0).withFlags ⟨false, false, false, false, false, true⟩).flags.h = true := by decide
theorem witness_HaltOnlyByBrkOrTrapFault_brk : ∃ s t : State,
    step s = .next t ∧ s.flags.h = false ∧ t.flags.h = true ∧ t.result = .ok :=
  ⟨placed [0x00, 0x00] 0, _, eq_next State.reset (by decide), by decide⟩
theorem witness_HaltOnlyByBrkOrTrapFault_trap : ∃ s t : State,
    step s = .next t ∧ s.flags.h = false ∧ t.flags.h = true ∧ t.result = .fail .trapEntryFault :=
  ⟨setSp (State.reset.withExcPending (some .unknownSyscall)) 15, _, eq_next State.reset (by decide), by decide⟩
/-- Whether a step boundary goes on. -/
def goesOn : Boundary → Bool
  | .go _ => true
  | .halted _ => false

/-- The state a step boundary leaves. -/
def boundaryState : Boundary → State
  | .go u => u
  | .halted u => u

theorem eq_go {b : Boundary} (h : goesOn b = true) : b = .go (boundaryState b) := by
  cases b <;> first | rfl | cases h

theorem witness_FailingStepChangesOnlyIp_decode : ∃ s u t : State, s.flags.h = false ∧
    stepBoundary (beginStep s) = .go u ∧ step s = .next t ∧ t.result = .fail .unknownOpcode ∧ noTrapReady s = true :=
  ⟨placed [0x7F] 0, _, _, by decide, eq_go (by decide), eq_next State.reset (by decide), by decide⟩
theorem witness_FailingStepChangesOnlyIp_execute : ∃ s u t : State, s.flags.h = false ∧
    stepBoundary (beginStep s) = .go u ∧ step s = .next t ∧ t.result = .fail .divisionByZero :=
  ⟨placed [0x24, 0x00, 0x03, 0x01, 0x00] 5, _, _, by decide, eq_go (by decide), eq_next State.reset (by decide),
    by decide⟩
theorem witness_FailingStepChangesOnlyIp_refused :
    decodeAt (placed [0x40, 0x01] 0) = .error ⟨.invalidAddressing, 2⟩ := by decide
/-- A handler at 0, whose first byte 0x7F fails in the step that enters it. -/
theorem witness_FailingStepChangesOnlyIp_handler : ∃ s u t : State, s.flags.h = false ∧
    stepBoundary (beginStep s) = .go u ∧ step s = .next t ∧ t.result = .fail .unknownOpcode ∧ u.isr = .executing :=
  ⟨(placed [0x7F] 0).withExcPending (some .divisionByZero), _, _, by decide, eq_go (by decide),
    eq_next State.reset (by decide), by decide⟩
theorem witness_OnlyControlFlowWritesIp : ∃ s t : State,
    writesIp (.push .byte (.imm 0 1)) = false ∧ exec (.push .byte (.imm 0 1)) s = .next t :=
  ⟨withD0 0, _, by decide, eq_next State.reset (by decide)⟩
theorem witness_OnlyRtiLeavesExecuting : ∃ s t : State,
    step s = .next t ∧ s.isr = .executing ∧ t.isr = .idle :=
  ⟨(placed [0x03, 0x00] 0).withIsr .executing, _, eq_next State.reset (by decide), by decide⟩

/-- A state of the invariant that is not the reset state. -/
theorem inv_placed : (placed [0x30, 0x00, 0x01, 0x43] 7).Inv := by constructor <;> decide
theorem witness_StepKeepsInvariant : ∃ s t : State, s.Inv ∧ step s = .next t :=
  ⟨_, _, inv_placed, eq_next State.reset (by decide)⟩
theorem witness_HostOpsKeepInvariant : ∃ (s t : State) (op : HostOp), s.Inv ∧ hostOp s op = .ok t :=
  ⟨_, _, .port (.raiseInterrupt 7), inv_placed, rfl⟩

theorem witness_RegisterIndexAndRead : (7#4).toNat < 8 ∧ 8 ≤ (8#4).toNat ∧ 8 ≤ (15#4).toNat := by decide
theorem witness_SizedWriteKeepsOtherBits : getReg (withD0 0x4433) 0 = 0x4433 := by decide
theorem witness_MemoryIsBigEndian :
    let m : Memory := [(4, 0x11), (0xFFFF, 0x22)]
    Memory.wf m = true ∧ ∀ a, memRead m a = memRead m a := ⟨by decide, fun _ => rfl⟩
theorem witness_BoundsCheck :
    let s := withD0 0
    (0xFFF8#64).toNat + 8 ≤ s.cfg.memSize ∧ s.cfg.memSize < (0xFFF9#64).toNat + 8 ∧
      s.cfg.memSize < (0xFFFFFFFFFFFFFFFF#64).toNat + 8 := by decide
/-- The last byte of memory, the first outside it, and an address that wraps to 0. -/
theorem witness_BoundsCheck_fetch :
    let s := (withD0 0).withIp 0xFFFF
    let t := (withD0 0).withIp 0xFFFFFFFFFFFFFFFF
    (s.ip.toNat + 0) % 2 ^ 64 < s.cfg.memSize ∧ s.cfg.memSize ≤ (s.ip.toNat + 1) % 2 ^ 64 ∧
      s.cfg.memSize ≤ (t.ip.toNat + 0) % 2 ^ 64 ∧ (t.ip.toNat + 1) % 2 ^ 64 = 0 ∧ 0 < t.cfg.memSize := by decide
theorem witness_FetchSeesStores : ∃ s t : State,
    Memory.wf s.mem = true ∧ writeMem s 0xFFF8 8 0x0102030405060708 = .ok t ∧ 7 < 8 ∧
      (t.ip + BitVec.ofNat 64 1).toNat = (0xFFF8#64).toNat + 7 :=
  ⟨(withD0 0).withIp 0xFFFE, _, by decide, rfl, by decide, by decide⟩

/-- The hypotheses of the two-operand results, with a register, a control register and the last bytes of memory. -/
theorem witness_operands :
    let st := placed [0x01] 9
    Memory.wf st.mem = true ∧
    writable st .long (resolve st (.abs 0 0xFFF8)) = true ∧ readable st .long (resolve st (.abs 0 0)) = true ∧
    writable st .byte (resolve st (.reg 0)) = true ∧ readable st .byte (resolve st (.imm 0 8)) = true ∧
    writable st .word (resolve st (.creg 7)) = true ∧ readable st .byte (resolve st (.abs 0 0xFFFF)) = true := by decide

theorem witness_MovCopies : ∃ (sz : Size) (d s : Operand) (st : State), Memory.wf st.mem = true ∧
    writable st sz (resolve st d) = true ∧ readable st sz (resolve st s) = true :=
  ⟨.long, .abs 0 0xFFF8, .abs 0 0, placed [0x01] 9, by decide⟩
theorem witness_AddResult : ∃ (sz : Size) (d s : Operand) (st : State), Memory.wf st.mem = true ∧
    writable st sz (resolve st d) = true ∧ readable st sz (resolve st s) = true ∧
    (locView st sz (resolve st d) + locView st sz (resolve st s)) % 2 ^ sz.width = 0 :=
  ⟨.byte, .reg 0, .imm 0 0xF7, placed [0x01] 9, by decide⟩
theorem witness_SubResult : ∃ (sz : Size) (d s : Operand) (st : State), Memory.wf st.mem = true ∧
    writable st sz (resolve st d) = true ∧ readable st sz (resolve st s) = true ∧
    locView st sz (resolve st d) < locView st sz (resolve st s) :=
  ⟨.byte, .reg 0, .imm 0 10, placed [0x01] 9, by decide⟩
theorem witness_MulResult : ∃ (sz : Size) (d s : Operand) (st : State), Memory.wf st.mem = true ∧
    writable st sz (resolve st d) = true ∧ readable st sz (resolve st s) = true ∧
    2 ^ sz.width ≤ locView st sz (resolve st d) * locView st sz (resolve st s) :=
  ⟨.byte, .reg 0, .imm 0 0xFF, placed [0x01] 9, by decide⟩
theorem witness_DivResult_quotient : ∃ (sz : Size) (d s : Operand) (st : State), readable st sz (resolve st s) = true ∧
    Memory.wf st.mem = true ∧ writable st sz (resolve st d) = true ∧ locView st sz (resolve st s) ≠ 0 :=
  ⟨.byte, .reg 0, .imm 0 1, placed [0x01] 9, by decide⟩
/-- A divisor whose Byte view is 0 while a higher bit is set. -/
theorem witness_DivResult_zero : ∃ (sz : Size) (d s : Operand) (st : State), readable st sz (resolve st s) = true ∧
    readable st sz (resolve st d) = true ∧ locView st sz (resolve st s) = 0 ∧ getReg st 0 ≠ 0 :=
  ⟨.byte, .abs 0 0xFFFF, .reg 0, withD0 0x100, by decide⟩
theorem witness_CmpSetsSubFlags : ∃ (sz : Size) (d s : Operand) (st : State),
    readable st sz (resolve st d) = true ∧ readable st sz (resolve st s) = true :=
  ⟨.byte, .imm 0 0x33, .abs 0 0xFFFF, placed [0x01] 9, by decide⟩
theorem witness_OverflowIsSignedOverflow : 0 < 8 ∧ 0x7F < 2 ^ 8 ∧ 1 < 2 ^ 8 ∧ (aluAdd 8 0x7F 1).v = true ∧
    (aluSub 8 0x80 1).v = true := by decide
theorem witness_LsrResult : ∃ (sz : Size) (d s : Operand) (st : State), Memory.wf st.mem = true ∧
    writable st sz (resolve st d) = true ∧ readable st sz (resolve st s) = true ∧
    locView st sz (resolve st s) = 0 := ⟨.byte, .reg 0, .imm 0 0, placed [0x01] 9, by decide⟩
theorem witness_LslResult : ∃ (sz : Size) (d s : Operand) (st : State), Memory.wf st.mem = true ∧
    writable st sz (resolve st d) = true ∧ readable st sz (resolve st s) = true ∧
    locView st sz (resolve st s) = sz.width := ⟨.byte, .reg 0, .imm 0 8, placed [0x01] 9, by decide⟩
theorem witness_AsrResult : ∃ (sz : Size) (d s : Operand) (st : State), Memory.wf st.mem = true ∧
    writable st sz (resolve st d) = true ∧ readable st sz (resolve st s) = true ∧
    locView st sz (resolve st s) = sz.width + 1 := ⟨.byte, .reg 0, .imm 0 9, placed [0x01] 0x80, by decide⟩
theorem witness_AslResult : ∃ (sz : Size) (d s : Operand) (st : State), Memory.wf st.mem = true ∧
    writable st sz (resolve st d) = true ∧ readable st sz (resolve st s) = true ∧
    locView st sz (resolve st s) = sz.width - 1 := ⟨.byte, .reg 0, .imm 0 7, placed [0x01] 0xFF, by decide⟩
theorem witness_ShiftsAreSingleShifts : 0 < 8 ∧ 0xFF < 2 ^ 8 ∧ (aluAsl 8 0xFF 8).v = true ∧
    (aluAsl 8 0xFF 7).v = false := by decide

/-- The lowest slot a push may fill. -/
theorem witness_PushResult : ∃ (sz : Size) (d : Operand) (st : State), Memory.wf st.mem = true ∧
    readable st sz (resolve st d) = true ∧ inBounds st (getSp st - 8#64).toNat 8 = true :=
  ⟨.long, .reg 15, setSp (withD0 0) 8, by decide⟩
/-- The highest slot a pop may read, and SP as the destination. -/
theorem witness_PopResult : ∃ (sz : Size) (d : Operand) (st : State), Memory.wf st.mem = true ∧
    writable st sz (resolve st d) = true ∧ inBounds st (getSp st).toNat 8 = true :=
  ⟨.long, .reg 15, setSp (withD0 0) 0xFFF8, by decide⟩
theorem witness_PopUndoesPush : ∃ (sz sz' : Size) (d d' : Operand) (st t : State), Memory.wf st.mem = true ∧
    readable st sz (resolve st d) = true ∧ inBounds st (getSp st - 8#64).toNat 8 = true ∧
    exec (.push sz d) st = .next t ∧ writable t sz' (resolve t d') = true :=
  ⟨.long, .byte, .reg 0, .abs 0 0xFFFF, withD0 0x1234, _, by decide, by decide, by decide,
    eq_next State.reset (by decide), by decide⟩
theorem witness_CallResult : ∃ st : State, Memory.wf st.mem = true ∧ inBounds st (getSp st - 8#64).toNat 8 = true :=
  ⟨setSp (withD0 0) 0x10000, by decide⟩
theorem witness_RetResult : ∃ st : State, inBounds st (getSp st).toNat 8 = true :=
  ⟨setSp (withD0 0) 0xFFF8, by decide⟩
theorem witness_RetUndoesCall : ∃ (v : Word) (st t : State), Memory.wf st.mem = true ∧
    inBounds st (getSp st - 8#64).toNat 8 = true ∧ exec (.call .byte (.imm 0 v)) st = .next t :=
  ⟨0xFE, withD0 0, _, by decide, by decide, eq_next State.reset (by decide)⟩
theorem witness_LeaResult : 8 ≤ (8#4).toNat ∧ 8 ≤ (15#4).toNat := by decide
theorem witness_BranchBrkNopResult : ∃ (v target : Word) (st : State),
    target = st.ip + BitVec.ofInt 64 (signedOf 8 (v.toNat % 256)) ∧ target = 0 :=
  ⟨0xF7, 0, (withD0 0).withIp 9, by decide, rfl⟩
theorem witness_RtiResult : ∃ (st : State) (w : Nat), inBounds st (getSp st).toNat 16 = true ∧
    w = memReadN st.mem (getSp st).toNat 8 := ⟨setSp (withD0 0) 0xFFF0, _, by decide, rfl⟩

theorem witness_SysResult_known :
    let st := withSyscall 1
    readable st .byte (resolve st (.reg 0)) = true ∧ (st.syscalls.map SyscallEntry.id).Nodup ∧
      ∃ e ∈ st.syscalls, e.id.toNat = locView st .byte (resolve st (.reg 0)) := by decide
theorem witness_SysResult_unknown :
    let st := withSyscall 2
    readable st .byte (resolve st (.reg 0)) = true ∧
      ∀ e ∈ st.syscalls, e.id.toNat ≠ locView st .byte (resolve st (.reg 0)) := by decide
theorem witness_ExtResult_ok : ∃ e, e ∈ (withExtension (.ok [.setCr 0 1])).extensions ∧ e.opcode = 0xF0 ∧
    ((withExtension (.ok [.setCr 0 1])).extensions.map ExtEntry.opcode).Nodup ∧
    executorOutcome e.executor 0 (withExtension (.ok [.setCr 0 1])) = .ok [.setCr 0 1] :=
  ⟨_, .head _, rfl, by decide, rfl⟩
theorem witness_ExtResult_fault : ∃ e, e ∈ (withExtension (.fault .unknownSyscall)).extensions ∧ e.opcode = 0xF0 ∧
    ((withExtension (.fault .unknownSyscall)).extensions.map ExtEntry.opcode).Nodup ∧
    executorOutcome e.executor 0 (withExtension (.fault .unknownSyscall)) = .fault .unknownSyscall :=
  ⟨_, .head _, rfl, by decide, rfl⟩
/-- Two states that differ in IP and every flag and that an executor cannot tell apart. -/
theorem witness_ExtResult_view :
    let s := withD0 7
    let t := (s.withIp 0x40).withFlags ⟨true, true, true, true, true, true⟩
    t.regs = s.regs ∧ t.mem = s.mem ∧ t.cfg.memSize = s.cfg.memSize ∧ t.hostCalls = s.hostCalls ∧ t ≠ s := by decide
theorem witness_HostWriteEffects :
    let s := placed [0x01] 9
    Memory.wf s.mem = true ∧ inBounds s (0xFFF8#64).toNat Size.long.bytes = true ∧
      inBounds s (0xFFF9#64).toNat Size.long.bytes = false := by decide

/-- Each clause at the first address, slot or SP that is outside memory. -/
theorem witness_OutOfBoundsFaults :
    let st := withD0 0
    readable st .long (resolve st (.abs 0 0xFFF9)) = false ∧
    Instr.div .long (.abs 0 0xFFF9) (.imm 0 0) ∈ memoryOperandInstrs .long (.abs 0 0xFFF9) (.imm 0 0) ∧
    (let u := setSp st 7; inBounds u (getSp u - 8#64).toNat 8 = false) ∧
    (let u := setSp st 0xFFF9; inBounds u (getSp u).toNat 8 = false) ∧
    (let u := setSp st 0xFFF1; inBounds u (getSp u).toNat 16 = false) := by decide

theorem witness_TrapEntryEffect :
    let s := setSp (withD0 0) 16
    Memory.wf s.mem = true ∧ inBounds s (vectorAddr s (excSlot .unknownSyscall)).toNat 8 = true ∧
      inBounds s (getSp s - 16#64).toNat 16 = true := by decide
theorem witness_RtiUndoesTrapEntry : ∃ s t : State,
    Memory.wf s.mem = true ∧ trapEntry s (irqSlot 7) = some t :=
  ⟨placed [0x01] 9, _, by decide, rfl⟩
theorem witness_PendingExceptionTakenFirst : ∃ s t : State, s.flags.h = false ∧ s.excPending = some .divisionByZero ∧
    trapEntry { s with result := .ok, excPending := none } (excSlot .divisionByZero) = some t :=
  ⟨{ withD0 0 with isr := .executing, excPending := some .divisionByZero }, _, by decide, by decide, rfl⟩

/-- Lines 3 and 7 pending, lines 5 and 7 enabled. -/
def twoLines : State :=
  { withD0 0 with
    irqPending := [false, false, false, true, false, false, false, true]
    irqEnabled := [false, false, false, false, false, true, false, true] }

theorem witness_LeastInterruptTaken_taken : ∃ t, twoLines.flags.h = false ∧ twoLines.excPending = none ∧
    twoLines.isr = .idle ∧ twoLines.irqPending[7]? = some true ∧ twoLines.irqEnabled[7]? = some true ∧
    (∀ k < 7, ¬ (twoLines.irqPending[k]? = some true ∧ twoLines.irqEnabled[k]? = some true)) ∧
    trapEntry { twoLines with result := .ok } (irqSlot 7) = some t :=
  ⟨_, by decide, by decide, by decide, by decide, by decide, by decide, rfl⟩
theorem witness_LeastInterruptTaken_executing :
    let s := twoLines.withIsr .executing
    s.flags.h = false ∧ s.excPending = none ∧ s.isr = .executing := by decide
theorem witness_LeastInterruptTaken_none :
    let s := withD0 0
    s.flags.h = false ∧ s.excPending = none ∧ s.isr = .idle ∧
      ∀ l : Nat, ¬ (s.irqPending[l]? = some true ∧ s.irqEnabled[l]? = some true) := by
  refine ⟨by decide, by decide, by decide, fun l h => ?_⟩
  exact absurd (List.mem_of_getElem? h.1) (by decide)
theorem witness_TrapEntryFaultHalts_exception :
    let s := setSp ((withD0 0).withExcPending (some .invalidInstruction)) 15
    s.flags.h = false ∧ s.excPending = some .invalidInstruction ∧ inBounds s (getSp s - 16#64).toNat 16 = false := by
  decide
theorem witness_TrapEntryFaultHalts_interrupt :
    let s := { twoLines with cfg := { Params.reference with vtBase := 0xFF81 } }
    s.flags.h = false ∧ s.excPending = none ∧ s.isr = .idle ∧ firstEligible s.irqPending s.irqEnabled = some 7 ∧
      inBounds s (vectorAddr s (irqSlot 7)).toNat 8 = false := by decide
theorem witness_RaiseIsNotLost : ∃ s t : State, step s = .next t ∧ s.irqPending[3]? = some true :=
  ⟨twoLines, _, eq_next State.reset (by decide), by decide⟩
theorem witness_EnablesLastUntilReset : ∃ s t : State, runEvent s .step = .next t ∧ Event.step ≠ .host .reset ∧
    s.irqEnabled[7]? = some true ∧ 7 < s.cfg.numIrq ∧ 7 < s.irqEnabled.length ∧ hostOp s .reset = .ok s.afterReset :=
  ⟨twoLines, _, eq_next State.reset (by decide), by decide, by decide, by decide, by decide, rfl⟩
/-- The first and the last line, and the first line and exception id out of range. -/
theorem witness_InterruptPort :
    let s := twoLines
    s.irqPending.length = s.cfg.numIrq ∧ s.irqEnabled.length = s.cfg.numIrq ∧ 0 < s.cfg.numIrq ∧ 7 < s.cfg.numIrq ∧
      s.cfg.numIrq ≤ 8 ∧ hostOp s (.port (.raiseInterrupt 8)) = .rejected ∧
      hostOp s (.port (.enableException 4)) = .rejected := by decide
/-- A new and a registered syscall id; a new and a registered byte of EXT_RANGE, and a byte below it. -/
theorem witness_Registration :
    (∀ e ∈ (withSyscall 1).syscalls, e.id ≠ 0xFFFFFFFFFFFFFFFF) ∧ (∃ e ∈ (withSyscall 1).syscalls, e.id = 1) ∧
    (let s := withExtension (.ok [])
     s.cfg.extRange.contains 0xFF = true ∧ (∀ e ∈ s.extensions, e.opcode ≠ 0xFF) ∧
       (∃ e ∈ s.extensions, e.opcode = 0xF0) ∧ s.cfg.extRange.contains 0xEF = false) := by decide
theorem witness_PowerUpAndLoading :
    let s := withD0 0
    [0x01#8, 0x02#8].length ≤ 2 ∧ Memory.wf s.mem = true ∧ 0xFFFE + [0x01#8, 0x02#8].length ≤ s.cfg.memSize ∧
      s.cfg.memSize < 0xFFFF + [0x01#8, 0x02#8].length := by decide

end Sys2Proof.Tests
end

section
/-!
PROOFS. The invariant of machine states between steps under the host's transactions (00_scope R11 to R14): `Kept`
carries it, and each transaction either is `Kept` or touches one part of the state whose clauses are proved here.
-/
namespace Sys2Proof.Machine

/-! ### What carries the invariant -/

/-- A pending exception stays one of an enabled line when enable bits are only set (60_exceptions R413, R422). -/
theorem pendingIsEnabled_mono {m m' : ExcMask} (hm : ∀ e, excIsEnabled m e = true → excIsEnabled m' e = true)
    {p : Option ExcId} (h : pendingIsEnabled m p = true) : pendingIsEnabled m' p = true := by
  cases p with
  | none => rfl
  | some e => exact hm e h

/-- What no completed execute phase changes is enough for the invariant. -/
theorem Kept.inv {s t : State} (h : Kept s t) (hs : s.Inv) : t.Inv where
  mem_wf := h.wf hs.mem_wf
  mem_inside := by rw [h.cfg]; exact h.inside hs.mem_inside
  pending_lines := by rw [h.pendingLength, h.cfg]; exact hs.pending_lines
  enabled_lines := by rw [h.enabledLength, h.cfg]; exact hs.enabled_lines
  pending_enabled := by
    obtain ⟨_, _, hexc⟩ := h.bits
    rw [h.excPending]
    exact pendingIsEnabled_mono hexc hs.pending_enabled
  not_in_extension := by rw [h.dstate]; exact hs.not_in_extension
  idle_no_instance := by rw [h.dstate, h.extInstance]; exact hs.idle_no_instance
  range_free := by rw [h.cfg]; exact hs.range_free
  ext_in_range := by rw [h.cfg, h.extensions]; exact hs.ext_in_range
  ext_once := by rw [h.extensions]; exact hs.ext_once
  syscall_once := by rw [h.syscalls]; exact hs.syscall_once

/-- A list without duplicate keys stays one when an entry with a new key is added at its end. -/
theorem nodup_map_append_singleton {α β : Type} {f : α → β} {l : List α} {x : α} (h : (l.map f).Nodup)
    (hx : ∀ y ∈ l, f y ≠ f x) : ((l ++ [x]).map f).Nodup := by
  rw [List.map_append, List.map_singleton, ← List.concat_eq_append]
  refine h.concat fun hmem => ?_
  obtain ⟨y, hy, hxy⟩ := List.mem_map.1 hmem
  exact hx y hy hxy

/-! ### What an accepted transaction is -/

theorem replyOf_eq_ok {o : Option State} {t : State} : replyOf o = .ok t ↔ o = some t := by
  cases o <;> simp [replyOf]

/-- An accepted port operation is the one a callback may make (60_exceptions R420 to R423). -/
theorem hostOp_port_eq_ok {s t : State} {p : PortOp} (h : hostOp s (.port p) = .ok t) : t = applyPortOp s p := by
  cases p <;> simp [applyPortOp, replyOf_eq_ok.1 h]

theorem loadBytes_eq_ok {s t : State} {offset : Nat} {bytes : List Byte} :
    loadBytes s offset bytes = .ok t ↔
      offset + bytes.length ≤ s.cfg.memSize ∧ t = s.withMem (memWriteBytes s.mem offset bytes) := by
  unfold loadBytes
  split_ifs with h <;> simp [h, eq_comm]

theorem registerSyscall_eq_ok {s t : State} {e : SyscallEntry} :
    registerSyscall s e = .ok t ↔ (∀ x ∈ s.syscalls, x.id ≠ e.id) ∧ t = { s with syscalls := s.syscalls ++ [e] } := by
  have hany : (s.syscalls.any fun x => x.id == e.id) = true ↔ ¬ ∀ x ∈ s.syscalls, x.id ≠ e.id := by simp
  unfold registerSyscall
  split_ifs with h
  · simp [hany.1 h]
  · rw [hany, not_not] at h
    exact ⟨fun ht => ⟨h, (HostReply.ok.inj ht).symm⟩, fun ⟨_, ht⟩ => by rw [ht]⟩

theorem registerExtension_eq_ok {s t : State} {e : ExtEntry} :
    registerExtension s e = .ok t ↔
      s.cfg.extRange.contains e.opcode = true ∧ (∀ x ∈ s.extensions, x.opcode ≠ e.opcode) ∧
        t = { s with extensions := s.extensions ++ [e] } := by
  have hnew : hasExtension s e.opcode = false ↔ ∀ x ∈ s.extensions, x.opcode ≠ e.opcode := by
    rw [hasExtension, Option.isSome_eq_false_iff, Option.isNone_iff_eq_none, findExtension_eq_none]
  rw [registerExtension, ← hnew]
  cases s.cfg.extRange.contains e.opcode <;> cases hasExtension s e.opcode <;> simp [eq_comm]

/-! ### Each transaction keeps the invariant -/

/-- `Reset` gives one cleared pending and enable bit for each line, no pending exception and an idle decoder; memory,
parameters and registries stay (70_reset_and_hazards R480). -/
theorem inv_afterReset {s : State} (hs : s.Inv) : s.afterReset.Inv where
  mem_wf := hs.mem_wf
  mem_inside := hs.mem_inside
  pending_lines := List.length_replicate
  enabled_lines := List.length_replicate
  pending_enabled := rfl
  not_in_extension := DState.noConfusion
  idle_no_instance := fun _ => rfl
  range_free := hs.range_free
  ext_in_range := hs.ext_in_range
  ext_once := hs.ext_once
  syscall_once := hs.syscall_once

/-- `InitMemory` stores no byte past the new MEM_SIZE, however long the host's buffer (70_reset_and_hazards R482). -/
theorem inv_initMemory {s : State} (hs : s.Inv) (size : Nat) (contents : List Byte) :
    (initMemory s size contents).Inv :=
  { hs with
    mem_wf := memWriteBytes_wf nil_wf 0 _
    mem_inside := memWriteBytes_inside (size := size) (m := []) rfl 0 _ (by simp) }

theorem kept_loadBytes {s t : State} {offset : Nat} {bytes : List Byte} (h : loadBytes s offset bytes = .ok t) :
    Kept s t := by
  obtain ⟨hb, rfl⟩ := loadBytes_eq_ok.1 h
  exact { Kept.refl s with
    wf := fun hw => memWriteBytes_wf hw offset bytes
    inside := fun hi => memWriteBytes_inside hi offset bytes hb }

theorem inv_registerSyscall {s t : State} {e : SyscallEntry} (hs : s.Inv) (h : registerSyscall s e = .ok t) : t.Inv := by
  obtain ⟨hnew, rfl⟩ := registerSyscall_eq_ok.1 h
  exact { hs with syscall_once := nodup_map_append_singleton hs.syscall_once hnew }

theorem inv_registerExtension {s t : State} {e : ExtEntry} (hs : s.Inv) (h : registerExtension s e = .ok t) :
    t.Inv := by
  obtain ⟨hrange, hnew, rfl⟩ := registerExtension_eq_ok.1 h
  exact { hs with
    ext_in_range := by simpa only [List.all_append, List.all_cons, List.all_nil, Bool.and_true, Bool.and_eq_true] using
      ⟨hs.ext_in_range, hrange⟩
    ext_once := nodup_map_append_singleton hs.ext_once hnew }

/-- Settles O16, by cases on the transaction: SetIP, LoadBytes and the port are `Kept`; Reset, InitMemory and the two
registrations re-establish the clauses they touch. -/
theorem hostOpsKeepInvariant : Obligations.HostOpsKeepInvariant := by
  intro s t op hs h
  cases op with
  | reset => cases h; exact inv_afterReset hs
  | setIp v => cases h; exact (kept_withIp s v).inv hs
  | initMemory size contents => cases h; exact inv_initMemory hs size contents
  | loadBytes offset bytes => exact (kept_loadBytes h).inv hs
  | port p =>
    obtain rfl := hostOp_port_eq_ok h
    exact (kept_applyPortOp s p).inv hs
  | registerSyscall e => exact inv_registerSyscall hs h
  | registerExtension e => exact inv_registerExtension hs h

end Sys2Proof.Machine
end

section
/-!
PROOFS. The registers and status of 10_state: what halts the core and what resumes it (R44), who writes IP (R39) and
leaves Executing (R50), how long an enable bit lasts (R52, R53), the sized register accesses (R35, R36), the status word
(R43) and the reset values (R62).
-/
namespace Sys2Proof.Machine

/-! ### Routing, decode and a halted boundary, field by field -/

@[simp] theorem route_ip (s : State) (r : Reason) : (route s r).ip = s.ip := by
  obtain ⟨_, hip, _⟩ := route_onlyRouted s r
  exact hip

@[simp] theorem route_flags (s : State) (r : Reason) : (route s r).flags = s.flags := by
  obtain ⟨_, _, hflags, _⟩ := route_onlyRouted s r
  exact hflags

@[simp] theorem route_isr (s : State) (r : Reason) : (route s r).isr = s.isr := by
  obtain ⟨_, _, _, _, hisr, _⟩ := route_onlyRouted s r
  exact hisr

/-- Routing sets and clears no pending and no enable bit (60_exceptions R413). -/
theorem bitsKept_route (s : State) (r : Reason) : bitsKept s (route s r) := by
  obtain ⟨_, _, _, _, _, hpending, henabled, hexc, _⟩ := route_onlyRouted s r
  simp [bitsKept, hpending, henabled, hexc]

@[simp] theorem beginStep_flags (s : State) : (beginStep s).flags = s.flags := rfl
@[simp] theorem beginStep_isr (s : State) : (beginStep s).isr = s.isr := rfl
@[simp] theorem beginStep_result (s : State) : (beginStep s).result = .ok := rfl

@[simp] theorem afterDecode_flags (u : State) (d : Decoded) : (afterDecode u d).flags = u.flags := rfl
@[simp] theorem afterDecode_isr (u : State) (d : Decoded) : (afterDecode u d).isr = u.isr := rfl
@[simp] theorem afterDecode_result (u : State) (d : Decoded) : (afterDecode u d).result = u.result := rfl

@[simp] theorem haltOnTrapFault_isr (s : State) : (haltOnTrapFault s).isr = s.isr := rfl
@[simp] theorem haltOnTrapFault_result (s : State) : (haltOnTrapFault s).result = .fail .trapEntryFault := rfl

@[simp] theorem decodeFailed_flags (u : State) (e : DecodeError) : (decodeFailed u e).flags = u.flags := by
  simp [decodeFailed]

@[simp] theorem decodeFailed_isr (u : State) (e : DecodeError) : (decodeFailed u e).isr = u.isr := by
  simp [decodeFailed]

/-! ### What an execute phase keeps, completed or faulted -/

/-- What any next state of `exec` keeps: IP, the ISR state and H, each unless the instruction's rule writes it, and
every pending and enable bit that was set. -/
structure ExecKeeps (i : Instr) (s t : State) : Prop where
  ip : writesIp i = false → t.ip = s.ip
  isr : (∀ sz, i ≠ .rti sz) → t.isr = s.isr
  halt : (∀ sz, i ≠ .brk sz) → t.flags.h = s.flags.h
  bits : bitsKept s t

theorem exec_keeps {i : Instr} {s t : State} (h : exec i s = .next t) : ExecKeeps i s t := by
  rcases exec_next_cases h with hdone | ⟨r, rfl⟩ | ⟨x, rfl⟩
  · exact ⟨hdone.ip, hdone.isr, hdone.halt, hdone.kept.bits⟩
  · exact ⟨fun _ => by simp, fun _ => by simp, fun _ => by simp, bitsKept_route s r⟩
  · exact ⟨fun _ => by simp, fun _ => by simp, fun _ => by simp,
      bitsKept_trans (kept_countHostCall s).bits (bitsKept_route _ _)⟩

/-- BRK sets H and nothing else (43_system_ext R320). -/
theorem exec_brk (sz : Size) (s : State) : exec (.brk sz) s = .next (s.withFlags { s.flags with h := true }) := rfl

/-! ### What the step boundary keeps -/

theorem stepBoundary_go_flags {s u : State} (h : stepBoundary s = .go u) : u.flags = s.flags := by
  obtain ⟨_, _, _, _, _, _, _, _, _, hflags, _⟩ := stepBoundary_go_kept h
  exact hflags

theorem stepBoundary_go_result {s u : State} (h : stepBoundary s = .go u) : u.result = s.result := by
  obtain ⟨_, _, _, _, _, _, hresult, _⟩ := stepBoundary_go_kept h
  exact hresult

/-- The step boundary enters Executing and never leaves it (60_exceptions R430). -/
theorem stepBoundary_go_executing {s u : State} (h : stepBoundary s = .go u) (hs : s.isr = .executing) :
    u.isr = .executing := by
  obtain ⟨_, _, _, _, _, _, _, _, _, _, _, hisr, _⟩ := stepBoundary_go_kept h
  exact hisr.elim (·.trans hs) id

/-- A step that runs `i` is the execute phase of `i` on the state its decode leaves. -/
theorem step_of_runs {s : State} {i : Instr} (hh : s.flags.h = false) (h : runs s i) : ∃ w, step s = exec i w := by
  obtain ⟨u, d, hb, hd, rfl⟩ := h
  exact ⟨afterDecode u d, by simp [step, hh, hb, fetchAndExecute, hd]⟩

/-! ### Host transactions but Reset -/

/-- A host transaction other than Reset keeps H and every pending and enable bit that was set (60_exceptions R420 to
R422, 70_reset_and_hazards R482). -/
theorem hostOp_keeps {s t : State} {op : HostOp} (hop : op ≠ .reset) (h : hostOp s op = .ok t) :
    t.flags.h = s.flags.h ∧ bitsKept s t := by
  cases op with
  | reset => exact absurd rfl hop
  | setIp v => cases h; exact ⟨rfl, bitsKept_refl s⟩
  | initMemory size contents => cases h; exact ⟨rfl, bitsKept_refl s⟩
  | loadBytes offset bytes =>
    obtain ⟨_, rfl⟩ := loadBytes_eq_ok.1 h
    exact ⟨rfl, bitsKept_refl s⟩
  | port p =>
    obtain rfl := hostOp_port_eq_ok h
    obtain ⟨_, hhalt, _⟩ := hostSilent_applyAction s (.port p)
    exact ⟨hhalt, (kept_applyPortOp s p).bits⟩
  | registerSyscall e =>
    obtain ⟨_, rfl⟩ := registerSyscall_eq_ok.1 h
    exact ⟨rfl, bitsKept_refl s⟩
  | registerExtension e =>
    obtain ⟨_, _, rfl⟩ := registerExtension_eq_ok.1 h
    exact ⟨rfl, bitsKept_refl s⟩

/-! ### Halting (10_state R44) -/

/-- A step that halts a running core failed in a trap entry, or completed a BRK. -/
theorem step_halts_cases {s t : State} (h : step s = .next t) (hs : s.flags.h = false) (ht : t.flags.h = true) :
    t.result = .fail .trapEntryFault ∨ (t.result = .ok ∧ ∃ sz, runs s (.brk sz)) := by
  rcases step_next_cases h with ⟨hh, _⟩ | ⟨_, hb⟩ | ⟨u, e, _, hb, _, rfl⟩ | ⟨u, d, _, hb, hd, hx⟩
  case inl => simp [hs] at hh
  case inr.inl => exact .inl (by rw [stepBoundary_halted_eq hb, haltOnTrapFault_result])
  case inr.inr.inl => simp [stepBoundary_go_flags hb, hs] at ht
  case inr.inr.inr =>
    have hw : (afterDecode u d).flags.h = false := by simp [stepBoundary_go_flags hb, hs]
    by_cases hbrk : ∃ sz, d.instr = .brk sz
    · obtain ⟨sz, hi⟩ := hbrk
      rw [hi, exec_brk] at hx
      cases hx
      exact .inr ⟨by simp [stepBoundary_go_result hb], sz, u, d, hb, hd, hi⟩
    · have hkeep := (exec_keeps hx).halt fun sz hi => hbrk ⟨sz, hi⟩
      rw [hkeep, hw] at ht
      cases ht

/-- Settles O10: the halted step by `step`'s definition, a halting step by `step_halts_cases`, the host's transactions
by `hostOp_keeps`. -/
theorem haltOnlyByBrkOrTrapFault : Obligations.HaltOnlyByBrkOrTrapFault := by
  refine ⟨fun s hs => ?_, fun s t => step_halts_cases, fun s t sz h hs hrun => ?_, fun s t op h => ⟨?_, ?_⟩⟩
  · rw [step, if_pos hs]
    rfl
  · obtain ⟨w, hw⟩ := step_of_runs hs hrun
    rw [hw, exec_brk] at h
    cases h
    rfl
  · rintro rfl
    cases h
    rfl
  · exact fun hop => (hostOp_keeps hop h).1

/-! ### IP and the ISR state (10_state R39, R50) -/

/-- Settles O12. -/
theorem onlyControlFlowWritesIp : Obligations.OnlyControlFlowWritesIp :=
  fun _ _ _ hi h => (exec_keeps h).ip hi

/-- Settles O13: at every other way a step can end, the ISR state is that of its beginning or Executing. -/
theorem onlyRtiLeavesExecuting : Obligations.OnlyRtiLeavesExecuting := by
  intro s t h hs ht
  rcases step_next_cases h with ⟨_, rfl⟩ | ⟨_, hb⟩ | ⟨u, e, _, hb, _, rfl⟩ | ⟨u, d, _, hb, hd, hx⟩
  case inl => simp [hs] at ht
  case inr.inl => simp [stepBoundary_halted_eq hb, hs] at ht
  case inr.inr.inl => simp [stepBoundary_go_executing hb hs] at ht
  case inr.inr.inr =>
    by_contra hno
    have hkeep := (exec_keeps hx).isr fun sz hi => hno ⟨sz, u, d, hb, hd, hi⟩
    simp [hkeep, stepBoundary_go_executing hb hs] at ht

/-! ### Enable bits (10_state R52, R53) -/

/-- Every interrupt and exception enable that was set is still set. -/
def enablesKept (s t : State) : Prop :=
  (∀ l : Nat, s.irqEnabled[l]? = some true → t.irqEnabled[l]? = some true) ∧
  (∀ e, excIsEnabled s.excEnabled e = true → excIsEnabled t.excEnabled e = true)

theorem enablesKept_of_eq {s t : State} (hirq : t.irqEnabled = s.irqEnabled) (hexc : t.excEnabled = s.excEnabled) :
    enablesKept s t := by
  simp [enablesKept, hirq, hexc]

theorem bitsKept.enables {s t : State} (h : bitsKept s t) : enablesKept s t := h.2

theorem enablesKept.trans {s t u : State} (h : enablesKept s t) (h' : enablesKept t u) : enablesKept s u :=
  ⟨fun l hl => h'.1 l (h.1 l hl), fun e he => h'.2 e (h.2 e he)⟩

theorem stepBoundary_go_enables {s u : State} (h : stepBoundary s = .go u) : enablesKept s u := by
  obtain ⟨_, _, _, _, _, _, _, hirq, hexc, _⟩ := stepBoundary_go_kept h
  exact enablesKept_of_eq hirq hexc

theorem decodeFailed_enables (u : State) (e : DecodeError) : enablesKept u (decodeFailed u e) := by
  obtain ⟨_, _, _, _, _, hirq, hexc, _⟩ := decodeFailed_kept u e
  exact enablesKept_of_eq hirq hexc

/-- No step clears an enable bit. -/
theorem step_enables {s t : State} (h : step s = .next t) : enablesKept s t := by
  have hbegin : enablesKept s (beginStep s) := enablesKept_of_eq rfl rfl
  rcases step_next_cases h with ⟨_, rfl⟩ | ⟨_, hb⟩ | ⟨u, e, _, hb, _, rfl⟩ | ⟨u, d, _, hb, _, hx⟩
  case inl => exact hbegin
  case inr.inl =>
    rw [stepBoundary_halted_eq hb]
    exact enablesKept_of_eq rfl rfl
  case inr.inr.inl => exact (hbegin.trans (stepBoundary_go_enables hb)).trans (decodeFailed_enables u e)
  case inr.inr.inr =>
    have hdecode : enablesKept u (afterDecode u d) := enablesKept_of_eq rfl rfl
    exact ((hbegin.trans (stepBoundary_go_enables hb)).trans hdecode).trans (exec_keeps hx).bits.enables

/-- No event but Reset clears an enable bit; a rejected transaction changes nothing. -/
theorem runEvent_enables {s t : State} {ev : Event} (h : runEvent s ev = .next t) (hev : ev ≠ .host .reset) :
    enablesKept s t := by
  cases ev with
  | step => exact step_enables h
  | host op =>
    cases h
    cases hr : hostOp s op with
    | rejected => exact enablesKept_of_eq rfl rfl
    | ok u => exact (hostOp_keeps (fun hop => hev (congrArg Event.host hop)) hr).2.enables

theorem excOfNumber_excNumber (e : ExcId) : excOfNumber (excNumber e) = some e := by cases e <;> rfl

theorem afterReset_exc_disabled (s : State) (e : ExcId) : excIsEnabled s.afterReset.excEnabled e = false := by
  cases e <;> rfl

/-- Settles O55: `runEvent_enables`, and the port's and Reset's effects on the enables. -/
theorem enablesLastUntilReset : Obligations.EnablesLastUntilReset := by
  refine ⟨fun s t ev => runEvent_enables, fun s l hl hlen => ?_, fun s e => ?_, fun s t h => ?_⟩
  · exact ⟨s.withIrqEnabled (s.irqEnabled.set l true), by simp [hostOp, enableLine, hl, replyOf],
      by simp [hlen]⟩
  · exact ⟨s.withExcEnabled (excEnable s.excEnabled e), by simp [hostOp, enableExc, excOfNumber_excNumber, replyOf],
      by simp [excIsEnabled_enable]⟩
  · cases h
    refine ⟨fun l hl => ?_, afterReset_exc_disabled s⟩
    have hmem : true ∈ List.replicate s.cfg.numIrq false := List.mem_of_getElem? hl
    simp at hmem

/-! ### Registers (10_state R31 to R37) -/

theorem upperCell_of_lt {r : RegIdx} (h : r.toNat < 8) : upperCell r = BitVec.ofNat 3 r.toNat := by
  revert r; decide

theorem upperCell_of_le {r : RegIdx} (h : 8 ≤ r.toNat) : upperCell r = BitVec.ofNat 3 (r.toNat - 8) := by
  revert r; decide

/-- Settles O17. -/
theorem registerIndexAndRead : Obligations.RegisterIndexAndRead := by
  refine fun s r sz => ⟨fun h => ?_, fun h => ?_, (getSp_eq s).symm, rfl, rfl⟩
  · rw [getReg, if_pos h, upperCell_of_lt h]
  · rw [getReg, if_neg (Nat.not_lt.2 h), upperCell_of_le h]

/-- A register write is a replacement of the register files. -/
theorem setReg_eq_withRegs (s : State) (r : RegIdx) (v : Word) : setReg s r v = s.withRegs (setReg s r v).regs := by
  rw [setReg]
  split <;> rfl

/-- Settles O18: both kinds of cell take `mergeView`, whose number and whose Long case are the clauses of R36. -/
theorem sizedWriteKeepsOtherBits : Obligations.SizedWriteKeepsOtherBits := by
  refine ⟨fun s r sz v => ⟨_, rfl, ?_, ?_, ?_, ?_, setReg_eq_withRegs _ _ _⟩,
    fun s n sz v => ⟨_, rfl, ?_, ?_, ?_, ?_, rfl⟩, fun s h => ⟨_, rfl, ?_⟩⟩
  · rw [getReg_setReg_same, mergeView_toNat]
  · rintro rfl
    rw [getReg_setReg_same, mergeView_long]
  · exact fun r' hr => getReg_setReg_other s _ hr
  · exact fun n => getCr_setReg s r _ n
  · rw [getCr_setCr_same, mergeView_toNat]
  · rintro rfl
    rw [getCr_setCr_same, mergeView_long]
  · exact fun r => getReg_setCr s n _ r
  · exact fun n' hn => getCr_setCr_other s _ hn
  · rw [getReg_setReg_same, h]
    rfl

/-! ### The status word (10_state R43) -/

/-- Bits 0 to 5 of the status word. -/
theorem statusWord_testBit_low (f : Flags) :
    (statusWord f).testBit 0 = f.c ∧ (statusWord f).testBit 1 = f.v ∧ (statusWord f).testBit 2 = f.z ∧
    (statusWord f).testBit 3 = f.n ∧ (statusWord f).testBit 4 = f.x ∧ (statusWord f).testBit 5 = f.h := by
  obtain ⟨c, v, z, n, x, h⟩ := f
  revert c v z n x h
  decide

theorem statusWord_testBit_high (f : Flags) {k : Nat} (hk : 6 ≤ k) : (statusWord f).testBit k = false :=
  Nat.testBit_lt_two_pow ((statusWord_lt f).trans_le (Nat.pow_le_pow_right Nat.two_pos hk))

/-- RTI reads bits 0 to 4 alone of the word it restores from (43_system_ext R335). -/
theorem restoreFlags_congr (g : Flags) {a b : Nat} (h : ∀ k < 5, a.testBit k = b.testBit k) :
    restoreFlags g a = restoreFlags g b := by
  simp [restoreFlags, h]

/-- Settles O48. -/
theorem statusWordLayout : Obligations.StatusWordLayout := by
  refine ⟨fun f => ?_, fun f g hi => ?_⟩
  · obtain ⟨hc, hv, hz, hn, hx, hh⟩ := statusWord_testBit_low f
    exact ⟨hc, hv, hz, hn, hx, hh, fun k => statusWord_testBit_high f⟩
  · have hlow : ∀ k < 5, (statusWord f + 64 * hi).testBit k = (statusWord f).testBit k := by
      intro k hk
      rw [Nat.add_comm, Nat.testBit_two_pow_mul_add (i := 6) hi (statusWord_lt f), if_pos (by omega)]
    rw [restoreFlags_congr g hlow, restoreFlags_statusWord]

/-! ### Reset (10_state R62) -/

/-- Every cell of the reset register files is 0. -/
theorem bankGet_zeroBank (i : CellIdx) : bankGet zeroBank i = 0 := by
  revert i; decide

theorem afterReset_getReg (s : State) (r : RegIdx) : getReg s.afterReset r = 0 := by
  rw [getReg]
  split <;> exact bankGet_zeroBank _

/-- Settles O58. -/
theorem resetValues : Obligations.ResetValues := by
  intro s
  have hlines : ∀ l < s.cfg.numIrq, (List.replicate s.cfg.numIrq false)[l]? = some false := by
    intro l hl
    simp [hl]
  exact ⟨s.afterReset, rfl, afterReset_getReg s, fun n => bankGet_zeroBank n, rfl, rfl, rfl, List.length_replicate,
    hlines, List.length_replicate, hlines, afterReset_exc_disabled s, rfl, rfl, rfl, rfl, rfl, rfl, rfl, rfl⟩

/-- Settles O14: the reference core of 00_scope R9, with no byte listed and nothing registered, clause by clause. -/
theorem resetMeetsInvariant : Obligations.ResetMeetsInvariant where
  mem_wf := rfl
  mem_inside := rfl
  pending_lines := List.length_replicate
  enabled_lines := List.length_replicate
  pending_enabled := rfl
  not_in_extension := DState.noConfusion
  idle_no_instance := fun _ => rfl
  range_free := by decide
  ext_in_range := rfl
  ext_once := List.nodup_nil
  syscall_once := List.nodup_nil

end Sys2Proof.Machine
end

section
/-!
PROOFS. The memory of 20_memory and what steps do to it: every step keeps the invariant (R80), big-endian bytes whatever
widths wrote them (R81, R83), the bounds check of an access and of a fetch (R84), the fetch of stored bytes (R108), and
the operand locations of the modes table (R91 to R98).
-/
namespace Sys2Proof.Machine

/-! ### Each phase of a step keeps the invariant -/

theorem inv_beginStep {s : State} (hs : s.Inv) : (beginStep s).Inv := { hs with }

/-- Routing makes an exception pending only of an enabled line (60_exceptions R413). -/
theorem inv_route {s : State} (hs : s.Inv) (r : Reason) : (route s r).Inv := by
  rcases route_cases s r with h | ⟨e, _, he, h⟩ <;> rw [h]
  · exact { hs with }
  · exact { hs with pending_enabled := he }

/-- A trap-entry fault consumes the pending exception and halts (60_exceptions R431, R434). -/
theorem inv_haltOnTrapFault {s : State} (hs : s.Inv) : (haltOnTrapFault (s.withExcPending none)).Inv :=
  { hs with pending_enabled := rfl }

/-- A boundary that goes on has no pending exception left, has written inside memory and cleared at most one bit. -/
theorem inv_stepBoundary_go {s u : State} (hs : s.Inv) (h : stepBoundary s = .go u) : u.Inv := by
  obtain ⟨hcfg, hsys, hext, hdstate, hinst, _, _, henabled, _, _, hexc, _, hwf, hinside, hpending⟩ :=
    stepBoundary_go_kept h
  have hlines : u.irqPending.length = s.irqPending.length := by
    rcases hpending with h | ⟨l, _, _, _, h⟩ <;> simp [h]
  exact {
    mem_wf := hwf hs.mem_wf
    mem_inside := by rw [hcfg]; exact hinside hs.mem_inside
    pending_lines := by rw [hlines, hcfg]; exact hs.pending_lines
    enabled_lines := by rw [henabled, hcfg]; exact hs.enabled_lines
    pending_enabled := by rw [hexc]; rfl
    not_in_extension := by rw [hdstate]; exact hs.not_in_extension
    idle_no_instance := by rw [hdstate, hinst]; exact hs.idle_no_instance
    range_free := by rw [hcfg]; exact hs.range_free
    ext_in_range := by rw [hcfg, hext]; exact hs.ext_in_range
    ext_once := by rw [hext]; exact hs.ext_once
    syscall_once := by rw [hsys]; exact hs.syscall_once }

/-- A decoder put out of Extension, and Idle only when it holds no extension (10_state R55, R56). -/
theorem inv_withDecoder {s : State} (hs : s.Inv) {d : DState} {i : Option ExtInstance} (hd : d ≠ .extension)
    (hi : d = .idle → i = none) : (s.withDecoder d i).Inv :=
  { hs with not_in_extension := hd, idle_no_instance := hi }

/-- A finished decode leaves the decoder Finished, which may still hold an extension (30_encoding R150). -/
theorem inv_afterDecode {u : State} (hu : u.Inv) (d : Decoded) : (afterDecode u d).Inv :=
  { inv_withDecoder (d := .finished) (i := d.inst) hu DState.noConfusion DState.noConfusion with }

/-- A failed decode leaves the decoder Idle, holding no extension (30_encoding R150). -/
theorem inv_decodeFailed {u : State} (hu : u.Inv) (e : DecodeError) : (decodeFailed u e).Inv :=
  inv_route (inv_withDecoder ((kept_withIp u _).inv hu) DState.noConfusion fun _ => rfl) (decodeReason e.reason)

/-- An execute phase, completed or faulted, keeps the invariant. -/
theorem inv_exec {i : Instr} {s t : State} (hs : s.Inv) (h : exec i s = .next t) : t.Inv := by
  rcases exec_next_cases h with hdone | ⟨r, rfl⟩ | ⟨x, rfl⟩
  · exact hdone.kept.inv hs
  · exact inv_route hs r
  · exact inv_route ((kept_countHostCall s).inv hs) _

/-- Settles O15, by cases on how a step ends: halted, a trap-entry fault, a failed decode, an execute phase. -/
theorem stepKeepsInvariant : Obligations.StepKeepsInvariant := by
  intro s t hs h
  have hbegin := inv_beginStep hs
  rcases step_next_cases h with ⟨_, rfl⟩ | ⟨_, hb⟩ | ⟨u, e, _, hb, _, rfl⟩ | ⟨u, d, _, hb, _, hx⟩
  · exact hbegin
  · rw [stepBoundary_halted_eq hb]
    exact inv_haltOnTrapFault hbegin
  · exact inv_decodeFailed (inv_stepBoundary_go hbegin hb) e
  · exact inv_exec (inv_afterDecode (inv_stepBoundary_go hbegin hb) d) hx

/-! ### Bytes of loads and stores (20_memory R81, R83) -/

theorem memReadBytes_getElem? (m : Memory) (a : Nat) {n k : Nat} (hk : k < n) :
    (memReadBytes m a n)[k]? = some (memRead m (a + k)) := by
  induction n generalizing a k with
  | zero => omega
  | succ n ih =>
    cases k with
    | zero => rfl
    | succ k => rw [memReadBytes, List.getElem?_cons_succ, ih (a + 1) (by omega), Nat.add_right_comm, Nat.add_assoc]

/-- A load of one byte is the byte as a number. -/
theorem memReadN_one (m : Memory) (a : Nat) : memReadN m a 1 = (memRead m a).toNat := by
  simp [memReadN, memReadBytes, fromBE]

/-- The bytes of a loaded number are the bytes it was loaded from. -/
theorem toBE_memReadN (m : Memory) (a n : Nat) : toBE n (memReadN m a n) = memReadBytes m a n := by
  simpa [memReadN] using toBE_fromBE (memReadBytes m a n)

/-- Byte `n - 1 - k` of a loaded number is the byte at `a + k`. -/
theorem memReadN_byte (m : Memory) (a : Nat) {n k : Nat} (hk : k < n) :
    memReadN m a n / 2 ^ (8 * (n - 1 - k)) % 256 = (memRead m (a + k)).toNat := by
  have hbyte := toBE_getElem? n (memReadN m a n) k hk
  rw [toBE_memReadN, memReadBytes_getElem? m a hk, pow256, Option.some.injEq] at hbyte
  rw [hbyte, BitVec.toNat_ofNat]

/-- The byte at `a + k` after a store is byte `n - 1 - k` of the value. -/
theorem memRead_memWriteN_same {m : Memory} (h : Memory.wf m = true) (a v : Nat) {n k : Nat} (hk : k < n) :
    memRead (memWriteN m a n v) (a + k) = BitVec.ofNat 8 (v / 2 ^ (8 * (n - 1 - k))) := by
  have hread := memRead_memWriteBytes_same h a (toBE n v) k (by simpa using hk)
  rw [toBE_getElem? n v k hk, pow256, Option.some.injEq] at hread
  exact hread.symm

/-- Settles O19: the byte equations of a store and of a load, and `memory_ext`. -/
theorem memoryIsBigEndian : Obligations.MemoryIsBigEndian := by
  refine ⟨fun m a n v h => ⟨memWriteN_wf h a n v, ?_, fun k hk => memRead_memWriteN_same h a v hk, fun k hk => ?_,
    memRead_memWriteN_other h a n v⟩, fun m a n => ⟨?_, fun k hk => memReadN_byte m a hk⟩, fun m m' => memory_ext⟩
  · rw [memReadN_memWriteN h, pow256]
  · rw [memReadN_one, memRead_memWriteN_same h a v hk, BitVec.toNat_ofNat]
  · rw [← pow256]
    exact memReadN_lt m a n

/-! ### Fetches (20_memory R84, R108) -/

/-- A fetch whose address is in memory reads the byte there. -/
theorem fetchByte_inside {s : State} {k : Nat} (h : (s.ip + BitVec.ofNat 64 k).toNat < s.cfg.memSize) :
    fetchByte s k = some (memRead s.mem (s.ip + BitVec.ofNat 64 k).toNat) :=
  if_pos ((inBounds_iff s _ 1).2 h)

/-- A fetch whose address is outside memory reads no byte. -/
theorem fetchByte_outside {s : State} {k : Nat} (h : s.cfg.memSize ≤ (s.ip + BitVec.ofNat 64 k).toNat) :
    fetchByte s k = none :=
  if_neg fun hb => absurd ((inBounds_iff s _ 1).1 hb) (by omega)

/-- The address of byte `k` of an instruction wraps modulo `2^64` (10_state R38). -/
theorem fetchAddr_toNat (ip : Word) (k : Nat) : (ip + BitVec.ofNat 64 k).toNat = (ip.toNat + k) % 2 ^ 64 := by
  rw [BitVec.toNat_add, BitVec.toNat_ofNat, Nat.add_mod_mod]

/-- Settles O21: a completed store was in bounds, and so is a fetch of any byte of it. -/
theorem fetchSeesStores : Obligations.FetchSeesStores := by
  intro s t a n v k j hwf hstore hj haddr
  obtain ⟨hb, rfl⟩ := writeMem_eq_ok.1 hstore
  have hsize := (inBounds_iff s _ n).1 hb
  rw [fetchByte_inside (by rw [haddr, withMem_cfg]; omega), haddr, withMem_mem, memRead_memWriteN_same hwf _ v hj]

/-- Settles O20. -/
theorem boundsCheck : Obligations.BoundsCheck := by
  refine ⟨fun s a n v => ⟨fun h => ?_, fun h => ?_⟩, fun s k => ?_⟩
  · have hb := (inBounds_iff s a.toNat n).2 h
    exact ⟨readMem_eq_ok.2 ⟨hb, rfl⟩, writeMem_eq_ok.2 ⟨hb, rfl⟩⟩
  · have hb : inBounds s a.toNat n = false := by simpa [inBounds] using h
    have hwrite : writeMem s a n v = .error (.raise .memoryOutOfBounds) := writeMem_eq_error.2 ⟨hb, rfl⟩
    exact ⟨readMem_eq_error.2 ⟨hb, rfl⟩, hwrite, route s .memoryOutOfBounds, by rw [hwrite, finish_raise],
      faulted_route s _⟩
  · rw [← fetchAddr_toNat]
    exact ⟨fetchByte_inside, fetchByte_outside⟩

/-! ### Operand locations (20_memory R91 to R98) -/

/-- The whole index register is shifted, and the sum wraps modulo `2^64` (20_memory R97). -/
theorem relAddr_toNat (s : State) (base : CellIdx) (idx : RegIdx) (sh : BitVec 3) :
    (relAddr s base idx sh).toNat =
      ((bankGet s.regs.a base).toNat + (getReg s idx).toNat * 2 ^ sh.toNat % 2 ^ 64) % 2 ^ 64 := by
  rw [relAddr, getAddr, BitVec.toNat_add, BitVec.toNat_shiftLeft, Nat.shiftLeft_eq]

/-- An effective address is made of registers and payload alone (20_memory R98). -/
theorem effAddr_withMem (s : State) (m : Memory) (o : Operand) : effAddr (s.withMem m) o = effAddr s o := by
  cases o <;> rfl

/-- Settles O22: each mode by its row of the modes table, RegisterRelative by `relAddr_toNat`. -/
theorem operandLocations : Obligations.OperandLocations := fun s _ n idx sh _ =>
  ⟨rfl, rfl, rfl, rfl, rfl, rfl, rfl, rfl, rfl, rfl, effAddr_withMem s, relAddr s n idx sh, rfl, rfl,
    relAddr_toNat s n idx sh⟩

end Sys2Proof.Machine
end

section
/-!
PROOFS. The encoding of 30_encoding: a decode finishes with a base instruction exactly when the fetched bytes are the
encoding of that instruction and it is well-formed (`decodeBase_ok_reads`, `decodeBase_of_reads`), from which both round
trips and the length bounds follow; what the header and a descriptor byte refuse (R135, R150, R151).
-/
namespace Sys2Proof

theorem bind_eq_ok {ε α β : Type} {x : Except ε α} {g : α → Except ε β} {b : β} :
    x >>= g = .ok b ↔ ∃ a, x = .ok a ∧ g a = .ok b := by
  cases x <;> simp [bind, Except.bind]

/-! ### Bytes that a fetch holds -/

/-- `f` reads the bytes `bs` from position `k` on. -/
def Spells (f : Fetch) (k : Nat) (bs : List Byte) : Prop := ∀ j < bs.length, f (k + j) = bs[j]?

theorem spells_cons {f : Fetch} {k : Nat} {b : Byte} {bs : List Byte} :
    Spells f k (b :: bs) ↔ f k = some b ∧ Spells f (k + 1) bs := by
  constructor
  · intro h
    refine ⟨h 0 (Nat.succ_pos _), fun j hj => ?_⟩
    rw [Nat.add_right_comm]
    exact h (j + 1) (Nat.succ_lt_succ hj)
  · rintro ⟨h0, h⟩ (_ | j) hj
    · exact h0
    · rw [← Nat.add_assoc, Nat.add_right_comm]
      exact h j (Nat.lt_of_succ_lt_succ hj)

theorem spells_append {f : Fetch} {k : Nat} {bs cs : List Byte} :
    Spells f k (bs ++ cs) ↔ Spells f k bs ∧ Spells f (k + bs.length) cs := by
  induction bs generalizing k with
  | nil => simp [Spells]
  | cons b bs ih =>
    rw [List.cons_append, spells_cons, spells_cons, ih, and_assoc, List.length_cons, Nat.add_right_comm, Nat.add_assoc]

theorem spells_zero_iff {f : Fetch} {bs : List Byte} :
    Spells f 0 bs ↔ ∀ (k : Nat) (b : Byte), bs[k]? = some b → f k = some b := by
  constructor
  · intro h k b hk
    have hlt : k < bs.length := (List.getElem?_eq_some_iff.1 hk).1
    rw [← hk, ← h k hlt, Nat.zero_add]
  · intro h j hj
    rw [Nat.zero_add, h j bs[j] (List.getElem?_eq_getElem hj), List.getElem?_eq_getElem hj]

/-! ### Descriptors and payloads -/

theorem decodeDescriptor_eq_ok {f : Fetch} {k : Nat} {role : Role} {cr : Bool} {d : Descriptor} :
    decodeDescriptor f k role cr = .ok d ↔
      f k = some (descriptorByte d) ∧ isControl d = cr ∧ roleAdmits role d = true := by
  rw [decodeDescriptor, bind_eq_ok]
  simp only [fetchNext_eq_ok]
  constructor
  · rintro ⟨b, hb, hd⟩
    cases hc : checkDescriptor b role cr with
    | none => simp [hc] at hd
    | some d' =>
      obtain ⟨rfl, hcr, hadm⟩ := checkDescriptor_iff_byte.1 hc
      obtain rfl : d' = d := by simpa [hc, pure, Except.pure] using hd
      exact ⟨hb, hcr, hadm⟩
  · rintro ⟨hb, hcr, hadm⟩
    refine ⟨descriptorByte d, hb, ?_⟩
    rw [checkDescriptor_iff_byte.2 ⟨rfl, hcr, hadm⟩]
    rfl

theorem decodePayload_eq_ok {f : Fetch} {sz : Size} {d : Descriptor} {k : Nat} {o : Operand} :
    decodePayload f sz d k = .ok o ↔ o.desc = d ∧ o.fits sz = true ∧ Spells f k (payloadBytes sz o) := by
  constructor
  · exact decodePayload_ok
  · rintro ⟨rfl, hfits, hs⟩
    exact decodePayload_of_bytes hfits hs

/-! ### The three formats (30_encoding R121) -/

theorem Operand.wf_iff {sz : Size} {role : Role} {cr : Bool} {o : Operand} :
    o.wf sz role cr = true ↔
      roleAdmits role o.desc = true ∧ o.fits sz = true ∧ (isControl o.desc = true → cr = true) := by
  rw [Operand.wf]
  cases isControl o.desc <;> simp [and_assoc]

theorem Parts.wf_u_iff {c : UClass} {sz : Size} {d : Operand} :
    (Parts.u c sz d).wf = true ↔
      d.wf sz (unaryRole c) false = true ∧ ¬ (unaryRole c = .offset8 ∧ sz ≠ .byte) := by
  simp [Parts.wf, imp_iff_not_or]

theorem Parts.wf_b_iff {c : BClass} {sz : Size} {d s : Operand} :
    (Parts.b c sz d s).wf = true ↔
      d.wf sz (dstRole c) (c == .mov) = true ∧ s.wf sz (srcRole c) (c == .mov) = true := by
  simp [Parts.wf]

theorem encode_z (c : ZClass) (sz : Size) :
    encode (Parts.z c sz).instr = [opcodeByte (.z c), sizeFlagsByte sz false false] := by
  simp [encode]

theorem encode_u (c : UClass) (sz : Size) (d : Operand) :
    encode (Parts.u c sz d).instr =
      opcodeByte (.u c) :: sizeFlagsByte sz false false :: descriptorByte d.desc :: payloadBytes sz d := by
  simp [encode]

theorem encode_b (c : BClass) (sz : Size) (d s : Operand) :
    encode (Parts.b c sz d s).instr =
      opcodeByte (.b c) :: sizeFlagsByte sz (isControl d.desc) (isControl s.desc) :: descriptorByte d.desc ::
        descriptorByte s.desc :: (payloadBytes sz d ++ payloadBytes sz s) := by
  simp [encode]

/-- Format U finishes exactly on a well-formed operand's descriptor byte and payload. -/
theorem decodeU_eq_ok {f : Fetch} {c : UClass} {sz : Size} {r : Decoded} :
    decodeU f c sz = .ok r ↔ ∃ d, (Parts.u c sz d).wf = true ∧
      Spells f 2 (descriptorByte d.desc :: payloadBytes sz d) ∧
      r = ⟨(Parts.u c sz d).instr, (encode (Parts.u c sz d).instr).length, none⟩ := by
  have hlen (d : Operand) : (encode (Parts.u c sz d).instr).length = 3 + payloadLength sz d.desc := by
    simp only [encode_u, List.length_cons, payloadBytes_length]
    omega
  simp only [Parts.wf_u_iff, Operand.wf_iff, spells_cons, hlen]
  rw [decodeU]
  split_ifs with h8
  · simp [h8]
  · simp only [bind_eq_ok, decodeDescriptor_eq_ok, decodePayload_eq_ok, pure, Except.pure, Except.ok.injEq]
    constructor
    · rintro ⟨_, ⟨hb, hcr, hadm⟩, d, ⟨rfl, hfits, hpay⟩, rfl⟩
      exact ⟨d, ⟨⟨hadm, hfits, by simp [hcr]⟩, h8⟩, ⟨hb, hpay⟩, rfl⟩
    · rintro ⟨d, ⟨⟨hadm, hfits, hcr⟩, -⟩, ⟨hb, hpay⟩, rfl⟩
      exact ⟨d.desc, ⟨hb, by simpa using hcr, hadm⟩, d, ⟨rfl, hfits, hpay⟩, rfl⟩

/-- Format B finishes exactly on the descriptor bytes and payloads of well-formed operands that name control registers
where byte 1 says so. -/
theorem decodeB_eq_ok {f : Fetch} {c : BClass} {sz : Size} {dcr scr : Bool} {r : Decoded}
    (hmov : (dcr || scr) = true → c = .mov) :
    decodeB f c sz dcr scr = .ok r ↔ ∃ d s, (Parts.b c sz d s).wf = true ∧
      isControl d.desc = dcr ∧ isControl s.desc = scr ∧
      Spells f 2 (descriptorByte d.desc :: descriptorByte s.desc :: (payloadBytes sz d ++ payloadBytes sz s)) ∧
      r = ⟨(Parts.b c sz d s).instr, (encode (Parts.b c sz d s).instr).length, none⟩ := by
  have hlen (d s : Operand) : (encode (Parts.b c sz d s).instr).length =
      4 + payloadLength sz d.desc + payloadLength sz s.desc := by
    simp only [encode_b, List.length_cons, List.length_append, payloadBytes_length]
    omega
  simp only [decodeB, Parts.wf_b_iff, Operand.wf_iff, spells_cons, spells_append, payloadBytes_length, hlen, bind_eq_ok,
    decodeDescriptor_eq_ok, decodePayload_eq_ok, pure, Except.pure, Except.ok.injEq]
  constructor
  · rintro ⟨_, ⟨hdb, hdcr, hdadm⟩, _, ⟨hsb, hscr, hsadm⟩, d, ⟨rfl, hdfits, hdpay⟩, s, ⟨rfl, hsfits, hspay⟩, rfl⟩
    refine ⟨d, s, ⟨⟨hdadm, hdfits, fun h => ?_⟩, hsadm, hsfits, fun h => ?_⟩, hdcr, hscr,
      ⟨hdb, hsb, hdpay, hspay⟩, rfl⟩
    · exact beq_iff_eq.2 (hmov (by rw [← hdcr, h, Bool.true_or]))
    · exact beq_iff_eq.2 (hmov (by rw [← hscr, h, Bool.or_true]))
  · rintro ⟨d, s, ⟨⟨hdadm, hdfits, -⟩, hsadm, hsfits, -⟩, hdcr, hscr, ⟨hdb, hsb, hdpay, hspay⟩, rfl⟩
    exact ⟨d.desc, ⟨hdb, hdcr, hdadm⟩, s.desc, ⟨hsb, hscr, hsadm⟩, d, ⟨rfl, hdfits, hdpay⟩, s, ⟨rfl, hsfits, hspay⟩,
      rfl⟩

/-! ### The decode of a base instruction -/

/-- `d` is a well-formed base instruction whose encoding is what `f` reads, with the length of that encoding. -/
structure Decoded.Reads (d : Decoded) (f : Fetch) : Prop where
  base : d.instr.isBase = true
  wf : d.instr.wf = true
  spelled : Spells f 0 (encode d.instr)
  length : d.length = (encode d.instr).length
  inst : d.inst = none

theorem Parts.instr_isBase {p : Parts} (hp : ∀ op n, p ≠ .x op n) : p.instr.isBase = true := by
  simpa [Instr.isBase_iff] using hp

theorem Parts.instr_wf (p : Parts) : p.instr.wf = p.wf := by rw [Instr.wf, Parts.instr_parts]

/-- Past byte 0 a finished base decode read the encoding of what it finished with. -/
theorem decodeBase_ok_reads {f : Fetch} {c : OpClass} {r : Decoded} (h0 : f 0 = some (opcodeByte c))
    (h : decodeBase f c = .ok r) : r.Reads f := by
  obtain ⟨sz, dcr, scr, h1, hmov⟩ := decodeBase_ok_header h
  rw [decodeBase_header h1 hmov] at h
  cases c with
  | z c =>
    obtain ⟨rfl, rfl⟩ : dcr = false ∧ scr = false := by simpa using hmov
    cases h
    have hs : Spells f 0 (encode (Parts.z c sz).instr) := by
      rw [encode_z, spells_cons, spells_cons]
      exact ⟨h0, h1, by simp [Spells]⟩
    exact ⟨Parts.instr_isBase (by simp), Parts.instr_wf _, hs, by rw [encode_z]; rfl, rfl⟩
  | u c =>
    obtain ⟨rfl, rfl⟩ : dcr = false ∧ scr = false := by simpa using hmov
    obtain ⟨d, hwf, htail, rfl⟩ := decodeU_eq_ok.1 h
    have hs : Spells f 0 (encode (Parts.u c sz d).instr) := by
      rw [encode_u, spells_cons, spells_cons]
      exact ⟨h0, h1, htail⟩
    exact ⟨Parts.instr_isBase (by simp), (Parts.instr_wf _).trans hwf, hs, rfl, rfl⟩
  | b c =>
    obtain ⟨d, s, hwf, rfl, rfl, htail, rfl⟩ := (decodeB_eq_ok (by simpa using hmov)).1 h
    have hs : Spells f 0 (encode (Parts.b c sz d s).instr) := by
      rw [encode_b, spells_cons, spells_cons]
      exact ⟨h0, h1, htail⟩
    exact ⟨Parts.instr_isBase (by simp), (Parts.instr_wf _).trans hwf, hs, rfl, rfl⟩

/-- A well-formed instruction of format B names control registers only if it is MOV (30_encoding R123). -/
theorem Parts.mov_of_wf_control {c : BClass} {sz : Size} {d s : Operand} (hwf : (Parts.b c sz d s).wf = true)
    (hcr : (isControl d.desc || isControl s.desc) = true) : c = .mov := by
  obtain ⟨hd, hs⟩ := Parts.wf_b_iff.1 hwf
  obtain ⟨-, -, hd⟩ := Operand.wf_iff.1 hd
  obtain ⟨-, -, hs⟩ := Operand.wf_iff.1 hs
  exact eq_of_beq ((Bool.or_eq_true_iff.1 hcr).elim hd hs)

/-- The bytes of a well-formed base instruction, whose byte 0 is that of `c`, decode to it. -/
theorem decodeBase_of_reads {f : Fetch} {c : OpClass} {r : Decoded} (h0 : f 0 = some (opcodeByte c))
    (h : r.Reads f) : decodeBase f c = .ok r := by
  obtain ⟨i, n, inst⟩ := r
  obtain ⟨p, rfl⟩ : ∃ p : Parts, i = p.instr := ⟨i.parts, (Instr.parts_instr i).symm⟩
  obtain ⟨hbase, hwf, hs, hlen, hinst⟩ := h
  dsimp only at hbase hwf hs hlen hinst
  subst hlen hinst
  rw [Parts.instr_wf] at hwf
  cases p with
  | z c' sz =>
    rw [encode_z, spells_cons, spells_cons] at hs
    obtain ⟨hop, h1, -⟩ := hs
    obtain rfl := opcodeByte_inj (Option.some.inj (h0.symm.trans hop))
    rw [decodeBase_header h1 (by simp), encode_z]
    rfl
  | u c' sz d =>
    rw [encode_u, spells_cons, spells_cons] at hs
    obtain ⟨hop, h1, htail⟩ := hs
    obtain rfl := opcodeByte_inj (Option.some.inj (h0.symm.trans hop))
    rw [decodeBase_header h1 (by simp)]
    exact decodeU_eq_ok.2 ⟨d, hwf, htail, rfl⟩
  | b c' sz d s =>
    rw [encode_b, spells_cons, spells_cons] at hs
    obtain ⟨hop, h1, htail⟩ := hs
    obtain rfl := opcodeByte_inj (Option.some.inj (h0.symm.trans hop))
    have hmov := Parts.mov_of_wf_control hwf
    rw [decodeBase_header h1 (by simpa using hmov)]
    exact (decodeB_eq_ok hmov).2 ⟨d, s, hwf, rfl, rfl, htail, rfl⟩
  | x op n => cases hbase

/-! ### Byte 0 (30_encoding R150) -/

section
variable {extRange : List Byte} {exts : List ExtEntry} {f : Fetch} {op : Byte}

theorem decode_of_absent (h0 : f 0 = none) : decode extRange exts f = .error ⟨.memoryOutOfBounds, 1⟩ := by
  rw [decode, fetchNext_eq_error.2 ⟨h0, rfl⟩]
  rfl

theorem decode_of_unregistered (h0 : f 0 = some op) (hr : extRange.contains op = true)
    (he : findExtension exts op = none) : decode extRange exts f = .error ⟨.unknownExtension, 1⟩ := by
  simp only [decode, fetchNext_eq_ok.2 h0, hr, he, bind, Except.bind, if_true]

theorem decode_of_extension {e : ExtEntry} (h0 : f 0 = some op) (hr : extRange.contains op = true)
    (he : findExtension exts op = some e) : decode extRange exts f = runExt f op e.decoder 1 := by
  simp only [decode, fetchNext_eq_ok.2 h0, hr, he, bind, Except.bind, if_true]

theorem decode_of_noClass (h0 : f 0 = some op) (hr : extRange.contains op = false) (hc : opClassOf op = none) :
    decode extRange exts f = .error ⟨.unknownOpcode, 1⟩ := by
  simp only [decode, fetchNext_eq_ok.2 h0, hr, hc, bind, Except.bind, Bool.false_eq_true, if_false]

theorem decode_of_class {c : OpClass} (h0 : f 0 = some (opcodeByte c))
    (hr : extRange.contains (opcodeByte c) = false) : decode extRange exts f = decodeBase f c := by
  simp only [decode, fetchNext_eq_ok.2 h0, hr, opClassOf_opcodeByte, bind, Except.bind, Bool.false_eq_true, if_false]

end

/-- A decode is refused at byte 0, is a registered extension's, or is that of the class of byte 0. -/
theorem decode_cases (extRange : List Byte) (exts : List ExtEntry) (f : Fetch) :
    (∃ reason, decode extRange exts f = .error ⟨reason, 1⟩) ∨
    (∃ op e, decode extRange exts f = runExt f op (ExtEntry.decoder e) 1) ∨
    ∃ c, f 0 = some (opcodeByte c) ∧ decode extRange exts f = decodeBase f c := by
  cases h0 : f 0 with
  | none => exact .inl ⟨_, decode_of_absent h0⟩
  | some op =>
    cases hr : extRange.contains op with
    | true =>
      cases he : findExtension exts op with
      | none => exact .inl ⟨_, decode_of_unregistered h0 hr he⟩
      | some e => exact .inr (.inl ⟨op, e, decode_of_extension h0 hr he⟩)
    | false =>
      cases hc : opClassOf op with
      | none => exact .inl ⟨_, decode_of_noClass h0 hr hc⟩
      | some c =>
        obtain rfl := opClassOf_eq_some.1 hc
        exact .inr (.inr ⟨c, rfl, decode_of_class h0 hr⟩)

/-- A finished decode of a base instruction read the encoding of that instruction. -/
theorem decode_ok_reads {extRange : List Byte} {exts : List ExtEntry} {f : Fetch} {d : Decoded}
    (h : decode extRange exts f = .ok d) (hbase : d.instr.isBase = true) : d.Reads f := by
  obtain ⟨_, hd⟩ | ⟨op, e, hd⟩ | ⟨c, h0, hd⟩ := decode_cases extRange exts f
  · rw [hd] at h
    cases h
  · obtain ⟨⟨n, hn⟩, -⟩ := runExt_ok (hd.symm.trans h)
    rw [hn] at hbase
    cases hbase
  · exact decodeBase_ok_reads h0 (hd.symm.trans h)

/-! ### The round trips -/

/-- Byte 0 of a base instruction is a class byte (30_encoding R120, R131). -/
theorem encode_head {i : Instr} (h : i.isBase = true) : ∃ c, (encode i)[0]? = some (opcodeByte c) := by
  rw [Instr.isBase_iff] at h
  rw [encode]
  cases hp : i.parts with
  | z c sz => exact ⟨_, rfl⟩
  | u c sz d => exact ⟨_, rfl⟩
  | b c sz d s => exact ⟨_, rfl⟩
  | x op n => exact absurd hp (h op n)

/-- Settles O2: byte 0 leads to the class's decode, which finishes with what the bytes encode. -/
theorem decodeOfEncode : Obligations.DecodeOfEncode := by
  intro extRange exts f i hfree hwf hbase hf
  obtain ⟨c, hc⟩ := encode_head hbase
  have h0 : f 0 = some (opcodeByte c) := hf 0 _ hc
  have hr : extRange.contains (opcodeByte c) = false := by
    simpa using List.all_eq_true.1 hfree c (mem_opClasses c)
  rw [decode_of_class h0 hr]
  exact decodeBase_of_reads h0 ⟨hbase, hwf, spells_zero_iff.2 hf, rfl, rfl⟩

/-- Settles O3. -/
theorem encodeOfDecode : Obligations.EncodeOfDecode := by
  intro extRange exts f d h hbase
  have hreads := decode_ok_reads h hbase
  refine ⟨hreads.length.symm, fun k hk => ?_⟩
  rw [hreads.length] at hk
  simpa using hreads.spelled k hk

theorem decodesTo_of_encode {bs : List Byte} {i : Instr} (h : i.wf = true ∧ i.isBase = true ∧ encode i = bs) :
    Machine.decodesTo bs i := by
  obtain ⟨hwf, hbase, rfl⟩ := h
  exact decodeOfEncode _ _ _ i (by decide) hwf hbase fun _ _ hk => hk

/-- Settles O1: each of the nine byte strings is the encoding of its instruction. -/
theorem wordsDecodeAsWritten : Obligations.WordsDecodeAsWritten :=
  ⟨decodesTo_of_encode (by decide), decodesTo_of_encode (by decide), decodesTo_of_encode (by decide),
    decodesTo_of_encode (by decide), decodesTo_of_encode (by decide), decodesTo_of_encode (by decide),
    decodesTo_of_encode (by decide), decodesTo_of_encode (by decide), decodesTo_of_encode (by decide)⟩

/-! ### Lengths (30_encoding R130, R150) -/

/-- A base instruction is 2 to 20 bytes long (30_encoding R130). -/
theorem encode_length_bounds {i : Instr} (h : i.isBase = true) : 2 ≤ (encode i).length ∧ (encode i).length ≤ 20 := by
  rw [Instr.isBase_iff] at h
  rw [encode]
  cases hp : i.parts with
  | z c sz => simp
  | u c sz d =>
    have hd := payloadLength_le sz d.desc
    simp only [List.length_cons, payloadBytes_length]
    omega
  | b c sz d s =>
    have hd := payloadLength_le sz d.desc
    have hs := payloadLength_le sz s.desc
    simp only [List.length_cons, List.length_append, payloadBytes_length]
    omega
  | x op n => exact absurd hp (h op n)

/-- A failure of `x` has consumed at least one byte. -/
def FailureConsumes {α : Type} (x : Except DecodeError α) : Prop := ∀ e, x = .error e → 1 ≤ e.consumed

theorem failureConsumes_ok {α : Type} (a : α) : FailureConsumes (.ok a) := fun _ h => nomatch h

theorem failureConsumes_error {α : Type} (reason : DecodeReason) (k : Nat) :
    FailureConsumes (α := α) (.error ⟨reason, k + 1⟩) := by
  rintro _ ⟨⟩
  exact Nat.succ_pos k

theorem FailureConsumes.bind {α β : Type} {x : Except DecodeError α} {g : α → Except DecodeError β}
    (hx : FailureConsumes x) (hg : ∀ a, FailureConsumes (g a)) : FailureConsumes (x >>= g) := by
  cases x with
  | ok a => exact hg a
  | error e => exact fun e' h => hx e' (by cases h; rfl)

theorem failureConsumes_fetchNext (f : Fetch) (k : Nat) : FailureConsumes (fetchNext f k) := by
  intro e h
  obtain ⟨-, rfl⟩ := fetchNext_eq_error.1 h
  exact Nat.succ_pos k

theorem failureConsumes_decodePayload (f : Fetch) (sz : Size) (d : Descriptor) (k : Nat) :
    FailureConsumes (decodePayload f sz d k) :=
  fun _ h => Nat.one_le_of_lt (decodePayload_error h)

theorem failureConsumes_decodeDescriptor (f : Fetch) (k : Nat) (role : Role) (cr : Bool) :
    FailureConsumes (decodeDescriptor f k role cr) := by
  refine (failureConsumes_fetchNext f k).bind fun b => ?_
  cases checkDescriptor b role cr with
  | none => exact failureConsumes_error _ k
  | some d => exact failureConsumes_ok d

theorem failureConsumes_decodeU (f : Fetch) (c : UClass) (sz : Size) : FailureConsumes (decodeU f c sz) := by
  rw [decodeU]
  split_ifs
  · exact failureConsumes_error _ 1
  · exact (failureConsumes_decodeDescriptor f 2 _ _).bind fun dd =>
      (failureConsumes_decodePayload f sz dd 3).bind fun _ => failureConsumes_ok _

theorem failureConsumes_decodeB (f : Fetch) (c : BClass) (sz : Size) (dcr scr : Bool) :
    FailureConsumes (decodeB f c sz dcr scr) :=
  (failureConsumes_decodeDescriptor f 2 _ _).bind fun dd => (failureConsumes_decodeDescriptor f 3 _ _).bind fun sd =>
    (failureConsumes_decodePayload f sz dd _).bind fun _ => (failureConsumes_decodePayload f sz sd _).bind fun _ =>
      failureConsumes_ok _

theorem failureConsumes_decodeBase (f : Fetch) (c : OpClass) : FailureConsumes (decodeBase f c) := by
  refine (failureConsumes_fetchNext f 1).bind fun b => ?_
  dsimp only
  split_ifs
  · exact failureConsumes_error _ 1
  · exact failureConsumes_error _ 1
  · cases c with
    | z c => exact failureConsumes_ok _
    | u c => exact failureConsumes_decodeU f c _
    | b c => exact failureConsumes_decodeB f c _ _ _

theorem failureConsumes_decode (extRange : List Byte) (exts : List ExtEntry) (f : Fetch) :
    FailureConsumes (decode extRange exts f) := by
  obtain ⟨reason, hd⟩ | ⟨op, e, hd⟩ | ⟨c, -, hd⟩ := decode_cases extRange exts f <;> rw [hd]
  · exact failureConsumes_error reason 0
  · exact fun _ => runExt_error le_rfl
  · exact failureConsumes_decodeBase f c

/-- Settles O4: a base decode `Reads` its encoding, an extension's reaches byte 0, and no failure stands before it. -/
theorem decodedIsWellFormed : Obligations.DecodedIsWellFormed := by
  refine fun extRange exts f => ⟨fun d h => ?_, failureConsumes_decode extRange exts f⟩
  by_cases hbase : d.instr.isBase = true
  · have hreads := decode_ok_reads h hbase
    have hbounds := encode_length_bounds hbase
    rw [← hreads.length] at hbounds
    exact ⟨hreads.wf, Nat.one_le_of_lt hbounds.1, fun _ => ⟨hbounds.1, hbounds.2, hreads.inst⟩⟩
  · obtain ⟨_, hd⟩ | ⟨op, e, hd⟩ | ⟨c, h0, hd⟩ := decode_cases extRange exts f <;> rw [hd] at h
    · cases h
    · obtain ⟨⟨n, hn⟩, hlen⟩ := runExt_ok h
      exact ⟨by rw [hn]; rfl, hlen, fun hb => absurd hb hbase⟩
    · exact absurd (decodeBase_ok_reads h0 h).base hbase

/-! ### Refusals of byte 1 and of descriptor bytes (30_encoding R135, R150, R151) -/

section
variable {f : Fetch} {b : Byte}

theorem decodeBase_of_absent (c : OpClass) (h1 : f 1 = none) : decodeBase f c = .error ⟨.memoryOutOfBounds, 2⟩ := by
  rw [decodeBase, fetchNext_eq_error.2 ⟨h1, rfl⟩]
  rfl

theorem decodeBase_of_reserved (c : OpClass) (h1 : f 1 = some b) (hb : b.extractLsb' 2 4 ≠ 0) :
    decodeBase f c = .error ⟨.reservedBits, 2⟩ := by
  simp only [decodeBase, fetchNext_eq_ok.2 h1, bind, Except.bind, if_pos hb]

theorem decodeBase_of_controlFlag {c : OpClass} (h1 : f 1 = some b) (hb : b.extractLsb' 2 4 = 0)
    (hcr : b.getLsbD 7 = true ∨ b.getLsbD 6 = true) (hc : c ≠ .b .mov) :
    decodeBase f c = .error ⟨.invalidAddressing, 2⟩ := by
  simp only [decodeBase, fetchNext_eq_ok.2 h1, bind, Except.bind, hb, ne_eq, not_true_eq_false, if_false,
    if_pos (And.intro (Bool.or_eq_true_iff.2 hcr) hc)]

theorem unaryRole_of_branch {c : UClass} (hc : c ∈ [.beq, .bne, .bcs, .bcc, .bvs, .bvc]) : unaryRole c = .offset8 := by
  revert c
  decide

/-- A branch of another size than Byte is refused whatever its flags are (30_encoding R133, R123). -/
theorem decodeBase_of_branchSize {c : UClass} (h1 : f 1 = some b) (hb : b.extractLsb' 2 4 = 0)
    (hc : unaryRole c = .offset8) (hsz : b.extractLsb' 0 2 ≠ 0) :
    decodeBase f (.u c) = .error ⟨.invalidAddressing, 2⟩ := by
  by_cases hcr : b.getLsbD 7 = true ∨ b.getLsbD 6 = true
  · exact decodeBase_of_controlFlag h1 hb hcr (by simp)
  · obtain ⟨h7, h6⟩ : b.getLsbD 7 = false ∧ b.getLsbD 6 = false := by simpa using hcr
    have hbyte : sizeOf2 (b.extractLsb' 0 2) ≠ .byte := fun h => hsz <| by
      rw [← sizeCode_sizeOf2 (b.extractLsb' 0 2), h]
      rfl
    have hfields := sizeFlagsByte_fields hb
    rw [h7, h6] at hfields
    rw [decodeBase_header (f := f) (c := .u c) (h1.trans (congrArg some hfields.symm)) (by simp)]
    exact if_pos ⟨hc, hbyte⟩

end

/-- Settles O5. -/
theorem headerRefusals : Obligations.HeaderRefusals := by
  refine fun extRange exts f => ⟨decode_of_absent, fun op h0 hr he => ?_, fun op h0 hr hc => ?_, fun c h0 hr => ?_,
    fun c b hc h0 hr h1 hb hsz => ?_⟩
  · exact decode_of_unregistered h0 hr (findExtension_eq_none.2 he)
  · exact decode_of_noClass h0 hr (opClassOf_eq_none.2 hc)
  · rw [decode_of_class h0 hr]
    exact ⟨decodeBase_of_absent c, fun b => decodeBase_of_reserved c, fun b => decodeBase_of_controlFlag⟩
  · rw [decode_of_class h0 hr]
    exact decodeBase_of_branchSize h1 hb (unaryRole_of_branch hc) hsz

/-! ### Descriptor bytes by mode code (30_encoding R125, R133, R151) -/

theorem modeNibble_toNat (b : Byte) : (b.extractLsb' 0 4).toNat = b.toNat % 16 := by
  simp [BitVec.extractLsb'_toNat]

theorem registerNibble_toNat (b : Byte) : (b.extractLsb' 4 4).toNat = b.toNat / 16 := by
  rw [BitVec.extractLsb'_toNat, Nat.shiftRight_eq_div_pow]
  have := b.isLt
  omega

theorem roleAdmits_imm_iff {role : Role} {r : RegIdx} :
    roleAdmits role (.imm r) = true ↔ role ≠ .write ∧ role ≠ .readWrite ∧ role ≠ .addrReg := by
  cases role <;> simp [roleAdmits]

theorem roleAdmits_reg_iff {role : Role} {r : RegIdx} :
    roleAdmits role (.reg r) = true ↔
      role ≠ .offset ∧ role ≠ .offset8 ∧ role ≠ .effAddr ∧ (role = .addrReg → 8 ≤ r.toNat) := by
  cases role <;> simp [roleAdmits]

/-- Whether a descriptor names memory: Absolute, Indirect or RegisterRelative (20_memory R91). -/
def Descriptor.inMemory : Descriptor → Bool
  | .abs _ | .ind _ | .rel _ => true
  | _ => false

theorem roleAdmits_inMemory_iff {role : Role} {d : Descriptor} (hd : d.inMemory = true) :
    roleAdmits role d = true ↔ role ≠ .count ∧ role ≠ .offset ∧ role ≠ .offset8 ∧ role ≠ .addrReg := by
  cases d with
  | imm | reg | creg => cases hd
  | abs | ind | rel => cases role <;> simp [roleAdmits]

theorem roleAdmits_creg {role : Role} (h : role = .read ∨ role = .write) (n : CellIdx) :
    roleAdmits role (.creg n) = true := by
  obtain rfl | rfl := h <;> rfl

theorem checkDescriptor_of_some {b : Byte} {role : Role} {cr : Bool} {d : Descriptor} (h : descriptorOf b cr = some d) :
    (checkDescriptor b role cr).isSome = true ↔ roleAdmits role d = true := by
  rw [checkDescriptor, h]
  cases hadm : roleAdmits role d <;> simp [hadm]

theorem checkDescriptor_of_none {b : Byte} {role : Role} {cr : Bool} (h : descriptorOf b cr = none) :
    (checkDescriptor b role cr).isSome = false := by
  rw [checkDescriptor, h]
  rfl

/-- With the control-register flag, MOV's roles accept CR0 to CR7 and nothing else. -/
theorem checkDescriptor_control {b : Byte} {role : Role} (hrole : role = .read ∨ role = .write) :
    (checkDescriptor b role true).isSome = true ↔ b.toNat % 16 = 3 ∧ 8 ≤ b.toNat / 16 := by
  have hmode : b.extractLsb' 0 4 = 3 ↔ b.toNat % 16 = 3 := by
    rw [← BitVec.toNat_inj, modeNibble_toNat]
    rfl
  by_cases h : b.toNat % 16 = 3 ∧ 8 ≤ b.toNat / 16
  · have hd : descriptorOf b true = some (.creg (upperCell (b.extractLsb' 4 4))) := by
      simp only [descriptorOf, hmode, registerNibble_toNat, h, and_self, if_true]
    rw [checkDescriptor_of_some hd, roleAdmits_creg hrole]
    exact iff_of_true rfl h
  · have hd : descriptorOf b true = none := by
      simp only [descriptorOf, hmode, registerNibble_toNat, h, if_true, if_false]
    rw [checkDescriptor_of_none hd]
    exact iff_of_false Bool.false_ne_true h

section
variable {b : Byte}

theorem descriptorOf_imm (h : b.toNat % 16 = 1) : descriptorOf b false = some (.imm (b.extractLsb' 4 4)) := by
  simp only [descriptorOf, modeNibble_toNat, h, Bool.false_eq_true, if_false]

theorem descriptorOf_abs (h : b.toNat % 16 = 2) : descriptorOf b false = some (.abs (b.extractLsb' 4 4)) := by
  simp only [descriptorOf, modeNibble_toNat, h, Bool.false_eq_true, if_false]

theorem descriptorOf_reg (h : b.toNat % 16 = 3) : descriptorOf b false = some (.reg (b.extractLsb' 4 4)) := by
  simp only [descriptorOf, modeNibble_toNat, h, Bool.false_eq_true, if_false]

theorem descriptorOf_ind (h : b.toNat % 16 = 4) : descriptorOf b false = some (.ind (b.extractLsb' 4 4)) := by
  simp only [descriptorOf, modeNibble_toNat, h, Bool.false_eq_true, if_false]

theorem descriptorOf_rel (h : b.toNat % 16 = 5) (hbase : 8 ≤ b.toNat / 16) :
    descriptorOf b false = some (.rel (upperCell (b.extractLsb' 4 4))) := by
  simp only [descriptorOf, modeNibble_toNat, registerNibble_toNat, h, hbase, Bool.false_eq_true, if_false, if_true]

theorem descriptorOf_rel_dataRegister (h : b.toNat % 16 = 5) (hbase : b.toNat / 16 < 8) :
    descriptorOf b false = none := by
  simp only [descriptorOf, modeNibble_toNat, registerNibble_toNat, h, Nat.not_le.2 hbase, Bool.false_eq_true, if_false]

theorem descriptorOf_illegalMode (h : b.toNat % 16 = 0 ∨ 5 < b.toNat % 16) : descriptorOf b false = none := by
  simp only [descriptorOf, modeNibble_toNat, Bool.false_eq_true, if_false]
  split
  case h_6 => rfl
  all_goals omega

end

/-- Settles O6, by the control-register flag and then by mode code. -/
theorem descriptorCheck : Obligations.DescriptorCheck := by
  intro b role cr hrole
  cases cr with
  | true =>
    rw [checkDescriptor_control (hrole rfl)]
    constructor
    · rintro ⟨hmode, hreg⟩
      obtain rfl | rfl := hrole rfl <;> simp [hmode, hreg]
    · rintro ⟨-, hcontrol, -⟩
      exact hcontrol rfl
  | false =>
    obtain h | h | h | h | h | h : b.toNat % 16 = 1 ∨ b.toNat % 16 = 2 ∨ b.toNat % 16 = 3 ∨ b.toNat % 16 = 4 ∨
      b.toNat % 16 = 5 ∨ (b.toNat % 16 = 0 ∨ 5 < b.toNat % 16) := by omega
    · rw [checkDescriptor_of_some (descriptorOf_imm h), roleAdmits_imm_iff]
      simp [h]
    · rw [checkDescriptor_of_some (descriptorOf_abs h), roleAdmits_inMemory_iff rfl]
      simp [h]
    · rw [checkDescriptor_of_some (descriptorOf_reg h), roleAdmits_reg_iff, registerNibble_toNat]
      simp [h]
    · rw [checkDescriptor_of_some (descriptorOf_ind h), roleAdmits_inMemory_iff rfl]
      simp [h]
    · by_cases hbase : 8 ≤ b.toNat / 16
      · rw [checkDescriptor_of_some (descriptorOf_rel h hbase), roleAdmits_inMemory_iff rfl]
        simp [h, hbase]
      · rw [checkDescriptor_of_none (descriptorOf_rel_dataRegister h (by omega))]
        simp [h, hbase]
    · rw [checkDescriptor_of_none (descriptorOf_illegalMode h)]
      simp only [Bool.false_eq_true, false_iff]
      omega

end Sys2Proof
end

section
/-!
PROOFS. MOV and arithmetic (40_move_arith R200 to R236): each instruction's execute phase for operands that can be
accessed, from the shape they share (`exec_arithmeticDone`); V of ADD and SUB as signed overflow; and the
MemoryOutOfBounds of every instruction that accesses memory (60_exceptions R427).
-/
namespace Sys2Proof.Machine

/-! ### Locations that can and cannot be accessed (20_memory R84, R99, R100) -/

/-- Whether a location can be read depends on the size of memory alone. -/
theorem readable_congr {s t : State} (h : t.cfg = s.cfg) (sz : Size) (loc : Loc) :
    readable t sz loc = readable s sz loc := by
  cases loc with
  | mem a => rw [readable, readable, inBounds, inBounds, h]
  | _ => rfl

theorem readLoc_of_readable {s : State} {sz : Size} {loc : Loc} (h : readable s sz loc = true) :
    readLoc s sz loc = .ok (locView s sz loc) :=
  readLoc_eq_ok.2 ⟨h, rfl⟩

theorem readLoc_of_unreadable {s : State} {sz : Size} {loc : Loc} (h : readable s sz loc = false) :
    readLoc s sz loc = .error (.raise .memoryOutOfBounds) :=
  readLoc_eq_error.2 ⟨h, rfl⟩

/-- Only memory cannot be read, and memory that cannot be read cannot be written. -/
theorem writeLoc_of_unreadable {s : State} {sz : Size} {loc : Loc} (v : Nat) (h : readable s sz loc = false) :
    writeLoc s sz loc v = .error (.raise .memoryOutOfBounds) := by
  cases loc with
  | mem a => exact writeMem_eq_error.2 ⟨h, rfl⟩
  | _ => cases h

/-! ### The sign bit and the signed reading (00_scope R18) -/

/-- The sign bit says that a value lies in the upper half of its range. -/
theorem testBit_sign_eq_decide {w a : Nat} (hw : 0 < w) (ha : a < 2 ^ w) :
    a.testBit (w - 1) = decide (2 ^ (w - 1) ≤ a) := by
  rw [← mul_pow_sub_one hw.ne' 2] at ha
  rw [Nat.testBit_eq_decide_div_mod_eq]
  by_cases h : 2 ^ (w - 1) ≤ a
  · have hone : a / 2 ^ (w - 1) = 1 := Nat.div_eq_of_lt_le (by omega) (by omega)
    simp [h, hone]
  · simp [h, Nat.div_eq_of_lt (Nat.not_le.1 h)]

theorem signedOf_eq_ite {w a : Nat} (hw : 0 < w) (ha : a < 2 ^ w) :
    signedOf w a = if 2 ^ (w - 1) ≤ a then (a : Int) - 2 * (2 ^ (w - 1) : Nat) else a := by
  have hpow : (2 ^ w : Int) = 2 * (2 ^ (w - 1) : Nat) := mod_cast (mul_pow_sub_one hw.ne' 2).symm
  simp only [signedOf, signBit, testBit_sign_eq_decide hw ha, decide_eq_true_eq, hpow]

/-- The model's signed reading is two's complement. -/
theorem signedOf_eq_toInt {w a : Nat} (hw : 0 < w) (ha : a < 2 ^ w) : signedOf w a = (BitVec.ofNat w a).toInt := by
  rw [signedOf_eq_ite hw ha, BitVec.toInt_eq_toNat_cond, BitVec.toNat_ofNat, Nat.mod_eq_of_lt ha,
    ← mul_pow_sub_one hw.ne' 2]
  split_ifs <;> omega

/-! ### Results and flags in the terms of the rules (40_move_arith R210 to R225) -/

theorem aluAdd_eq (w a b : Nat) : aluAdd w a b =
    aluOut w ((a + b) % 2 ^ w) (decide (2 ^ w ≤ a + b))
      (decide (a.testBit (w - 1) = b.testBit (w - 1) ∧ ((a + b) % 2 ^ w).testBit (w - 1) ≠ a.testBit (w - 1))) := by
  simp [aluAdd, signBit, bne, Bool.beq_eq_decide_eq]

/-- The difference modulo `2^w` of the rule, with no integer below 0. -/
theorem aluSub_eq {w a b : Nat} (hb : b ≤ 2 ^ w) : aluSub w a b =
    aluOut w ((a + (2 ^ w - b)) % 2 ^ w) (decide (a < b))
      (decide (a.testBit (w - 1) ≠ b.testBit (w - 1) ∧
        ((a + (2 ^ w - b)) % 2 ^ w).testBit (w - 1) ≠ a.testBit (w - 1))) := by
  have hdiff : (((a : Int) - b) % 2 ^ w).toNat = (a + (2 ^ w - b)) % 2 ^ w := by
    have hcast : ((a : Int) - b) % 2 ^ w = ((a + (2 ^ w - b)) % 2 ^ w : Nat) := by
      rw [← Int.add_emod_right]
      push_cast [hb]
      congr 1
      omega
    rw [hcast, Int.toNat_natCast]
  simp [aluSub, hdiff, signBit, bne, Bool.beq_eq_decide_eq]

theorem arithFlags_aluOut (f : Flags) (w r : Nat) (c v : Bool) :
    arithFlags f (aluOut w r c v) = ⟨c, v, decide (r = 0), r.testBit (w - 1), c, f.h⟩ := rfl

/-! ### V as signed overflow (40_move_arith R236) -/

section
variable {w a b : Nat}

/-- Linear arithmetic in half the range, once the sum is known to wrap or not and each value to be in one half. -/
theorem aluAdd_overflow (hw : 0 < w) (ha : a < 2 ^ w) (hb : b < 2 ^ w) :
    (aluAdd w a b).v = decide (signedOf w (aluAdd w a b).value ≠ signedOf w a + signedOf w b) := by
  have hr : (a + b) % 2 ^ w < 2 ^ w := Nat.mod_lt _ (by positivity)
  have hsum : (a + b) % 2 ^ w = if 2 ^ w ≤ a + b then a + b - 2 ^ w else a + b := by
    rw [Nat.add_mod_eq_ite, Nat.mod_eq_of_lt ha, Nat.mod_eq_of_lt hb]
  rw [aluAdd_eq]
  simp only [aluOut, signedOf_eq_ite hw, testBit_sign_eq_decide hw, ha, hb, hr]
  rw [← mul_pow_sub_one hw.ne' 2] at ha hb hr hsum ⊢
  generalize (a + b) % (2 * 2 ^ (w - 1)) = r at hr hsum ⊢
  generalize 2 ^ (w - 1) = half at ha hb hr hsum ⊢
  simp only [ne_eq, decide_eq_decide]
  split_ifs at hsum ⊢ <;> omega

/-- Subtraction undoes addition, and V of the one is V of the other. -/
theorem aluSub_overflow (hw : 0 < w) (ha : a < 2 ^ w) (hb : b < 2 ^ w) :
    (aluSub w a b).v = decide (signedOf w (aluSub w a b).value ≠ signedOf w a - signedOf w b) := by
  have hr : (a + (2 ^ w - b)) % 2 ^ w < 2 ^ w := Nat.mod_lt _ (by positivity)
  have hback : ((a + (2 ^ w - b)) % 2 ^ w + b) % 2 ^ w = a := by
    rw [Nat.mod_add_mod, Nat.add_assoc, Nat.sub_add_cancel hb.le, Nat.add_mod_right, Nat.mod_eq_of_lt ha]
  have hadd := aluAdd_overflow hw hr hb
  rw [aluSub_eq hb.le]
  rw [aluAdd_eq, hback] at hadd
  simp only [aluOut, ne_eq, decide_eq_decide, eq_sub_iff_add_eq] at hadd ⊢
  rw [eq_comm (b := signedOf w a), ← decide_eq_decide.1 hadd]
  cases a.testBit (w - 1) <;> cases b.testBit (w - 1) <;> simp

end

/-- Settles O29. -/
theorem overflowIsSignedOverflow : Obligations.OverflowIsSignedOverflow := fun _ _ _ hw ha hb =>
  ⟨aluAdd_overflow hw ha hb, aluSub_overflow hw ha hb, signedOf_eq_toInt hw ha⟩

/-! ### What each execute phase leaves (40_move_arith R198 to R230) -/

section
variable {sz : Size} {d s : Operand} {st : State}

/-- MOV between operands that can be accessed: the write and the flags of the copied value (40_move_arith R200). -/
theorem exec_mov_of_write {u : State} (hs : readable st sz (resolve st s) = true)
    (hu : writeLoc st sz (resolve st d) (locView st sz (resolve st s)) = .ok u) :
    exec (.mov sz d s) st = .next (u.withFlags (moveFlags st.flags sz.width (locView st sz (resolve st s)))) := by
  rw [exec, execMov, readLoc_of_readable hs]
  simp only [bind, Except.bind, hu, pure, Except.pure, finish_ok]

/-- CMP of operands that can be read changes the flags alone (40_move_arith R230). -/
theorem exec_cmp_of_readable (hd : readable st sz (resolve st d) = true) (hs : readable st sz (resolve st s) = true) :
    exec (.cmp sz d s) st = .next (st.withFlags
      (arithFlags st.flags (aluSub sz.width (locView st sz (resolve st d)) (locView st sz (resolve st s))))) := by
  rw [exec, execCmp, readLoc_of_readable hd, readLoc_of_readable hs]
  rfl

/-- An instruction of the shared shape, whose operation answers a result that fits, is done as R198 says. -/
theorem exec_arithmeticDone {i : Instr} {op : Nat → Nat → Nat → Except Abort AluOut} {r : Nat} {c v : Bool}
    (hi : exec i st = finish st (readModifyWrite op sz d s st)) (hm : Memory.wf st.mem = true)
    (hd : writable st sz (resolve st d) = true) (hs : readable st sz (resolve st s) = true)
    (ho : op sz.width (locView st sz (resolve st d)) (locView st sz (resolve st s)) = .ok (aluOut sz.width r c v))
    (hr : r < 2 ^ sz.width) : ∃ t, exec i st = .next t ∧ arithmeticDone st t sz (resolve st d) r c v := by
  obtain ⟨t, ht, hview, hflags, hframe⟩ := readModifyWrite_done hm hd hs ho
  refine ⟨t, by rw [hi, ht, finish_ok], ?_, by rw [hflags, arithFlags_aluOut], hframe⟩
  rw [hview, aluOut, Nat.mod_eq_of_lt hr]

/-- An operation that raises a fault on operands that can be read ends the shared shape. -/
theorem readModifyWrite_of_op_error {op : Nat → Nat → Nat → Except Abort AluOut} {e : Abort}
    (hd : readable st sz (resolve st d) = true) (hs : readable st sz (resolve st s) = true)
    (ho : op sz.width (locView st sz (resolve st d)) (locView st sz (resolve st s)) = .error e) :
    readModifyWrite op sz d s st = .error e := by
  rw [readModifyWrite, readLoc_of_readable hd, readLoc_of_readable hs]
  simp only [bind, Except.bind, ho]

end

/-- Settles O23. -/
theorem movCopies : Obligations.MovCopies := by
  intro sz d s st hm hd hs
  obtain ⟨u, hu⟩ := writeLoc_ok (locView st sz (resolve st s)) hd
  obtain ⟨hip, -, hcontrol⟩ := writeLoc_control hu
  refine ⟨_, exec_mov_of_write hs hu, ?_, rfl, sameOutside_congr (writeLoc_frame hm hu) rfl rfl, hip, hcontrol⟩
  rw [locView_congr (withFlags_regs u _) (withFlags_mem u _), writeLoc_view hm hu, Nat.mod_eq_of_lt (locView_lt st sz _)]

/-- Settles O24. -/
theorem addResult : Obligations.AddResult := by
  rintro sz d s st _ _ _ _ hm hd hs rfl rfl rfl rfl
  exact exec_arithmeticDone rfl hm hd hs (congrArg _ (aluAdd_eq _ _ _)) (Nat.mod_lt _ (by positivity))

/-- Settles O25. -/
theorem subResult : Obligations.SubResult := by
  rintro sz d s st _ _ _ _ hm hd hs rfl rfl rfl rfl
  exact exec_arithmeticDone rfl hm hd hs (congrArg _ (aluSub_eq (locView_lt st sz _).le)) (Nat.mod_lt _ (by positivity))

/-- Settles O26. -/
theorem mulResult : Obligations.MulResult := by
  rintro sz d s st _ _ _ hm hd hs rfl rfl rfl
  exact exec_arithmeticDone rfl hm hd hs rfl (Nat.mod_lt _ (by positivity))

/-- Settles O27: a quotient fits in the dividend's width; a divisor of 0 ends the phase before the write. -/
theorem divResult : Obligations.DivResult := by
  rintro sz d s st _ _ hs rfl rfl
  refine ⟨fun hm hd hb => ?_, fun hd hb => ?_⟩
  · exact exec_arithmeticDone rfl hm hd hs (if_neg hb) ((Nat.div_le_self _ _).trans_lt (locView_lt st sz _))
  · have hraise := readModifyWrite_of_op_error (op := divide) hd hs (if_pos hb)
    exact ⟨_, congrArg (finish st) hraise, faulted_route st _⟩

/-- Settles O28. -/
theorem cmpSetsSubFlags : Obligations.CmpSetsSubFlags := by
  rintro sz d s st _ _ _ _ hd hs rfl rfl rfl rfl
  rw [exec_cmp_of_readable hd hs, aluSub_eq (locView_lt st sz _).le, arithFlags_aluOut, State.withFlags]

/-! ### Accesses out of bounds, instruction by instruction (60_exceptions R427) -/

section
variable {sz : Size} {d s : Operand} {st : State}

theorem exec_mov_unreadable (h : readable st sz (resolve st d) = false ∨ readable st sz (resolve st s) = false) :
    exec (.mov sz d s) st = .next (route st .memoryOutOfBounds) := by
  rw [exec, execMov]
  cases hs : readable st sz (resolve st s) with
  | false => rw [readLoc_of_unreadable hs]; rfl
  | true =>
    have hd := h.resolve_right (by simp [hs])
    simp only [readLoc_of_readable hs, bind, Except.bind, writeLoc_of_unreadable _ hd, finish_raise]

theorem exec_cmp_unreadable (h : readable st sz (resolve st d) = false ∨ readable st sz (resolve st s) = false) :
    exec (.cmp sz d s) st = .next (route st .memoryOutOfBounds) := by
  rw [exec, execCmp]
  cases hd : readable st sz (resolve st d) with
  | false => rw [readLoc_of_unreadable hd]; rfl
  | true =>
    have hs := h.resolve_left (by simp [hd])
    rw [readLoc_of_readable hd, readLoc_of_unreadable hs]; rfl

/-- Every instruction of the list but MOV and CMP has the shared shape. -/
theorem exec_memoryOperand_unreadable {i : Instr} (hi : i ∈ memoryOperandInstrs sz d s)
    (h : readable st sz (resolve st d) = false ∨ readable st sz (resolve st s) = false) :
    exec i st = .next (route st .memoryOutOfBounds) := by
  have shared : ∀ op, finish st (readModifyWrite op sz d s st) = .next (route st .memoryOutOfBounds) := fun op => by
    rw [readModifyWrite_unreadable h, finish_raise]
  revert i
  simp only [memoryOperandInstrs, List.forall_mem_cons, List.not_mem_nil, false_implies, implies_true, and_true]
  exact ⟨exec_mov_unreadable h, shared _, shared _, shared _, shared _, exec_cmp_unreadable h, shared _, shared _,
    shared _, shared _⟩

theorem exec_push_outside
    (h : readable st sz (resolve st d) = false ∨ inBounds st (getSp st - 8#64).toNat 8 = false) :
    exec (.push sz d) st = .next (route st .memoryOutOfBounds) := by
  rw [exec, execPush]
  cases hd : readable st sz (resolve st d) with
  | false => rw [readLoc_of_unreadable hd]; rfl
  | true =>
    have hslot := h.resolve_left (by simp [hd])
    rw [readLoc_of_readable hd]
    exact congrArg (finish st) (push64_eq_error.2 ⟨hslot, rfl⟩)

/-- A POP reports a destination outside memory although SP has moved by then. -/
theorem exec_pop_outside (h : inBounds st (getSp st).toNat 8 = false ∨ readable st sz (resolve st d) = false) :
    exec (.pop sz d) st = .next (route st .memoryOutOfBounds) := by
  rw [exec, execPop]
  cases hslot : inBounds st (getSp st).toNat 8 with
  | false => rw [pop64_eq_error.2 ⟨hslot, rfl⟩]; rfl
  | true =>
    have hd := h.resolve_left (by simp [hslot])
    rw [pop64_eq_ok.2 ⟨hslot, rfl⟩]
    rw [← readable_congr (setSp_cfg st (getSp st + 8#64))] at hd
    exact congrArg (finish st) (writeLoc_of_unreadable _ hd)

theorem exec_call_outside (nib : RegIdx) (v : Word) (h : inBounds st (getSp st - 8#64).toNat 8 = false) :
    exec (.call sz (.imm nib v)) st = .next (route st .memoryOutOfBounds) := by
  rw [exec, execCall, offsetOf, push64_eq_error.2 ⟨h, rfl⟩]
  rfl

theorem exec_ret_outside (h : inBounds st (getSp st).toNat 8 = false) :
    exec (.ret sz) st = .next (route st .memoryOutOfBounds) := by
  rw [exec, execRet, pop64_eq_error.2 ⟨h, rfl⟩]
  rfl

theorem exec_rti_outside (h : inBounds st (getSp st).toNat 16 = false) :
    exec (.rti sz) st = .next (route st .memoryOutOfBounds) := by
  rw [exec, execRti, trapReturn_eq_error.2 ⟨h, rfl⟩, finish_raise]

/-- SYS reads its operand before it looks a syscall up. -/
theorem exec_sys_unreadable (h : readable st sz (resolve st d) = false) :
    exec (.sys sz d) st = .next (route st .memoryOutOfBounds) := by
  rw [exec, execSys, readLoc_of_unreadable h]
  rfl

end

/-- Settles O47. -/
theorem outOfBoundsFaults : Obligations.OutOfBoundsFaults := by
  intro sz d s nib v st
  have routed : ∀ {i}, exec i st = .next (route st .memoryOutOfBounds) →
      ∃ t, exec i st = .next t ∧ faulted st t .memoryOutOfBounds := fun h => ⟨_, h, faulted_route st _⟩
  exact ⟨fun i hi h => routed (exec_memoryOperand_unreadable hi h), fun h => routed (exec_push_outside h),
    fun h => routed (exec_pop_outside h), fun h => routed (exec_call_outside nib v h),
    fun h => routed (exec_ret_outside h), fun h => routed (exec_rti_outside h), fun h => routed (exec_sys_unreadable h)⟩

end Sys2Proof.Machine
end

section
/-!
PROOFS. The stack, call, return and LEA (41_stack_call_lea R240 to R260): what a completed push leaves (`Pushed`), the
execute phase of each instruction once its slot is in memory, and the pairs PUSH and POP, CALL and RET.
-/
namespace Sys2Proof.Machine

/-! ### Locations and offsets (20_memory R99, R100, 30_encoding R140) -/

/-- Whether a location can be written depends on the size of memory alone. -/
theorem writable_congr {s t : State} (h : t.cfg = s.cfg) (sz : Size) (loc : Loc) :
    writable t sz loc = writable s sz loc := by
  cases loc with
  | mem a => rw [writable, writable, inBounds, inBounds, h]
  | _ => rfl

/-- What a location holds fits a stack slot. -/
theorem locView_lt_slot (s : State) (sz : Size) (loc : Loc) : locView s sz loc < 2 ^ 64 :=
  (locView_lt s sz loc).trans_le (Nat.pow_le_pow_right (by decide) (width_le sz))

/-- The sign extension of an immediate's low `w` bits is that of the rules (00_scope R18). -/
theorem signExtend_setWidth {w : Nat} (hw : 0 < w) (v : Word) :
    (v.setWidth w).signExtend 64 = BitVec.ofInt 64 (signedOf w (v.toNat % 2 ^ w)) := by
  have hlow : v.setWidth w = BitVec.ofNat w (v.toNat % 2 ^ w) :=
    BitVec.eq_of_toNat_eq (by rw [BitVec.toNat_setWidth, BitVec.toNat_ofNat, Nat.mod_mod])
  rw [BitVec.signExtend, hlow, signedOf_eq_toInt hw (Nat.mod_lt _ (by positivity))]

/-! ### Push and pop (41_stack_call_lea R240) -/

/-- What a completed `push64` of `v` leaves: SP 8 lower, `v` in the slot there, and nothing else changed. -/
structure Pushed (s t : State) (v : Nat) : Prop where
  sp : getSp t = getSp s - 8#64
  slot : memReadN t.mem (getSp s - 8#64).toNat 8 = v
  regs : sameRegsExcept s t 15#4
  crs : sameCrs s t
  mem : sameMemExcept s t (getSp s - 8#64).toNat 8
  flags : t.flags = s.flags
  ip : t.ip = s.ip
  control : sameControl s t

theorem push64_ok {s : State} (v : Nat) (h : inBounds s (getSp s - 8#64).toNat 8 = true) :
    ∃ t, push64 s v = .ok t :=
  ⟨_, push64_eq_ok.2 ⟨h, rfl⟩⟩

theorem pushed_of_push64 {s t : State} {v : Nat} (hm : Memory.wf s.mem = true) (hv : v < 2 ^ 64)
    (h : push64 s v = .ok t) : Pushed s t v := by
  obtain ⟨-, rfl⟩ := push64_eq_ok.1 h
  exact {
    sp := getSp_setSp _ _
    slot := by
      rw [setSp_mem, withMem_mem, memReadN_memWriteN hm]
      exact Nat.mod_eq_of_lt hv
    regs := fun r hr => getReg_setSp_other _ _ hr
    crs := fun n => getCr_setSp _ _ n
    mem := fun x hx => by rw [setSp_mem, withMem_mem, memRead_memWriteN_other hm _ 8 v x hx]
    flags := rfl
    ip := rfl
    control := by simp [sameControl] }

/-- The register files after a write of SP depend on the register files alone. -/
theorem setSp_regs_congr {s t : State} (h : t.regs = s.regs) (v : Word) : (setSp t v).regs = (setSp s v).regs := by
  rw [setSp, setSp, withRegs_regs, withRegs_regs, h]

/-- SP put back after a push restores every register. -/
theorem setSp_regs_of_push64 {s t : State} {v : Nat} (h : push64 s v = .ok t) :
    (setSp t (getSp s)).regs = s.regs := by
  obtain ⟨-, rfl⟩ := push64_eq_ok.1 h
  rfl

/-- The slot of a completed push is in memory for the pop that follows. -/
theorem Pushed.inBounds {s t : State} {v : Nat} (h : Pushed s t v)
    (hslot : inBounds s (getSp s - 8#64).toNat 8 = true) : inBounds t (getSp t).toNat 8 = true := by
  obtain ⟨-, -, -, -, -, -, -, -, -, hcfg, -⟩ := h.control
  rwa [h.sp, inBounds_iff, hcfg, ← inBounds_iff]

/-- A pop after a push moves SP back. -/
theorem Pushed.sp_add {s t : State} {v : Nat} (h : Pushed s t v) : getSp t + 8#64 = getSp s := by
  rw [h.sp, BitVec.sub_add_cancel]

/-! ### The execute phases whose slot is in memory (41_stack_call_lea R241 to R255) -/

section
variable {sz : Size} {d : Operand} {st : State}

theorem exec_push_of_push64 {t : State} (hd : readable st sz (resolve st d) = true)
    (h : push64 st (locView st sz (resolve st d)) = .ok t) : exec (.push sz d) st = .next t := by
  rw [exec, execPush, readLoc_of_readable hd]
  exact congrArg (finish st) h

/-- POP writes a location of the pre-state in the state whose SP has moved. -/
theorem exec_pop_of_write {u : State} (hslot : inBounds st (getSp st).toNat 8 = true)
    (hu : writeLoc (setSp st (getSp st + 8#64)) sz (resolve st d) (memReadN st.mem (getSp st).toNat 8) = .ok u) :
    exec (.pop sz d) st = .next u := by
  rw [exec, execPop, pop64_eq_ok.2 ⟨hslot, rfl⟩]
  exact congrArg (finish st) hu

theorem exec_call_of_push64 {t : State} (nib : RegIdx) (v : Word) (h : push64 st st.ip.toNat = .ok t) :
    exec (.call sz (.imm nib v)) st =
      .next (t.withIp (st.ip + BitVec.ofInt 64 (signedOf sz.width (v.toNat % 2 ^ sz.width)))) := by
  rw [exec, execCall, offsetOf, h, signExtend_setWidth (width_pos sz)]
  rfl

theorem exec_ret_of_slot (h : inBounds st (getSp st).toNat 8 = true) :
    exec (.ret sz) st =
      .next ((setSp st (getSp st + 8#64)).withIp (BitVec.ofNat 64 (memReadN st.mem (getSp st).toNat 8))) := by
  rw [exec, execRet, pop64_eq_ok.2 ⟨h, rfl⟩]
  rfl

end

/-- A write of any location but register 15 keeps SP. -/
theorem getSp_of_sameOutside {s t : State} {sz : Size} {loc : Loc} (h : sameOutside s t sz loc)
    (hloc : loc ≠ .reg 15#4) : getSp t = getSp s := by
  cases loc with
  | imm v => exact h.elim
  | reg r => exact h.1 15#4 fun hr => hloc (by rw [hr])
  | creg n => exact h.1 15#4
  | mem a => exact h.1 15#4

/-- Settles O35. -/
theorem pushResult : Obligations.PushResult := by
  intro sz d st hm hd hslot
  obtain ⟨t, ht⟩ := push64_ok (locView st sz (resolve st d)) hslot
  have hp := pushed_of_push64 hm (locView_lt_slot st sz _) ht
  exact ⟨t, exec_push_of_push64 hd ht, hp.sp, hp.slot, hp.regs, hp.crs, hp.mem, hp.flags, hp.ip, hp.control⟩

/-- Settles O36: the write of the destination, in the state whose SP has moved. -/
theorem popResult : Obligations.PopResult := by
  intro sz d st hm hd hslot
  have hm' : Memory.wf (setSp st (getSp st + 8#64)).mem = true := hm
  rw [← writable_congr (setSp_cfg st (getSp st + 8#64))] at hd
  obtain ⟨t, ht⟩ := writeLoc_ok (memReadN st.mem (getSp st).toNat 8) hd
  have hframe := writeLoc_frame hm' ht
  obtain ⟨hip, hflags, hcontrol⟩ := writeLoc_control ht
  refine ⟨t, exec_pop_of_write hslot ht, writeLoc_view hm' ht, hframe, fun hne => ?_, hflags, hip, hcontrol⟩
  rw [getSp_of_sameOutside hframe hne, getSp_setSp]

/-- Settles O37: the slot that POP reads in the state after the PUSH is the one that `Pushed` describes. -/
theorem popUndoesPush : Obligations.PopUndoesPush := by
  intro sz sz' d d' st t hm hd hslot hpush hd'
  obtain ⟨t', ht⟩ := push64_ok (locView st sz (resolve st d)) hslot
  obtain rfl : t' = t := by simpa [hpush, eq_comm] using exec_push_of_push64 hd ht
  have hp := pushed_of_push64 hm (locView_lt_slot st sz _) ht
  obtain ⟨u, hu, hview, hframe, hsp, -⟩ := popResult sz' d' t' ((kept_push64 ht).wf hm) hd' (hp.inBounds hslot)
  rw [hp.sp_add] at hframe hsp
  rw [hp.sp, hp.slot] at hview
  exact ⟨u, hu, hview, hframe, hsp⟩

/-- Settles O38. -/
theorem callResult : Obligations.CallResult := by
  intro sz nib v st hm hslot
  obtain ⟨t, ht⟩ := push64_ok st.ip.toNat hslot
  have hp := pushed_of_push64 hm st.ip.isLt ht
  exact ⟨_, exec_call_of_push64 nib v ht, rfl, hp.sp, hp.slot, hp.regs, hp.crs, hp.mem, hp.flags, hp.control⟩

/-- Settles O39. -/
theorem retResult : Obligations.RetResult := by
  intro sz st hslot
  refine ⟨_, exec_ret_of_slot hslot, rfl, ?_, fun r hr => ?_, fun n => ?_, rfl, rfl, ?_⟩
  · rw [getSp_withIp, getSp_setSp]
  · rw [getReg_withIp, getReg_setSp_other st _ hr]
  · rw [getCr_withIp, getCr_setSp]
  · simp [sameControl]

/-- Settles O40: RET reads the slot that the CALL filled, and SP is all that the push moved. -/
theorem retUndoesCall : Obligations.RetUndoesCall := by
  intro sz sz' nib v st t hm hslot hcall
  obtain ⟨p, hpush⟩ := push64_ok st.ip.toNat hslot
  have hp := pushed_of_push64 hm st.ip.isLt hpush
  rw [exec_call_of_push64 nib v hpush, Host.Outcome.next.injEq] at hcall
  subst hcall
  refine ⟨_, exec_ret_of_slot (hp.inBounds hslot), ?_, ?_, hp.flags⟩
  · rw [withIp_ip, getSp_withIp, withIp_mem, hp.sp, hp.slot, BitVec.ofNat_toNat, BitVec.setWidth_eq]
  · rw [withIp_regs, getSp_withIp, hp.sp_add, setSp_regs_congr (withIp_regs p _), setSp_regs_of_push64 hpush]

/-! ### LEA (41_stack_call_lea R260) -/

/-- The address of RegisterRelative as one sum of natural numbers modulo `2^64` (20_memory R97). -/
theorem relAddr_eq_ofNat (s : State) (base : CellIdx) (idx : RegIdx) (sh : BitVec 3) :
    relAddr s base idx sh =
      BitVec.ofNat 64 ((bankGet s.regs.a base).toNat + (getReg s idx).toNat * 2 ^ sh.toNat) :=
  BitVec.eq_of_toNat_eq (by rw [relAddr_toNat, BitVec.toNat_ofNat, Nat.add_mod_mod])

/-- LEA writes the address of a source that has one. -/
theorem exec_lea_of_leaAddr {sz : Size} {s : Operand} {st : State} {a : Word} (r : RegIdx)
    (h : leaAddr st sz s = some a) : exec (.lea sz (.reg r) s) st = .next (setReg st r a) := by
  simp only [exec, execLea, h, finish_ok]

/-- Settles O41: each source mode by its row of `leaAddr`, RegisterRelative by `relAddr_eq_ofNat`. -/
theorem leaResult : Obligations.LeaResult := by
  intro sz r nib v q idx n sh st _
  refine ⟨exec_lea_of_leaAddr r rfl, exec_lea_of_leaAddr r rfl, exec_lea_of_leaAddr r rfl, ?_, fun x => ?_⟩
  · rw [← relAddr_eq_ofNat]
    exact exec_lea_of_leaAddr r rfl
  · exact ⟨getReg_setReg_same st r x, fun r' hr => getReg_setReg_other st x hr, getCr_setReg st r x,
      setReg_eq_withRegs st r x⟩

end Sys2Proof.Machine
end

section
/-!
PROOFS. Shifts and branches (42_shift_branch R278 to R296), with BRK and NOP (43_system_ext R320, R325): each shift as
one result, carry and overflow that hold for every count, past the width too; the single-bit shifts that a shift is made
of; and what each branch leaves.
-/
namespace Sys2Proof.Machine

section
variable {w a n : Nat}

/-! ### LSR (42_shift_branch R280) -/

/-- From the width on the quotient is 0, and past it so is the bit shifted out. -/
theorem aluLsr_eq (ha : a < 2 ^ w) :
    aluLsr w a n = aluOut w (a / 2 ^ n) (decide (n ≠ 0) && a.testBit (n - 1)) false := by
  have hvalue : (if w ≤ n then 0 else a / 2 ^ n) = a / 2 ^ n := by
    split_ifs with hn
    · exact (Nat.div_eq_of_lt (ha.trans_le (Nat.pow_le_pow_right two_pos hn))).symm
    · rfl
  have hcarry : (if n ≤ w then a.testBit (n - 1) else false) = a.testBit (n - 1) := by
    split_ifs with hn
    · rfl
    · exact (Nat.testBit_lt_two_pow (ha.trans_le (Nat.pow_le_pow_right two_pos (by omega)))).symm
  simp only [aluLsr, hvalue, hcarry, Bool.if_false_left, ne_eq, decide_not]

/-! ### LSL and ASL (42_shift_branch R281, R283) -/

/-- From the width on every bit is shifted out. -/
theorem leftResult_eq (w a n : Nat) : leftResult w a n = a * 2 ^ n % 2 ^ w := by
  rw [leftResult]
  split_ifs with hn
  · exact (Nat.mod_eq_zero_of_dvd ((pow_dvd_pow 2 hn).mul_left a)).symm
  · rfl

theorem leftCarry_eq (w a n : Nat) : leftCarry w a n = (decide (n ≠ 0) && decide (n ≤ w) && a.testBit (w - n)) := by
  by_cases h0 : n = 0 <;> by_cases hn : n ≤ w <;> simp [leftCarry, h0, hn]

/-- The sign bit after `n` single-bit shifts to the left is bit `w - 1 - n` of the value, and 0 once it is past the
last bit. -/
theorem signBit_leftResult (hw : 0 < w) : signBit w (leftResult w a n) = (decide (n < w) && a.testBit (w - 1 - n)) := by
  have hlast : w - 1 < w := by omega
  have hle : n ≤ w - 1 ↔ n < w := by omega
  simp only [signBit, leftResult_eq, Nat.testBit_mod_two_pow, Nat.testBit_mul_two_pow, hlast, hle, decide_true,
    Bool.true_and]

/-- A number of `m + 1` bits that are all equal is 0 or the greatest such number. -/
theorem allBitsEqual_iff {x m : Nat} (hx : x < 2 ^ (m + 1)) :
    (x = 0 ∨ x = 2 ^ (m + 1) - 1) ↔ ∀ i ≤ m, x.testBit i = x.testBit m := by
  constructor
  · rintro (rfl | rfl) i hi
    · rw [Nat.zero_testBit, Nat.zero_testBit]
    · simp [Nat.testBit_two_pow_sub_one, Nat.lt_succ_of_le hi]
  · intro h
    have hbits (i : Nat) : x.testBit i = (x.testBit m && decide (i < m + 1)) := by
      by_cases hi : i < m + 1
      · simp [hi, h i (Nat.le_of_lt_succ hi)]
      · simp [hi, Nat.testBit_lt_two_pow (hx.trans_le (Nat.pow_le_pow_right two_pos (Nat.le_of_not_lt hi)))]
    cases hm : x.testBit m with
    | false => exact .inl (Nat.eq_of_testBit_eq fun i => by rw [hbits, hm, Nat.zero_testBit, Bool.false_and])
    | true => exact .inr (Nat.eq_of_testBit_eq fun i => by
        rw [hbits, hm, Nat.testBit_two_pow_sub_one, Bool.true_and])

/-- Below the width V says that the top `n + 1` bits are not all equal. -/
theorem aslOverflow_iff_of_lt (ha : a < 2 ^ w) (hn : n < w) :
    aslOverflow w a n = true ↔ ∃ k ≤ n, a.testBit (w - 1 - k) ≠ a.testBit (w - 1) := by
  have htop : a / 2 ^ (w - 1 - n) < 2 ^ (n + 1) := by
    rw [Nat.div_lt_iff_lt_mul (by positivity), ← pow_add]
    rwa [show n + 1 + (w - 1 - n) = w by omega]
  have hequal : (a / 2 ^ (w - 1 - n) = 0 ∨ a / 2 ^ (w - 1 - n) = 2 ^ (n + 1) - 1) ↔
      ∀ k ≤ n, a.testBit (w - 1 - k) = a.testBit (w - 1) := by
    rw [allBitsEqual_iff htop]
    simp only [Nat.testBit_div_two_pow]
    rw [show n + (w - 1 - n) = w - 1 by omega]
    constructor
    · intro h k hk
      rw [← h (n - k) (Nat.sub_le n k), show n - k + (w - 1 - n) = w - 1 - k by omega]
    · intro h i hi
      rw [← h (n - i) (Nat.sub_le n i), show i + (w - 1 - n) = w - 1 - (n - i) by omega]
  rcases Nat.eq_zero_or_pos n with rfl | hpos
  · simp [aslOverflow]
  · simp only [aslOverflow, hpos.ne', hn, if_true, if_false, Bool.not_eq_true', Bool.or_eq_false_iff,
      beq_eq_false_iff_ne, ne_eq, ← not_or, hequal, not_forall, exists_prop]

theorem aslOverflow_iff_of_le (hw : 0 < w) (hn : w ≤ n) : aslOverflow w a n = true ↔ a ≠ 0 := by
  simp [aslOverflow, show n ≠ 0 by omega, Nat.not_lt.2 hn]

/-- V of ASL: the sign bit differs from the value's after some number of the single-bit shifts. -/
theorem aslOverflow_iff_signChanges (hw : 0 < w) (ha : a < 2 ^ w) :
    aslOverflow w a n = true ↔ ∃ k ≤ n, signBit w (leftResult w a k) ≠ signBit w a := by
  simp only [signBit_leftResult hw]
  rcases Nat.lt_or_ge n w with hn | hn
  · rw [aslOverflow_iff_of_lt ha hn]
    refine exists_congr fun k => and_congr_right fun hk => ?_
    simp [hk.trans_lt hn, signBit]
  · rw [aslOverflow_iff_of_le hw hn]
    constructor
    · intro h0
      cases hsign : a.testBit (w - 1) with
      | true => exact ⟨w, hn, by simp [signBit, hsign]⟩
      | false =>
        obtain ⟨i, hi⟩ := Nat.exists_testBit_of_ne_zero h0
        have hiw : i < w := Nat.lt_of_not_le fun h =>
          by simp [Nat.testBit_lt_two_pow (ha.trans_le (Nat.pow_le_pow_right two_pos h))] at hi
        refine ⟨w - 1 - i, by omega, ?_⟩
        simp [signBit, hsign, show w - 1 - i < w by omega, show w - 1 - (w - 1 - i) = i by omega, hi]
    · rintro ⟨k, -, hk⟩ rfl
      simp [signBit] at hk

/-! ### ASR (42_shift_branch R282) -/

/-- The arithmetic shift of a bit vector is the floor of its signed value over `2^n`, modulo `2^w`. -/
theorem toNat_sshiftRight_eq_floor (x : BitVec w) (n : Nat) :
    (x.sshiftRight n).toNat = (x.toInt / 2 ^ n % 2 ^ w).toNat := by
  rw [BitVec.sshiftRight, BitVec.toNat_ofInt, Int.shiftRight_eq_div_pow]
  push_cast
  rfl

/-- Bit `i` of an arithmetic shift is bit `n + i` of the value, or its sign bit from there on. -/
theorem testBit_sshiftRight (hw : 0 < w) (i : Nat) :
    ((BitVec.ofNat w a).sshiftRight n).toNat.testBit i = (decide (i < w) && a.testBit (min (n + i) (w - 1))) := by
  simp only [BitVec.testBit_toNat, BitVec.getLsbD_sshiftRight, BitVec.msb_eq_getLsbD_last, BitVec.getLsbD_ofNat,
    ← decide_not, Nat.not_le]
  congr 1
  split_ifs with h
  · rw [min_eq_left (by omega), decide_eq_true h, Bool.true_and]
  · rw [min_eq_right (by omega), decide_eq_true (by omega), Bool.true_and]

theorem toNat_sshiftRight_one (hw : 0 < w) (x : BitVec w) :
    (x.sshiftRight 1).toNat = x.toNat / 2 + if x.toNat.testBit (w - 1) then 2 ^ (w - 1) else 0 := by
  have hx := x.isLt
  rw [BitVec.toNat_sshiftRight, BitVec.msb_eq_decide, testBit_sign_eq_decide hw hx, Nat.shiftRight_eq_div_pow,
    Nat.shiftRight_eq_div_pow]
  rw [← mul_pow_sub_one hw.ne' 2] at hx ⊢
  simp only [decide_eq_true_eq]
  split_ifs <;> omega

/-- From the width on every bit is the sign bit. -/
theorem toNat_sshiftRight_of_le (hw : 0 < w) (hn : w ≤ n) :
    ((BitVec.ofNat w a).sshiftRight n).toNat = if signBit w a then 2 ^ w - 1 else 0 := by
  refine Nat.eq_of_testBit_eq fun i => ?_
  rw [testBit_sshiftRight hw, min_eq_right (by omega), ← signBit]
  cases signBit w a <;> simp

/-- The model's three cases of the result are one arithmetic shift. -/
theorem aluAsr_eq (hw : 0 < w) (ha : a < 2 ^ w) : aluAsr w a n =
    aluOut w ((BitVec.ofNat w a).sshiftRight n).toNat
      (decide (n ≠ 0) && (if n ≤ w then a.testBit (n - 1) else signBit w a)) false := by
  have hvalue : (if w ≤ n then (if signBit w a then 2 ^ w - 1 else 0)
      else (signedOf w a / (2 ^ n : Int) % (2 ^ w : Int)).toNat) = ((BitVec.ofNat w a).sshiftRight n).toNat := by
    split_ifs with hn hsign
    · rw [toNat_sshiftRight_of_le hw hn, if_pos hsign]
    · rw [toNat_sshiftRight_of_le hw hn, if_neg hsign]
    · rw [toNat_sshiftRight_eq_floor, signedOf_eq_toInt hw ha]
  simp only [aluAsr, hvalue, Bool.if_false_left, ne_eq, decide_not]

/-! ### Single-bit shifts (42_shift_branch R278) -/

theorem aluLsr_succ (ha : a < 2 ^ w) :
    (aluLsr w a (n + 1)).value = (aluLsr w a n).value / 2 ∧
    (aluLsr w a (n + 1)).c = (aluLsr w a n).value.testBit 0 := by
  simp only [aluLsr_eq ha, aluOut]
  constructor
  · rw [pow_succ, Nat.div_div_eq_div_mul]
  · rw [Nat.testBit_div_two_pow, Nat.zero_add, decide_eq_true n.succ_ne_zero, Bool.true_and, Nat.add_sub_cancel]

theorem leftResult_succ (w a n : Nat) : leftResult w a (n + 1) = leftResult w a n * 2 % 2 ^ w := by
  rw [leftResult_eq, leftResult_eq, Nat.mod_mul_mod, pow_succ, Nat.mul_assoc]

theorem leftCarry_succ (hw : 0 < w) : leftCarry w a (n + 1) = (leftResult w a n).testBit (w - 1) := by
  rw [leftCarry_eq, ← signBit, signBit_leftResult hw, decide_eq_true n.succ_ne_zero, Bool.true_and,
    show w - (n + 1) = w - 1 - n by omega]
  rfl

theorem aluAsr_succ (hw : 0 < w) (ha : a < 2 ^ w) :
    (aluAsr w a (n + 1)).value =
      (aluAsr w a n).value / 2 + (if (aluAsr w a n).value.testBit (w - 1) then 2 ^ (w - 1) else 0) ∧
    (aluAsr w a (n + 1)).c = (aluAsr w a n).value.testBit 0 := by
  simp only [aluAsr_eq hw ha, aluOut]
  constructor
  · rw [BitVec.sshiftRight_add, toNat_sshiftRight_one hw]
  · rw [testBit_sshiftRight hw, Nat.add_zero, min_def]
    have hle : n + 1 ≤ w ↔ n ≤ w - 1 := by omega
    simp [hle, hw, signBit, apply_ite a.testBit]

/-- One more single-bit shift adds its own change of the sign to those before it. -/
theorem aslOverflow_succ (hw : 0 < w) (ha : a < 2 ^ w) : aslOverflow w a (n + 1) =
    (aslOverflow w a n || (signBit w (leftResult w a n) != signBit w (leftResult w a (n + 1)))) := by
  rw [Bool.eq_iff_iff, Bool.or_eq_true, bne_iff_ne, aslOverflow_iff_signChanges hw ha,
    aslOverflow_iff_signChanges hw ha]
  constructor
  · rintro ⟨k, hk, hsign⟩
    by_cases hn : signBit w (leftResult w a n) = signBit w a
    · rcases Nat.le_succ_iff.1 hk with hk | rfl
      · exact .inl ⟨k, hk, hsign⟩
      · exact .inr fun h => hsign (h.symm.trans hn)
    · exact .inl ⟨n, le_rfl, hn⟩
  · rintro (⟨k, hk, hsign⟩ | hne)
    · exact ⟨k, Nat.le_succ_of_le hk, hsign⟩
    · by_cases hn : signBit w (leftResult w a n) = signBit w a
      · exact ⟨n + 1, le_rfl, fun h => hne (hn.trans h.symm)⟩
      · exact ⟨n, n.le_succ, hn⟩

/-! ### Branches (42_shift_branch R290) -/

theorem offsetOf_byte (nib : RegIdx) (v : Word) :
    offsetOf .byte (.imm nib v) = some (BitVec.ofInt 64 (signedOf 8 (v.toNat % 256))) :=
  congrArg some (signExtend_setWidth (width_pos .byte) v)

/-- A branch whose condition says `p` goes to its target when `p` holds, and leaves IP at `end` when not. -/
theorem exec_branch {i : Instr} {cond : Bool} {p : Prop} [Decidable p] {v : Word} {st : State} (nib : RegIdx)
    (hi : exec i st = finish st (branchIf cond (.imm nib v) st)) (hp : cond = true ↔ p) :
    exec i st = .next { st with ip :=
      if p then st.ip + BitVec.ofInt 64 (signedOf 8 (v.toNat % 256)) else st.ip } := by
  rw [hi, branchIf_eq_ok.2 ⟨_, offsetOf_byte nib v, rfl⟩, finish_ok]
  simp only [hp]
  split_ifs <;> rfl

end

/-- Settles O30. -/
theorem lsrResult : Obligations.LsrResult := by
  rintro sz d s st _ _ _ hm hd hs rfl rfl rfl
  have ha := locView_lt st sz (resolve st d)
  exact exec_arithmeticDone rfl hm hd hs (congrArg _ (aluLsr_eq ha)) ((Nat.div_le_self _ _).trans_lt ha)

/-- Settles O31. -/
theorem lslResult : Obligations.LslResult := by
  rintro sz d s st _ _ _ hm hd hs rfl rfl rfl
  refine exec_arithmeticDone rfl hm hd hs ?_ (Nat.mod_lt _ (by positivity))
  rw [aluLsl, leftResult_eq, leftCarry_eq]

/-- Settles O32: the arithmetic shift of a bit vector is the floor that the rule gives. -/
theorem asrResult : Obligations.AsrResult := by
  rintro sz d s st _ _ _ hm hd hs rfl rfl rfl
  rw [← toNat_sshiftRight_eq_floor]
  exact exec_arithmeticDone rfl hm hd hs (congrArg _ (aluAsr_eq (width_pos sz) (locView_lt st sz _))) (BitVec.isLt _)

/-- Settles O33. -/
theorem aslResult : Obligations.AslResult := by
  rintro sz d s st _ _ _ hm hd hs rfl rfl rfl
  refine exec_arithmeticDone rfl hm hd hs ?_ (Nat.mod_lt _ (by positivity))
  rw [aluAsl, leftResult_eq, leftCarry_eq]
  congr 2
  rw [Bool.eq_iff_iff, decide_eq_true_eq]
  split_ifs with hn
  · exact aslOverflow_iff_of_lt (locView_lt st sz _) hn
  · exact aslOverflow_iff_of_le (width_pos sz) (Nat.le_of_not_lt hn)

/-- Settles O34: the shift by 0 from the equation of each shift, and the step of each from the lemmas above. -/
theorem shiftsAreSingleShifts : Obligations.ShiftsAreSingleShifts := by
  intro w a n hw ha
  refine ⟨?_, aluLsr_succ ha, ⟨leftResult_succ w a n, leftCarry_succ hw⟩, aluAsr_succ hw ha,
    leftResult_succ w a n, leftCarry_succ hw, aslOverflow_succ hw ha⟩
  have hleft : leftResult w a 0 = a := by rw [leftResult_eq, pow_zero, Nat.mul_one, Nat.mod_eq_of_lt ha]
  refine ⟨?_, hleft, ?_, hleft, rfl, rfl, rfl, rfl, rfl⟩
  · rw [aluLsr_eq ha, aluOut, pow_zero, Nat.div_one]
  · rw [aluAsr_eq hw ha, aluOut, BitVec.sshiftRight_zero, BitVec.toNat_ofNat, Nat.mod_eq_of_lt ha]

/-- Settles O42. -/
theorem branchBrkNopResult : Obligations.BranchBrkNopResult := by
  rintro sz nib v _ st rfl
  have isClear (b : Bool) : (!b) = true ↔ b = false := iff_of_eq (Bool.not_eq_true' b)
  exact ⟨exec_branch nib rfl Iff.rfl, exec_branch nib rfl (isClear _), exec_branch nib rfl Iff.rfl,
    exec_branch nib rfl (isClear _), exec_branch nib rfl Iff.rfl, exec_branch nib rfl (isClear _), exec_brk sz st, rfl⟩

end Sys2Proof.Machine
end

section
/-!
PROOFS. The system instructions and the extensions of 43_system_ext: that every step answers a next state (no meaning of a
well-formed instruction stops), that the decoder state machine ends as the decode does, RTI, SYS and the extension
instructions, the writes of callbacks and executors, and registration.
-/
namespace Sys2Proof

/-! ### The decoder state machine (30_encoding R160 to R164) -/

/-- Ticked from `st` often enough, the decoder ends with outcome `x`. -/
def EndsAs (extRange : List Byte) (exts : List ExtEntry) (f : Fetch) (st : DecoderState)
    (x : Except DecodeError Decoded) : Prop :=
  ∃ n, ∀ m, n ≤ m → tickMany extRange exts f m st = x.map DecoderState.finished

section
variable {extRange : List Byte} {exts : List ExtEntry} {f : Fetch}

theorem tickMany_finished (d : Decoded) (m : Nat) : tickMany extRange exts f m (.finished d) = .ok (.finished d) := by
  induction m with
  | zero => rfl
  | succ m ih => exact ih

/-- A tick that ends the decode, either way, fixes the outcome of every later number of ticks. -/
theorem tickMany_of_tick_ends {st : DecoderState} {x : Except DecodeError Decoded} {m : Nat} (hm : 1 ≤ m)
    (h : tickDecoder extRange exts f st = x.map DecoderState.finished) :
    tickMany extRange exts f m st = x.map DecoderState.finished := by
  obtain ⟨k, rfl⟩ := Nat.exists_eq_add_of_le' hm
  rw [tickMany, h]
  cases x with
  | error e => rfl
  | ok d => exact tickMany_finished d k

theorem endsAs_of_tick_ends {st : DecoderState} {x : Except DecodeError Decoded}
    (h : tickDecoder extRange exts f st = x.map DecoderState.finished) : EndsAs extRange exts f st x :=
  ⟨1, fun _ hm => tickMany_of_tick_ends hm h⟩

theorem endsAs_of_tick {st st' : DecoderState} {x : Except DecodeError Decoded}
    (h : tickDecoder extRange exts f st = .ok st') (hst' : EndsAs extRange exts f st' x) : EndsAs extRange exts f st x := by
  obtain ⟨n, hn⟩ := hst'
  refine ⟨n + 1, fun m hm => ?_⟩
  obtain ⟨k, rfl⟩ := Nat.exists_eq_add_of_le' hm
  rw [← Nat.add_assoc, tickMany, h]
  exact hn _ (Nat.le_add_left n k)

theorem tick_extension_fetch {op key b : Byte} {off r : Nat} {same other : ExtDecoder} (hf : f off = some b) :
    tickDecoder extRange exts f (.extension op ⟨.fetch off key same other, r⟩) =
      .ok (.extension op ⟨if b = key then same else other, max r (off + 1)⟩) := by
  simp only [tickDecoder, tickExtension, hf]

theorem tick_extension_outside {op key : Byte} {off r : Nat} {same other : ExtDecoder} (hf : f off = none) :
    tickDecoder extRange exts f (.extension op ⟨.fetch off key same other, r⟩) =
      (runExt f op (.fetch off key same other) r).map DecoderState.finished := by
  simp only [tickDecoder, tickExtension, runExt, hf, Except.map]

/-- An extension decode in progress ends as its tree does, one tick for each fetch and one for the leaf
(30_encoding R163). -/
theorem endsAs_extension (op : Byte) (t : ExtDecoder) (r : Nat) :
    EndsAs extRange exts f (.extension op ⟨t, r⟩) (runExt f op t r) := by
  induction t generalizing r with
  | done skip handle => exact endsAs_of_tick_ends rfl
  | failed skip => exact endsAs_of_tick_ends rfl
  | fetch off key same other ihSame ihOther =>
    cases hf : f off with
    | none => exact endsAs_of_tick_ends (tick_extension_outside hf)
    | some b =>
      refine endsAs_of_tick (tick_extension_fetch hf) ?_
      simp only [runExt, hf]
      split_ifs
      · exact ihSame _
      · exact ihOther _

/-- From Idle, byte 0 of a registered extension starts that extension's decoder (30_encoding R162). -/
theorem tick_idle_extension {op : Byte} {e : ExtEntry} (h0 : f 0 = some op) (hr : extRange.contains op = true)
    (he : findExtension exts op = some e) :
    tickDecoder extRange exts f .idle = .ok (.extension op ⟨e.decoder, 1⟩) := by
  simp only [tickDecoder, fetchNext_eq_ok.2 h0, hr, he, bind, Except.bind, if_true]

/-- From Idle, any other byte 0, or none, ends the decode in one tick (30_encoding R161). -/
theorem tick_idle_ends (h : ∀ op, f 0 = some op → extRange.contains op = true → findExtension exts op = none) :
    tickDecoder extRange exts f .idle = (decode extRange exts f).map DecoderState.finished := by
  cases h0 : f 0 with
  | none =>
    rw [decode_of_absent h0, tickDecoder, fetchNext_eq_error.2 ⟨h0, rfl⟩]
    rfl
  | some op =>
    cases hr : extRange.contains op with
    | true =>
      have he := h op h0 hr
      rw [decode_of_unregistered h0 hr he]
      simp only [tickDecoder, fetchNext_eq_ok.2 h0, hr, he, bind, Except.bind, if_true, Except.map]
    | false =>
      simp only [tickDecoder, decode, fetchNext_eq_ok.2 h0, hr, bind, Except.bind, Bool.false_eq_true, if_false]
      cases opClassOf op with
      | none => rfl
      | some c => cases decodeBase f c <;> rfl

end

/-- Settles O7: byte 0 starts an extension's decoder, which ends by `endsAs_extension`, or ends the decode at once. -/
theorem ticksReachDecode : Obligations.TicksReachDecode := by
  intro extRange exts f
  refine ⟨?_, fun h m hm => tickMany_of_tick_ends hm (tick_idle_ends fun op h0 hr =>
    absurd hr (Bool.eq_false_iff.1 (h op h0)))⟩
  by_cases hext : ∃ op e, f 0 = some op ∧ extRange.contains op = true ∧ findExtension exts op = some e
  · obtain ⟨op, e, h0, hr, he⟩ := hext
    rw [decode_of_extension h0 hr he]
    exact endsAs_of_tick (tick_idle_extension h0 hr he) (endsAs_extension op e.decoder 1)
  · refine endsAs_of_tick_ends (tick_idle_ends fun op h0 hr => ?_)
    exact Option.eq_none_iff_forall_ne_some.2 fun e he => hext ⟨op, e, h0, hr, he⟩

end Sys2Proof

namespace Sys2Proof.Machine

/-! ### Execute phases that do not stop -/

/-- A part of an execute phase that answers or raises a fault reason of 60_exceptions R411, and so never stops the
model. -/
def NeverStops {α : Type} (x : Except Abort α) : Prop := ∀ q, x ≠ .error (.stop q)

theorem neverStops_ok {α : Type} (a : α) : NeverStops (.ok a) := fun _ h => nomatch h

theorem neverStops_raise {α : Type} (r : Reason) : NeverStops (α := α) (.error (.raise r)) := fun _ h => nomatch h

theorem neverStops_of_error {α : Type} {x : Except Abort α} {r : Reason} (h : ∀ e, x = .error e → e = .raise r) :
    NeverStops x := fun _ hx => nomatch h _ hx

theorem NeverStops.bind {α β : Type} {x : Except Abort α} {g : α → Except Abort β} (hx : NeverStops x)
    (hg : ∀ a, NeverStops (g a)) : NeverStops (x >>= g) := by
  cases x with
  | ok a => exact hg a
  | error e =>
    intro q h
    cases h
    exact hx q rfl

/-- A phase that never stops ends in a next state, completed or routed. -/
theorem NeverStops.finish_next {p : Except Abort State} (h : NeverStops p) (s : State) : ∃ t, finish s p = .next t := by
  rcases p with (r | q) | t
  · exact ⟨_, finish_raise s r⟩
  · exact absurd rfl (h q)
  · exact ⟨t, finish_ok s t⟩

theorem neverStops_push64 (s : State) (v : Nat) : NeverStops (push64 s v) :=
  neverStops_of_error fun _ h => (push64_eq_error.1 h).2

theorem neverStops_pop64 (s : State) : NeverStops (pop64 s) :=
  neverStops_of_error fun _ h => (pop64_eq_error.1 h).2

theorem neverStops_trapReturn (s : State) : NeverStops (trapReturn s) :=
  neverStops_of_error fun _ h => (trapReturn_eq_error.1 h).2

theorem neverStops_readLoc (s : State) (sz : Size) (loc : Loc) : NeverStops (readLoc s sz loc) :=
  neverStops_of_error fun _ h => (readLoc_eq_error.1 h).2

/-- A write stops only at an Immediate, which is no location (20_memory R100). -/
theorem neverStops_writeLoc {s : State} {sz : Size} {loc : Loc} {v : Nat} (hloc : ∀ i, loc ≠ .imm i) :
    NeverStops (writeLoc s sz loc v) := by
  intro q h
  rcases writeLoc_eq_error h with ⟨i, hi, -⟩ | ⟨_, -, -, hq⟩
  · exact hloc i hi
  · cases hq

theorem neverStops_divide (w a b : Nat) : NeverStops (divide w a b) := by
  rw [divide]
  split_ifs
  · exact neverStops_raise _
  · exact neverStops_ok _

theorem neverStops_readModifyWrite {op : Nat → Nat → Nat → Except Abort AluOut} {sz : Size} {d s : Operand} {st : State}
    (hop : ∀ w a b, NeverStops (op w a b)) (hd : ∀ i, resolve st d ≠ .imm i) :
    NeverStops (readModifyWrite op sz d s st) :=
  (neverStops_readLoc _ _ _).bind fun _ => (neverStops_readLoc _ _ _).bind fun _ => (hop _ _ _).bind fun _ =>
    (neverStops_writeLoc hd).bind fun _ => neverStops_ok _

/-! ### What an operand's role gives its meaning (30_encoding R133) -/

/-- A destination that decode accepts is a location that can be written. -/
theorem resolve_ne_imm_of_role {sz : Size} {role : Role} {cr : Bool} {d : Operand} (h : d.wf sz role cr = true)
    (hrole : role = .write ∨ role = .readWrite) (st : State) (v : Nat) : resolve st d ≠ .imm v := by
  have hadm := (Operand.wf_iff.1 h).1
  cases d with
  | imm nib x => rcases hrole with rfl | rfl <;> cases hadm
  | _ => exact Loc.noConfusion

/-- An offset that decode accepts is an Immediate. -/
theorem offset_of_role {sz : Size} {role : Role} {cr : Bool} {d : Operand} (h : d.wf sz role cr = true)
    (hrole : role = .offset ∨ role = .offset8) : ∃ nib v, d = .imm nib v := by
  have hadm := (Operand.wf_iff.1 h).1
  cases d with
  | imm nib v => exact ⟨nib, v, rfl⟩
  | _ => rcases hrole with rfl | rfl <;> cases hadm

/-- LEA's destination is a register. -/
theorem register_of_addrReg {sz : Size} {cr : Bool} {d : Operand} (h : d.wf sz .addrReg cr = true) :
    ∃ r, d = .reg r := by
  have hadm := (Operand.wf_iff.1 h).1
  cases d with
  | reg r => exact ⟨r, rfl⟩
  | _ => cases hadm

/-- LEA's source has an address. -/
theorem leaAddr_of_effAddr {sz : Size} {cr : Bool} {s : Operand} (h : s.wf sz .effAddr cr = true) (st : State) :
    ∃ a, leaAddr st sz s = some a := by
  have hadm := (Operand.wf_iff.1 h).1
  cases s with
  | reg r => cases hadm
  | creg n => cases hadm
  | _ => exact ⟨_, rfl⟩

/-! ### The execute phase of an extension instruction (43_system_ext R345) -/

section
variable {op : Byte} {handle : Nat} {st : State} {e : ExtEntry}

theorem exec_ext_of_notFound (hf : findExtension st.extensions op = none) :
    exec (.ext op handle) st = .next (route st .unknownExtension) := by
  simp only [exec, execExt, hf]

theorem exec_ext_of_ok {ws : List CoreWrite} (hf : findExtension st.extensions op = some e)
    (ho : executorOutcome e.executor handle st = .ok ws) :
    exec (.ext op handle) st = .next (ws.foldl applyWrite st.countHostCall) := by
  simp only [exec, execExt, hf, ho]

theorem exec_ext_of_fault {x : ExcId} (hf : findExtension st.extensions op = some e)
    (ho : executorOutcome e.executor handle st = .fault x) :
    exec (.ext op handle) st = .next (route st.countHostCall (.extensionFault x)) := by
  simp only [exec, execExt, hf, ho]

end

/-! ### Every well-formed instruction goes on -/

section
variable {sz : Size} {d s : Operand} (st : State)

/-- The classes of the shared shape: the role of the destination keeps an Immediate out. -/
theorem finish_readModifyWrite_next {c : BClass} {op : Nat → Nat → Nat → Except Abort AluOut}
    (h : (Parts.b c sz d s).wf = true) (hc : dstRole c = .readWrite) (hop : ∀ w a b, NeverStops (op w a b)) :
    ∃ t, finish st (readModifyWrite op sz d s st) = .next t := by
  have hd := (Parts.wf_b_iff.1 h).1
  exact (neverStops_readModifyWrite hop (resolve_ne_imm_of_role hd (.inr hc) st)).finish_next st

/-- The branches: an OFF8 operand is an Immediate. -/
theorem finish_branchIf_next {c : UClass} (cond : Bool) (h : (Parts.u c sz d).wf = true)
    (hc : unaryRole c = .offset8) : ∃ t, finish st (branchIf cond d st) = .next t := by
  obtain ⟨nib, v, rfl⟩ := offset_of_role (Parts.wf_u_iff.1 h).1 (.inr hc)
  exact ⟨_, finish_ok st _⟩

theorem exec_sys_next : ∃ t, exec (.sys sz d) st = .next t := by
  refine ((neverStops_readLoc _ _ _).bind fun id => ?_).finish_next st
  cases findSyscall st.syscalls id with
  | none => exact neverStops_raise _
  | some e => exact neverStops_ok _

theorem exec_call_next (h : Instr.wf (.call sz d) = true) : ∃ t, exec (.call sz d) st = .next t := by
  obtain ⟨nib, v, rfl⟩ := offset_of_role (Parts.wf_u_iff.1 h).1 (.inl rfl)
  exact ((neverStops_push64 _ _).bind fun _ => neverStops_ok _).finish_next st

theorem exec_push_next : ∃ t, exec (.push sz d) st = .next t :=
  ((neverStops_readLoc _ _ _).bind fun _ => neverStops_push64 _ _).finish_next st

theorem exec_pop_next (h : Instr.wf (.pop sz d) = true) : ∃ t, exec (.pop sz d) st = .next t := by
  have hd := resolve_ne_imm_of_role (Parts.wf_u_iff.1 h).1 (.inl rfl) st
  exact ((neverStops_pop64 _).bind fun _ => neverStops_writeLoc hd).finish_next st

theorem exec_mov_next (h : Instr.wf (.mov sz d s) = true) : ∃ t, exec (.mov sz d s) st = .next t := by
  have hd := resolve_ne_imm_of_role (Parts.wf_b_iff.1 h).1 (.inl rfl) st
  exact ((neverStops_readLoc _ _ _).bind fun _ => (neverStops_writeLoc hd).bind fun _ => neverStops_ok _).finish_next st

theorem exec_cmp_next : ∃ t, exec (.cmp sz d s) st = .next t :=
  ((neverStops_readLoc _ _ _).bind fun _ => (neverStops_readLoc _ _ _).bind fun _ => neverStops_ok _).finish_next st

theorem exec_lea_next (h : Instr.wf (.lea sz d s) = true) : ∃ t, exec (.lea sz d s) st = .next t := by
  obtain ⟨hd, hs⟩ := Parts.wf_b_iff.1 h
  obtain ⟨r, rfl⟩ := register_of_addrReg hd
  obtain ⟨a, ha⟩ := leaAddr_of_effAddr hs st
  exact ⟨_, exec_lea_of_leaAddr r ha⟩

theorem exec_ext_next (op : Byte) (handle : Nat) : ∃ t, exec (.ext op handle) st = .next t := by
  cases hf : findExtension st.extensions op with
  | none => exact ⟨_, exec_ext_of_notFound hf⟩
  | some e =>
    cases ho : executorOutcome e.executor handle st with
    | ok ws => exact ⟨_, exec_ext_of_ok hf ho⟩
    | fault x => exact ⟨_, exec_ext_of_fault hf ho⟩

end

/-- No meaning of a well-formed instruction stops or refuses. -/
theorem exec_next_of_wf {i : Instr} (h : i.wf = true) (s : State) : ∃ t, exec i s = .next t := by
  cases i with
  | brk sz => exact ⟨_, exec_brk sz s⟩
  | nop sz => exact ⟨s, rfl⟩
  | ret sz => exact ((neverStops_pop64 s).bind fun _ => neverStops_ok _).finish_next s
  | rti sz => exact (neverStops_trapReturn s).finish_next s
  | sys sz d => exact exec_sys_next s
  | call sz d => exact exec_call_next s h
  | push sz d => exact exec_push_next s
  | pop sz d => exact exec_pop_next s h
  | beq sz d => exact finish_branchIf_next s _ h rfl
  | bne sz d => exact finish_branchIf_next s _ h rfl
  | bcs sz d => exact finish_branchIf_next s _ h rfl
  | bcc sz d => exact finish_branchIf_next s _ h rfl
  | bvs sz d => exact finish_branchIf_next s _ h rfl
  | bvc sz d => exact finish_branchIf_next s _ h rfl
  | lsr sz d x => exact finish_readModifyWrite_next s h rfl fun _ _ _ => neverStops_ok _
  | lsl sz d x => exact finish_readModifyWrite_next s h rfl fun _ _ _ => neverStops_ok _
  | asr sz d x => exact finish_readModifyWrite_next s h rfl fun _ _ _ => neverStops_ok _
  | asl sz d x => exact finish_readModifyWrite_next s h rfl fun _ _ _ => neverStops_ok _
  | mov sz d x => exact exec_mov_next s h
  | add sz d x => exact finish_readModifyWrite_next s h rfl fun _ _ _ => neverStops_ok _
  | sub sz d x => exact finish_readModifyWrite_next s h rfl fun _ _ _ => neverStops_ok _
  | mul sz d x => exact finish_readModifyWrite_next s h rfl fun _ _ _ => neverStops_ok _
  | div sz d x => exact finish_readModifyWrite_next s h rfl neverStops_divide
  | cmp sz d x => exact exec_cmp_next s
  | lea sz d x => exact exec_lea_next s h
  | ext op handle => exact exec_ext_next s op handle

/-- A step answers a next state, since what its decode gives its execute phase is well-formed. -/
theorem step_next (s : State) : ∃ t, step s = .next t := by
  rw [step]
  split_ifs
  · exact ⟨_, rfl⟩
  · cases stepBoundary (beginStep s) with
    | halted t => exact ⟨t, rfl⟩
    | go u =>
      simp only [fetchAndExecute]
      cases hd : decodeAt u with
      | error e => exact ⟨_, rfl⟩
      | ok d =>
        have hwf := ((decodedIsWellFormed _ _ _).1 d hd).1
        exact exec_next_of_wf hwf _

/-! ### Parameters and registries (10_state R57) -/

/-- The parameters and the registries are as before. -/
def sameConfig (s t : State) : Prop := t.cfg = s.cfg ∧ t.syscalls = s.syscalls ∧ t.extensions = s.extensions

theorem sameConfig.trans {s t u : State} (h : sameConfig s t) (h' : sameConfig t u) : sameConfig s u :=
  ⟨h'.1.trans h.1, h'.2.1.trans h.2.1, h'.2.2.trans h.2.2⟩

theorem Kept.sameConfig {s t : State} (h : Kept s t) : sameConfig s t := ⟨h.cfg, h.syscalls, h.extensions⟩

theorem sameConfig_route (s : State) (r : Reason) : sameConfig s (route s r) := by
  obtain ⟨-, -, -, -, -, -, -, -, -, -, -, hcfg, hsys, hext, -⟩ := route_onlyRouted s r
  exact ⟨hcfg, hsys, hext⟩

theorem exec_sameConfig {i : Instr} {s t : State} (h : exec i s = .next t) : sameConfig s t := by
  rcases exec_next_cases h with hdone | ⟨r, rfl⟩ | ⟨x, rfl⟩
  · exact hdone.kept.sameConfig
  · exact sameConfig_route s r
  · exact sameConfig_route s.countHostCall _

theorem stepBoundary_go_sameConfig {s u : State} (h : stepBoundary s = .go u) : sameConfig s u := by
  obtain ⟨hcfg, hsys, hext, -⟩ := stepBoundary_go_kept h
  exact ⟨hcfg, hsys, hext⟩

theorem decodeFailed_sameConfig (u : State) (e : DecodeError) : sameConfig u (decodeFailed u e) := by
  obtain ⟨-, -, -, -, -, -, -, hcfg, hsys, hext, -⟩ := decodeFailed_kept u e
  exact ⟨hcfg, hsys, hext⟩

theorem step_sameConfig {s t : State} (h : step s = .next t) : sameConfig s t := by
  rcases step_next_cases h with ⟨-, rfl⟩ | ⟨-, hb⟩ | ⟨u, e, -, hb, -, rfl⟩ | ⟨u, d, -, hb, -, hx⟩
  case inl => exact ⟨rfl, rfl, rfl⟩
  case inr.inl =>
    rw [stepBoundary_halted_eq hb]
    exact ⟨rfl, rfl, rfl⟩
  case inr.inr.inl => exact (stepBoundary_go_sameConfig hb).trans (decodeFailed_sameConfig u e)
  case inr.inr.inr => exact (stepBoundary_go_sameConfig hb).trans (exec_sameConfig (s := afterDecode u d) hx)

/-- Settles O9: `step_next` and `step_sameConfig`. -/
theorem stepAlwaysGoesOn : Obligations.StepAlwaysGoesOn := fun s =>
  let ⟨t, ht⟩ := step_next s
  ⟨t, ht, step_sameConfig ht⟩

/-! ### RTI (43_system_ext R335) -/

/-- Settles O43. -/
theorem rtiResult : Obligations.RtiResult := by
  rintro sz st _ hslots rfl
  refine ⟨_, congrArg (finish st) (trapReturn_eq_ok.2 ⟨hslots, rfl⟩), rfl, rfl, rfl, ?_, fun r hr => ?_, fun n => ?_, rfl,
    ?_⟩
  · simp
  · simpa using getReg_setSp_other st _ hr
  · simp
  · simp [sameControl]

/-! ### Host transitions (43_system_ext R331, R345) -/

/-- What is kept beside IP, H and the ISR state makes up the limits of a host transition, which is counted once. -/
theorem hostLimits_of_silent {s t : State} (hk : Kept s t) (hs : hostSilent s.countHostCall t) : hostLimits s t := by
  obtain ⟨hip, hhalt, hisr, hcalls⟩ := hs
  exact ⟨hip, hhalt, hisr, hk.excPending, hk.dstate, hk.extInstance, hk.record, hk.result, hk.cfg, hk.syscalls,
    hk.extensions, hcalls⟩

theorem findSyscall_eq_none {tbl : List SyscallEntry} {id : Nat} :
    findSyscall tbl id = none ↔ ∀ e ∈ tbl, e.id.toNat ≠ id := by
  simp [findSyscall, List.find?_eq_none]

/-- In a registry without duplicates the syscall found is the one registered (43_system_ext R332). -/
theorem findSyscall_of_mem {tbl : List SyscallEntry} {e : SyscallEntry} (hn : (tbl.map SyscallEntry.id).Nodup)
    (he : e ∈ tbl) : findSyscall tbl e.id.toNat = some e := by
  cases hf : findSyscall tbl e.id.toNat with
  | none => exact absurd rfl (findSyscall_eq_none.1 hf e he)
  | some x =>
    have hid : x.id = e.id := BitVec.eq_of_toNat_eq (by simpa using List.find?_some hf)
    rw [List.inj_on_of_nodup_map hn (List.mem_of_find?_eq_some hf) he hid]

section
variable {sz : Size} {d : Operand} {st : State}

theorem exec_sys_of_found {e : SyscallEntry} (hd : readable st sz (resolve st d) = true)
    (hf : findSyscall st.syscalls (locView st sz (resolve st d)) = some e) :
    exec (.sys sz d) st = .next (runCallback e.callback st) := by
  rw [exec, execSys, readLoc_of_readable hd]
  simp only [bind, Except.bind, hf, pure, Except.pure, finish_ok]

theorem exec_sys_of_notFound (hd : readable st sz (resolve st d) = true)
    (hf : findSyscall st.syscalls (locView st sz (resolve st d)) = none) :
    exec (.sys sz d) st = .next (route st .unknownSyscall) := by
  rw [exec, execSys, readLoc_of_readable hd]
  simp only [bind, Except.bind, hf, finish_raise]

end

/-- Settles O44. -/
theorem sysResult : Obligations.SysResult := by
  rintro sz d st _ hd rfl
  refine ⟨fun e he hn hid => ?_, fun hnone => ?_⟩
  · have hf := hid ▸ findSyscall_of_mem hn he
    have hk := kept_runCallback e.callback st
    exact ⟨_, exec_sys_of_found hd hf, rfl, hostLimits_of_silent hk (hostSilent_foldl_applyAction _ _), hk.bits⟩
  · exact ⟨_, exec_sys_of_notFound hd (findSyscall_eq_none.2 hnone), faulted_route st _⟩

/-- Neither a flag nor IP is in an executor's view, and so neither can change its report (10_state R42). -/
theorem executorOutcome_congr (ex : ExtExecutor) (handle : Nat) {s t : State} (hv : executorView t = executorView s)
    (hc : t.hostCalls = s.hostCalls) : executorOutcome ex handle t = executorOutcome ex handle s := by
  cases ex with
  | script o => rfl
  | host k => rw [executorOutcome, executorOutcome, hv, hc]

/-- Settles O45. -/
theorem extResult : Obligations.ExtResult := by
  refine ⟨?_, fun ex handle s t hregs hmem hsize hcalls => ?_⟩
  · rintro op handle st e hn he rfl
    have hf := findExtension_of_mem hn he
    refine ⟨fun ws ho => ?_, fun x ho => ⟨_, exec_ext_of_fault hf ho, faulted_route _ _⟩⟩
    have hk := (kept_countHostCall st).trans (kept_foldl_applyWrite ws _)
    exact ⟨_, exec_ext_of_ok hf ho, rfl, hostLimits_of_silent hk (hostSilent_foldl_applyWrite ws _),
      foldl_applyWrite_bits ws _⟩
  · exact executorOutcome_congr ex handle (by rw [executorView, executorView, hregs, hmem, hsize]) hcalls

/-! ### Single writes and port actions (43_system_ext R331, R345) -/

section
variable {s : State} {a : Word} {sz : Size}

theorem applyWrite_store_inside (v : Word) (h : inBounds s a.toNat sz.bytes = true) :
    applyWrite s (.store a sz v) = s.withMem (memWriteN s.mem a.toNat sz.bytes v.toNat) := if_pos h

theorem applyWrite_store_outside (v : Word) (h : inBounds s a.toNat sz.bytes = false) :
    applyWrite s (.store a sz v) = s := if_neg (by simp [h])

end

/-- A rejected port operation changes nothing (60_exceptions R423). -/
theorem replyState_replyOf (s : State) (o : Option State) : replyState s (replyOf o) = o.getD s := by
  cases o <;> rfl

/-- Settles O46: a clause for each kind of write, and the port operations by `replyState_replyOf`. -/
theorem hostWriteEffects : Obligations.HostWriteEffects := by
  refine ⟨fun s hm => ⟨fun r v => ?_, fun n v => ?_, fun c v z n x => rfl, fun a sz v h => ?_,
    fun a sz v => applyWrite_store_outside v⟩, fun s w => rfl, fun s p => ?_⟩
  · exact ⟨getReg_setReg_same s r v, fun r' hr => getReg_setReg_other s v hr, getCr_setReg s r v,
      setReg_eq_withRegs s r v⟩
  · exact ⟨getCr_setCr_same s n v, getReg_setCr s n v, fun n' hn => getCr_setCr_other s v hn, rfl⟩
  · rw [applyWrite_store_inside v h]
    refine ⟨?_, fun x hx => memRead_memWriteN_other hm _ _ _ x hx, rfl⟩
    rw [withMem_mem, memReadN_memWriteN hm, pow256_bytes]
  · cases p <;> exact (replyState_replyOf s _).symm

/-! ### Registration (43_system_ext R332, R341) -/

theorem hasExtension_iff {s : State} {b : Byte} : hasExtension s b = true ↔ ∃ e ∈ s.extensions, e.opcode = b := by
  simp [hasExtension, findExtension]

/-- A transaction that no state can answer is rejected. -/
theorem rejected_of_not_ok {r : HostReply} (h : ∀ t, r ≠ .ok t) : r = .rejected := by
  cases r with
  | ok t => exact absurd rfl (h t)
  | rejected => rfl

/-- Settles O57: what an accepted registration is, and the rejected one as one that cannot be accepted. -/
theorem registration : Obligations.Registration := by
  refine fun s y x => ⟨fun h => registerSyscall_eq_ok.2 ⟨h, rfl⟩, fun ⟨e, he, hid⟩ => ?_,
    fun hr h => registerExtension_eq_ok.2 ⟨hr, h, rfl⟩, fun h => ?_, fun b => hasExtension_iff, rfl⟩
  · exact rejected_of_not_ok fun t ht => (registerSyscall_eq_ok.1 ht).1 e he hid
  · refine rejected_of_not_ok fun t ht => ?_
    obtain ⟨hrange, hnew, -⟩ := registerExtension_eq_ok.1 ht
    rcases h with hout | ⟨e, he, hop⟩
    · exact absurd hrange (Bool.eq_false_iff.1 hout)
    · exact hnew e he hop

end Sys2Proof.Machine
end

section
/-!
PROOFS. The step and its traps (60_exceptions R400 to R434): the phases of a step and what a fault leaves of them (R411,
R413), what a trap entry saves (`Entered`, R430) and RTI's return from it (R433), which trap the step boundary takes
(R401, R402) or faults on (R434), and the interrupt and exception control port (R420 to R423).
-/
namespace Sys2Proof.Machine

/-! ### The phases of a step (60_exceptions R400) -/

theorem step_of_go {s u : State} (hh : s.flags.h = false) (hb : stepBoundary (beginStep s) = .go u) :
    step s = fetchAndExecute u := by
  simp [step, hh, hb]

theorem step_of_halted {s t : State} (hh : s.flags.h = false) (hb : stepBoundary (beginStep s) = .halted t) :
    step s = .next t := by
  simp [step, hh, hb]

theorem fetchAndExecute_of_ok {u : State} {d : Decoded} (hd : decodeAt u = .ok d) :
    fetchAndExecute u = exec d.instr (afterDecode u d) := by
  rw [fetchAndExecute, hd]

theorem fetchAndExecute_of_error {u : State} {e : DecodeError} (hd : decodeAt u = .error e) :
    fetchAndExecute u = .next (decodeFailed u e) := by
  rw [fetchAndExecute, hd]

/-- Settles O8: the state handed to `exec` is `afterDecode`'s, field by field. -/
theorem stepRunsDecodedInstruction : Obligations.StepRunsDecodedInstruction := by
  refine ⟨fun s d hh hn hd => ?_, fun u d hd => fetchAndExecute_of_ok hd, fun s u => step_of_go⟩
  have hbegin : decodeAt (beginStep s) = .ok d := hd
  rw [step_noTrap hh hn, fetchAndExecute_of_ok hbegin]
  rfl

/-! ### What a fault leaves (60_exceptions R411, R413) -/

/-- Routing as a whole: the failing result, and the exception of an enabled line pending (60_exceptions R413). -/
theorem route_eq (s : State) (r : Reason) :
    route s r = (s.withResult (.fail r)).withExcPending (pendingAfter s.excEnabled s.excPending r) := by
  rw [← route_excPending]
  rcases route_cases s r with h | ⟨e, -, -, h⟩ <;> rw [h] <;> rfl

theorem decodeFailed_eq (u : State) (e : DecodeError) :
    decodeFailed u e = { u with
      ip := u.ip + BitVec.ofNat 64 e.consumed
      dstate := .idle
      extInstance := none
      result := .fail (decodeReason e.reason)
      excPending := pendingAfter u.excEnabled u.excPending (decodeReason e.reason) } :=
  route_eq _ _

/-- All that decode and a faulting execute phase leave as it was, routing aside (60_exceptions R413). -/
structure PhasesKeep (u w : State) : Prop where
  regs : w.regs = u.regs
  flags : w.flags = u.flags
  mem : w.mem = u.mem
  isr : w.isr = u.isr
  irqPending : w.irqPending = u.irqPending
  irqEnabled : w.irqEnabled = u.irqEnabled
  excEnabled : w.excEnabled = u.excEnabled
  cfg : w.cfg = u.cfg
  syscalls : w.syscalls = u.syscalls
  extensions : w.extensions = u.extensions

theorem phasesKeep_decodeFailed (u : State) (e : DecodeError) : PhasesKeep u (decodeFailed u e) := by
  rw [decodeFailed_eq]
  exact ⟨rfl, rfl, rfl, rfl, rfl, rfl, rfl, rfl, rfl, rfl⟩

theorem phasesKeep_route {u w : State} (h : PhasesKeep u w) (r : Reason) : PhasesKeep u (route w r) := by
  rw [route_eq]
  exact { h with }

theorem phasesKeep_afterDecode (u : State) (d : Decoded) : PhasesKeep u (afterDecode u d) :=
  ⟨rfl, rfl, rfl, rfl, rfl, rfl, rfl, rfl, rfl, rfl⟩

theorem phasesKeep_countHostCall {u w : State} (h : PhasesKeep u w) : PhasesKeep u w.countHostCall := { h with }

/-- An execute phase whose result is a failure is a routed fault, of the phase itself or of an executor it counted
(40_move_arith R199, 43_system_ext R345). -/
theorem exec_fail_cases {i : Instr} {w t : State} {r : Reason} (hw : w.result = .ok) (h : exec i w = .next t)
    (ht : t.result = .fail r) : t = route w r ∨ t = route w.countHostCall r := by
  rcases exec_next_cases h with hdone | ⟨q, rfl⟩ | ⟨x, rfl⟩
  · simp [hdone.kept.result, hw] at ht
  · rw [route_result, StepResult.fail.injEq] at ht
    exact .inl (by rw [ht])
  · rw [route_result, StepResult.fail.injEq] at ht
    exact .inr (by rw [ht])

/-- The decode and execute phases, when they fail with reason `r`. -/
structure PhasesFailed (u t : State) (r : Reason) : Prop where
  keep : PhasesKeep u t
  ip : (∃ e, decodeAt u = .error e ∧ r = decodeReason e.reason ∧ t.ip = u.ip + BitVec.ofNat 64 e.consumed) ∨
    (∃ d, decodeAt u = .ok d ∧ t.ip = u.ip + BitVec.ofNat 64 d.length)
  excPending : t.excPending = pendingAfter u.excEnabled u.excPending r

theorem phasesFailed_of_fetchAndExecute {u t : State} {r : Reason} (hu : u.result = .ok)
    (h : fetchAndExecute u = .next t) (ht : t.result = .fail r) : PhasesFailed u t r := by
  cases hd : decodeAt u with
  | error e =>
    rw [fetchAndExecute_of_error hd, Host.Outcome.next.injEq] at h
    subst h
    have hr : r = decodeReason e.reason := by simpa [decodeFailed, eq_comm] using ht
    subst hr
    exact ⟨phasesKeep_decodeFailed u e, .inl ⟨e, hd, rfl, by rw [decodeFailed_eq]⟩, by rw [decodeFailed_eq]⟩
  | ok d =>
    rw [fetchAndExecute_of_ok hd] at h
    have hkeep := phasesKeep_afterDecode u d
    rcases exec_fail_cases (w := afterDecode u d) hu h ht with rfl | rfl
    · exact ⟨phasesKeep_route hkeep r, .inr ⟨d, hd, route_ip _ _⟩, route_excPending _ _⟩
    · exact ⟨phasesKeep_route (phasesKeep_countHostCall hkeep) r, .inr ⟨d, hd, route_ip _ _⟩, route_excPending _ _⟩

/-- A boundary that goes on leaves no exception pending (60_exceptions R426, R431). -/
theorem stepBoundary_go_excPending {s u : State} (h : stepBoundary s = .go u) : u.excPending = none := by
  obtain ⟨-, -, -, -, -, -, -, -, -, -, hexc, -⟩ := stepBoundary_go_kept h
  exact hexc

/-- Settles O11: `phasesFailed_of_fetchAndExecute` from the state the boundary goes on with. -/
theorem failingStepChangesOnlyIp : Obligations.FailingStepChangesOnlyIp := by
  refine ⟨fun s u t r hh hb h ht => ?_, fun s => stepBoundary_noTrap (s := beginStep s), fun u e hd => ?_,
    ⟨rfl, rfl, rfl, rfl, rfl, rfl⟩, ⟨rfl, rfl, rfl, rfl, rfl, rfl, rfl, rfl, fun _ => rfl, rfl⟩⟩
  · rw [step_of_go hh hb] at h
    obtain ⟨hk, hip, hexc⟩ := phasesFailed_of_fetchAndExecute (stepBoundary_go_result hb) h ht
    rw [stepBoundary_go_excPending hb] at hexc
    exact ⟨hk.regs, hk.flags, hk.mem, hk.isr, hk.irqPending, hk.irqEnabled, hk.excEnabled, hk.cfg, hk.syscalls,
      hk.extensions, hip, hexc⟩
  · rw [fetchAndExecute_of_error hd, decodeFailed_eq]

/-! ### Trap entry (60_exceptions R410, R415, R430) -/

/-- Eight bytes to a slot of the vector table (60_exceptions R415). -/
theorem vectorAddr_add (s : State) (a k : Nat) :
    vectorAddr s (a + k) = s.cfg.vtBase + BitVec.ofNat 64 (8 * a) + BitVec.ofNat 64 (8 * k) := by
  rw [vectorAddr, Nat.mul_add, BitVec.ofNat_add, BitVec.add_assoc]

/-- The two slots of a trap entry have no byte in common, wherever SP stands modulo `2^64`. -/
theorem trapSlots_disjoint (sp : Word) :
    (sp - 8#64).toNat + 8 ≤ (sp - 16#64).toNat ∨ (sp - 16#64).toNat + 8 ≤ (sp - 8#64).toNat := by
  bv_omega

/-- A trap entry writes no register but SP. -/
theorem trapEntry_regs {s t : State} {slot : Nat} (h : trapEntry s slot = some t) :
    t.regs = (setSp s (getSp s - 16#64)).regs := by
  obtain ⟨-, -, rfl⟩ := trapEntry_eq_some.1 h
  rw [withIsr_regs, withIp_regs, setSp_regs_congr (withMem_regs s _)]

/-- What a completed trap entry to `slot` leaves: IP and the status word saved below SP, IP at the vector's target as it
was before the pushes, the ISR state Executing, and nothing else changed (60_exceptions R430). -/
structure Entered (s t : State) (slot : Nat) : Prop where
  ip : t.ip = BitVec.ofNat 64 (memReadN s.mem (vectorAddr s slot).toNat 8)
  returnIp : memReadN t.mem (getSp s - 8#64).toNat 8 = s.ip.toNat
  status : memReadN t.mem (getSp s - 16#64).toNat 8 = statusWord s.flags
  sp : getSp t = getSp s - 16#64
  isr : t.isr = .executing
  flags : t.flags = s.flags
  regs : sameRegsExcept s t 15#4
  crs : sameCrs s t
  mem : sameMemExceptSlots s t (getSp s - 8#64).toNat (getSp s - 16#64).toNat
  control : sameControl (s.withIsr .executing) t

theorem entered_of_trapEntry {s t : State} {slot : Nat} (hm : Memory.wf s.mem = true)
    (h : trapEntry s slot = some t) : Entered s t slot := by
  have hregs := trapEntry_regs h
  obtain ⟨-, -, -, -, -, -, -, -, -, -, -, hflags, hisr, -⟩ := kept_trapEntry h
  obtain ⟨-, -, rfl⟩ := trapEntry_eq_some.1 h
  have hm' := memWriteN_wf hm (getSp s - 8#64).toNat 8 s.ip.toNat
  exact {
    ip := rfl
    returnIp := by
      simp only [withIsr_mem, withIp_mem, setSp_mem, withMem_mem]
      rw [memReadN_memWriteN_other hm' _ _ _ _ _ (trapSlots_disjoint (getSp s)), memReadN_memWriteN hm]
      exact Nat.mod_eq_of_lt s.ip.isLt
    status := by
      simp only [withIsr_mem, withIp_mem, setSp_mem, withMem_mem]
      rw [memReadN_memWriteN hm']
      exact Nat.mod_eq_of_lt ((statusWord_lt s.flags).trans (by decide))
    sp := (getSp_congr hregs).trans (getSp_setSp s _)
    isr := hisr
    flags := hflags
    regs := fun r hr => (getReg_congr hregs r).trans (getReg_setSp_other s _ hr)
    crs := fun n => (getCr_congr hregs n).trans (getCr_setSp s _ n)
    mem := fun x hret hstat => by
      simp only [withIsr_mem, withIp_mem, setSp_mem, withMem_mem]
      rw [memRead_memWriteN_other hm' _ _ _ x hstat, memRead_memWriteN_other hm _ _ _ x hret]
    control := by simp [sameControl] }

/-- A vector or a stack slot outside memory leaves no entry (60_exceptions R434). -/
theorem trapEntry_none_of_outside {s : State} {slot : Nat}
    (h : inBounds s (vectorAddr s slot).toNat 8 = false ∨ inBounds s (getSp s - 16#64).toNat 16 = false) :
    trapEntry s slot = none := by
  rw [trapEntry_eq_none]
  rintro ⟨hvector, hstack⟩
  rw [hvector, hstack] at h
  simp at h

/-- Settles O49. -/
theorem trapEntryEffect : Obligations.TrapEntryEffect := by
  refine ⟨⟨rfl, rfl, rfl, rfl⟩, fun s e l => ⟨vectorAddr_add s 2 _, vectorAddr_add s 8 l⟩,
    fun s slot hm hvector hstack => ?_, fun s slot => trapEntry_none_of_outside⟩
  have ht := trapEntry_eq_some.2 ⟨hvector, hstack, rfl⟩
  have he := entered_of_trapEntry hm ht
  exact ⟨_, ht, he.ip, he.returnIp, he.status, he.sp, he.isr, he.flags, he.regs, he.crs, he.mem, he.control⟩

/-! ### The return from a trap (60_exceptions R433) -/

/-- SP put back after another write of it restores every register. -/
theorem setSp_setSp_getSp_regs (s : State) (v : Word) : (setSp (setSp s v) (getSp s)).regs = s.regs := rfl

/-- The 16 bytes a trap entry saved are in memory for the RTI that follows. -/
theorem trapEntry_saved_inBounds {s t : State} {slot : Nat} (h : trapEntry s slot = some t) :
    inBounds t (getSp t).toNat 16 = true := by
  obtain ⟨-, hstack, rfl⟩ := trapEntry_eq_some.1 h
  exact hstack

theorem exec_rti_of_slots {st : State} (sz : Size) (h : inBounds st (getSp st).toNat 16 = true) :
    exec (.rti sz) st = .next ((((setSp st (getSp st + 16#64)).withFlags
      (restoreFlags st.flags (memReadN st.mem (getSp st).toNat 8))).withIp
        (BitVec.ofNat 64 (memReadN st.mem (getSp st + 8#64).toNat 8))).withIsr .idle) :=
  congrArg (finish st) (trapReturn_eq_ok.2 ⟨h, rfl⟩)

/-- Settles O50: RTI reads the two slots that `Entered` describes, and SP is all that the entry moved. -/
theorem rtiUndoesTrapEntry : Obligations.RtiUndoesTrapEntry := by
  intro s t slot sz hm h
  have he := entered_of_trapEntry hm h
  have hret : getSp t + 8#64 = getSp s - 8#64 := by rw [he.sp]; bv_omega
  have hsp : getSp t + 16#64 = getSp s := by rw [he.sp, BitVec.sub_add_cancel]
  refine ⟨_, exec_rti_of_slots sz (trapEntry_saved_inBounds h), ?_, ?_, ?_, rfl⟩
  · rw [withIsr_ip, withIp_ip, hret, he.returnIp, BitVec.ofNat_toNat, BitVec.setWidth_eq]
  · rw [withIsr_regs, withIp_regs, withFlags_regs, hsp, setSp_regs_congr (trapEntry_regs h), setSp_setSp_getSp_regs]
  · rw [withIsr_flags, withIp_flags, withFlags_flags, he.sp, he.status, restoreFlags_statusWord, he.flags]

/-! ### Which trap the step boundary takes (60_exceptions R401, R402, R431) -/

theorem stepBoundary_of_exception {s t : State} {e : ExcId} (he : s.excPending = some e)
    (ht : trapEntry (s.withExcPending none) (excSlot e) = some t) : stepBoundary s = .go t := by
  simp [stepBoundary, he, ht]

theorem stepBoundary_of_interrupt {s t : State} {l : Nat} (he : s.excPending = none) (hi : s.isr = .idle)
    (hl : firstEligible s.irqPending s.irqEnabled = some l) (ht : trapEntry s (irqSlot l) = some t) :
    stepBoundary s = .go (t.withIrqPending (t.irqPending.set l false)) := by
  simp [stepBoundary, he, hi, hl, ht]

/-- No trap is ready when no exception is pending and interrupts are held off by Executing or none is eligible
(60_exceptions R401, R402). -/
theorem noTrapReady_iff {s : State} : noTrapReady s = true ↔ s.excPending = none ∧
    (s.isr = .executing ∨ ∀ l : Nat, ¬ (s.irqPending[l]? = some true ∧ s.irqEnabled[l]? = some true)) := by
  simp only [noTrapReady, Bool.and_eq_true, Bool.or_eq_true, Option.isNone_iff_eq_none, beq_iff_eq,
    firstEligible_eq_none]

/-- Settles O51. -/
theorem pendingExceptionTakenFirst : Obligations.PendingExceptionTakenFirst := by
  intro s t e hh he ht
  obtain ⟨-, -, -, hexc, -, -, -, -, hpending, -, -, -, hisr, -⟩ := kept_trapEntry ht
  exact ⟨step_of_go hh (stepBoundary_of_exception (s := beginStep s) he ht), hexc, hpending, hisr⟩

/-- Settles O52: the least eligible line by `firstEligible_eq_some`, no trap by `noTrapReady_iff`. -/
theorem leastInterruptTaken : Obligations.LeastInterruptTaken := by
  refine ⟨fun s t l hh he hi hp hen hleast ht => ?_, fun s hh he h => step_noTrap hh (noTrapReady_iff.2 ⟨he, h⟩)⟩
  have hl := firstEligible_eq_some.2 ⟨hp, hen, hleast⟩
  have hb := stepBoundary_of_interrupt (s := beginStep s) he hi hl ht
  obtain ⟨-, -, -, -, -, -, -, -, hpending, -⟩ := kept_trapEntry ht
  have hpending : t.irqPending = s.irqPending := hpending
  obtain ⟨hlt, -⟩ := List.getElem?_eq_some_iff.1 hp
  refine ⟨_, step_of_go hh hb, rfl, ?_, fun k hk => ?_⟩
  · rw [withIrqPending_irqPending, hpending, List.getElem?_set_self hlt]
  · rw [withIrqPending_irqPending, hpending, List.getElem?_set_ne hk.symm]

/-! ### A trap-entry fault (60_exceptions R434) -/

/-- The trap of `slot` is the one the step boundary is to take (60_exceptions R401, R402). -/
def trapReady (s : State) (slot : Nat) : Prop :=
  (∃ e, s.excPending = some e ∧ slot = excSlot e) ∨
  (s.excPending = none ∧ s.isr = .idle ∧ ∃ l, firstEligible s.irqPending s.irqEnabled = some l ∧ slot = irqSlot l)

theorem withExcPending_eq_self {s : State} {e : Option ExcId} (h : s.excPending = e) : s.withExcPending e = s := by
  rw [← h]
  rfl

theorem stepBoundary_of_trapFault {s : State} {slot : Nat} (h : trapReady s slot)
    (ht : trapEntry (s.withExcPending none) slot = none) :
    stepBoundary s = .halted (haltOnTrapFault (s.withExcPending none)) := by
  rcases h with ⟨e, he, rfl⟩ | ⟨he, hi, l, hl, rfl⟩
  · simp [stepBoundary, he, ht]
  · rw [withExcPending_eq_self he] at ht ⊢
    simp [stepBoundary, he, hi, hl, ht]

/-- Settles O53: the boundary halts the core by `stepBoundary_of_trapFault`, and what a halted core does is
`haltOnlyByBrkOrTrapFault`. -/
theorem trapEntryFaultHalts : Obligations.TrapEntryFaultHalts := by
  intro s slot hh hready hout
  have ht : trapEntry ((beginStep s).withExcPending none) slot = none := trapEntry_none_of_outside hout
  have hb := stepBoundary_of_trapFault (s := beginStep s) hready ht
  obtain ⟨hhalted, -, -, hhost⟩ := haltOnlyByBrkOrTrapFault
  exact ⟨_, step_of_halted hh hb, rfl, hhalted _ rfl, fun op u hop hu => (hhost _ u op hu).2 hop⟩

/-! ### No raise is lost (60_exceptions R420, R431) -/

/-- The step boundary clears the pending bit of the line it takes alone (60_exceptions R431). -/
theorem stepBoundary_go_pending {s u : State} {l : Nat} (h : stepBoundary s = .go u)
    (hl : s.irqPending[l]? = some true) :
    u.irqPending[l]? = some true ∨
      (s.excPending = none ∧ s.isr = .idle ∧ firstEligible s.irqPending s.irqEnabled = some l) := by
  obtain ⟨-, -, -, -, -, -, -, -, -, -, -, -, -, -, hpending⟩ := stepBoundary_go_kept h
  rcases hpending with hsame | ⟨k, he, hi, hk, hset⟩
  · exact .inl (hsame ▸ hl)
  · by_cases hkl : k = l
    · exact .inr ⟨he, hi, hkl ▸ hk⟩
    · exact .inl (by rw [hset, List.getElem?_set_ne hkl, hl])

/-- The phases after the boundary clear no pending and no enable bit. -/
theorem fetchAndExecute_bitsKept {u t : State} (h : fetchAndExecute u = .next t) : bitsKept u t := by
  cases hd : decodeAt u with
  | error e =>
    rw [fetchAndExecute_of_error hd, Host.Outcome.next.injEq] at h
    rw [← h]
    exact bitsKept_route ((u.withIp (u.ip + BitVec.ofNat 64 e.consumed)).withDecoder .idle none) _
  | ok d =>
    rw [fetchAndExecute_of_ok hd] at h
    exact (exec_keeps h).bits

/-- Settles O54: the one step that clears a pending bit is the one whose boundary takes that line. -/
theorem raiseIsNotLost : Obligations.RaiseIsNotLost := by
  intro s t l h hl
  by_cases hh : s.flags.h = true
  · rw [step, if_pos hh, Host.Outcome.next.injEq] at h
    exact .inl (h ▸ hl)
  have hh : s.flags.h = false := Bool.eq_false_iff.2 hh
  cases hb : stepBoundary (beginStep s) with
  | halted u =>
    rw [step_of_halted hh hb, Host.Outcome.next.injEq] at h
    rw [← h, stepBoundary_halted_eq hb]
    exact .inl hl
  | go u =>
    rw [step_of_go hh hb] at h
    rcases stepBoundary_go_pending hb hl with hu | ⟨he, hi, hfirst⟩
    · exact .inl ((fetchAndExecute_bitsKept h).1 l hu)
    · obtain ⟨-, hen, hleast⟩ := firstEligible_eq_some.1 hfirst
      exact .inr ⟨hh, he, hi, hen, hleast⟩

/-! ### The interrupt and exception control port (60_exceptions R420 to R423) -/

theorem hostOp_raiseInterrupt {s : State} {l : Nat} (h : l < s.cfg.numIrq) :
    hostOp s (.port (.raiseInterrupt l)) = .ok (s.withIrqPending (s.irqPending.set l true)) :=
  congrArg replyOf (if_pos h)

theorem hostOp_enableInterrupt {s : State} {l : Nat} (h : l < s.cfg.numIrq) :
    hostOp s (.port (.enableInterrupt l)) = .ok (s.withIrqEnabled (s.irqEnabled.set l true)) :=
  congrArg replyOf (if_pos h)

theorem hostOp_enableException (s : State) (e : ExcId) :
    hostOp s (.port (.enableException (excNumber e))) = .ok (s.withExcEnabled (excEnable s.excEnabled e)) := by
  simp [hostOp, enableExc, excOfNumber_excNumber, replyOf]

/-- A line that is not there is neither raised nor enabled (60_exceptions R423). -/
theorem hostOp_line_rejected {s : State} {l : Nat} (h : s.cfg.numIrq ≤ l) :
    hostOp s (.port (.raiseInterrupt l)) = .rejected ∧ hostOp s (.port (.enableInterrupt l)) = .rejected :=
  ⟨congrArg replyOf (if_neg h.not_gt), congrArg replyOf (if_neg h.not_gt)⟩

theorem hostOp_exception_rejected (s : State) {e : Nat} (h : 4 ≤ e) :
    hostOp s (.port (.enableException e)) = .rejected := by
  obtain ⟨k, rfl⟩ := Nat.exists_eq_add_of_le' h
  rfl

/-- Raises coalesce: setting a set bit changes nothing (60_exceptions R420). -/
theorem set_of_getElem? {α : Type} {l : List α} {i : Nat} {a : α} (h : l[i]? = some a) : l.set i a = l := by
  obtain ⟨hi, rfl⟩ := List.getElem?_eq_some_iff.1 h
  exact List.set_getElem_self hi

/-- Settles O56. -/
theorem interruptPort : Obligations.InterruptPort := by
  refine fun s hpending henabled => ⟨fun l hl => ?_, fun l hl => ?_, fun e => ?_, fun l => hostOp_line_rejected,
    fun e => hostOp_exception_rejected s⟩
  · refine ⟨_, hostOp_raiseInterrupt hl, rfl, List.getElem?_set_self (hpending ▸ hl),
      fun k hk => List.getElem?_set_ne hk.symm, fun hset => ?_⟩
    rw [set_of_getElem? hset]
    rfl
  · exact ⟨_, hostOp_enableInterrupt hl, rfl, List.getElem?_set_self (henabled ▸ hl),
      fun k hk => List.getElem?_set_ne hk.symm⟩
  · exact ⟨_, hostOp_enableException s e, rfl, excIsEnabled_enable s.excEnabled e⟩

end Sys2Proof.Machine
end

section
/-!
PROOFS. Power-up and loading (70_reset_and_hazards R481, R482): the step of a core whose IP is outside memory, which is
every core before `InitMemory`, and what each loading transaction leaves.
-/
namespace Sys2Proof.Machine

/-! ### A step with IP outside memory (R482) -/

theorem decodeAt_of_ip_outside {s : State} (h : s.cfg.memSize ≤ s.ip.toNat) :
    decodeAt s = .error ⟨.memoryOutOfBounds, 1⟩ :=
  decode_of_absent (fetchByte_outside (by simpa using h))

/-- The first fetch fails, and IP is past the one byte the decode consumed (30_encoding R150, 60_exceptions R413). -/
theorem step_of_ip_outside {s : State} (hh : s.flags.h = false) (hn : noTrapReady s = true)
    (h : s.cfg.memSize ≤ s.ip.toNat) : step s = .next (decodeFailed (beginStep s) ⟨.memoryOutOfBounds, 1⟩) := by
  rw [step_noTrap hh hn]
  exact fetchAndExecute_of_error (decodeAt_of_ip_outside (s := beginStep s) h)

theorem step_powerUp :
    step State.powerUp = .next (decodeFailed (beginStep State.powerUp) ⟨.memoryOutOfBounds, 1⟩) :=
  step_of_ip_outside rfl (by decide) (Nat.zero_le _)

/-! ### Loading (R482) -/

/-- Empty memory reads 0 past the bytes stored in it. -/
theorem memRead_memWriteBytes_nil (bs : List Byte) (k : Nat) :
    memRead (memWriteBytes [] 0 bs) k = (bs[k]?).getD 0 := by
  rcases Nat.lt_or_ge k bs.length with hk | hk
  · have hread := memRead_memWriteBytes_same nil_wf 0 bs k hk
    rw [Nat.zero_add] at hread
    rw [hread, Option.getD_some]
  · rw [memRead_memWriteBytes_other nil_wf 0 bs k (.inr (by omega)), List.getElem?_eq_none hk]
    rfl

/-- A host's buffer that fits is memory's contents, and 0 after its end (notes/assumptions/19.md). -/
theorem memRead_initMemory (s : State) {size : Nat} {bs : List Byte} (h : bs.length ≤ size) (k : Nat) :
    memRead (initMemory s size bs).mem k = (bs[k]?).getD 0 := by
  rw [initMemory, List.take_of_length_le h]
  exact memRead_memWriteBytes_nil bs k

theorem loadBytes_rejected {s : State} {off : Nat} {bs : List Byte} (h : s.cfg.memSize < off + bs.length) :
    loadBytes s off bs = .rejected := if_neg h.not_ge

/-- Settles O59: the power-up core's IP is outside its memory, and each transaction is what its lemma says. -/
theorem powerUpAndLoading : Obligations.PowerUpAndLoading := by
  refine ⟨⟨_, step_powerUp, route_result _ _, route_ip _ _⟩, fun s size bs hlen => ?_, fun s off bs hwf hb => ?_,
    fun s off bs => loadBytes_rejected, fun s v => rfl⟩
  · exact ⟨_, rfl, rfl, memRead_initMemory s hlen⟩
  · refine ⟨_, loadBytes_eq_ok.2 ⟨hb, rfl⟩, rfl, fun k hk => ?_, memRead_memWriteBytes_other hwf off bs⟩
    have hread := memRead_memWriteBytes_same hwf off bs k hk
    rw [List.getElem?_eq_getElem hk, Option.some.injEq] at hread
    exact hread.symm

end Sys2Proof.Machine
end
